-- ==== Sys2Proof/Word.lean ====
section
/-! DEFINITION. The word types of FE: a byte, a 16-bit value and the operation word (rules R9, R10, R82). -/

namespace Sys2Proof

/-- A byte, `u8` of rule R10. -/
abbrev Byte := BitVec 8

/-- A 16-bit value, `u16` of rule R10. -/
abbrev Half := BitVec 16

/-- An operation word `OPW[31:0]` of the operation port (rules R80, R82). -/
abbrev OpWord := BitVec 32

end Sys2Proof
end

