-- ==== Sys2Proof/Config.lean ====
section
/-! DEFINITION. The implementation parameters of rule R8, and the free values that the spec leaves unspecified. -/

namespace Sys2Proof.Config

/-- `CAP`, the buffer capacity in bytes (rule R8). -/
def cap : Nat := 255

/-- `HDR_A`, header byte A at offset 0 (rules R8, R89). -/
def hdrA : Byte := 0x5A

/-- `HDR_B`, header byte B at offset 1 (rules R8, R89). -/
def hdrB : Byte := 0xA5

/-- `LEN_OFF`, the offset of the length byte (rule R8). -/
def lenOff : Nat := 2

/-- `CMD_OFF`, the offset of the command byte (rule R8). -/
def cmdOff : Nat := 3

/-- `PAY_OFF`, the offset of the first payload byte (rule R8). -/
def payOff : Nat := 4

/-- `MAX_LEN`, the largest legal length byte (rule R8). -/
def maxLen : Nat := 252

/-- `AVAIL_DEFAULT`, the threshold the assembler fills in for `available` (rules R8, R97). -/
def availDefault : Byte := 3

/-- `TXT_MAX`, the largest text operand in bytes (rule R8, decision D29). -/
def txtMax : Nat := 255

/-- `CMD_WRITE_REGISTER` (rules R8, R91). DESIGN CHOICE kept at the spec's value, log 10. -/
def cmdWriteRegister : Byte := 0x80

/-- `CMD_READ_REGISTER` (rules R8, R91). DESIGN CHOICE kept at the spec's value, log 10. -/
def cmdReadRegister : Byte := 0x81

/-- `CMD_WRITE_RAM` (rules R8, R91). DESIGN CHOICE kept at the spec's value, log 10. -/
def cmdWriteRam : Byte := 0x82

/-- `CMD_READ_RAM` (rules R8, R91). DESIGN CHOICE kept at the spec's value, log 10. -/
def cmdReadRam : Byte := 0x83

/-- `CMD_WRITE_CURVE` (rules R8, R91). DESIGN CHOICE kept at the spec's value, log 10. -/
def cmdWriteCurve : Byte := 0x84

/-- The two admitted values of `COUNT_BYTES`, the wire width of a count (rule R8, decision D7). -/
inductive CountBytes where
  | one
  | two
deriving DecidableEq, Repr

/-- The parameters an implementation fixes and the spec leaves to the model (rule R8): `COUNT_BYTES`,
`LOG_PRESENT` and `DEBUG_ACCESS`. They stand in State, and no step changes them (log 5). -/
structure Params where
  countBytes  : CountBytes
  logPresent  : Bool
  debugAccess : Bool
deriving DecidableEq, Repr

/-- FREE VALUE: what a byte of `BUF` that nothing has written since block reset number `epoch` reads as
(rules R42, R240, R241). Nothing constrains it; log 1. -/
opaque unwrittenByte (epoch offset : Nat) : Byte

/-- FREE VALUE: whether `REQ_KIND` is RAM after block reset number `epoch` (rule R240); log 3. -/
opaque resetReqIsRam (epoch : Nat) : Bool

/-- FREE VALUE: `REQ_ADDR` after block reset number `epoch` (rule R240); log 3. -/
opaque resetReqAddr (epoch : Nat) : Half

/-- FREE VALUE: `REQ_CNT` after block reset number `epoch` (rule R240); log 3. -/
opaque resetReqCnt (epoch : Nat) : Byte

/-- FREE VALUE: `RXLEN` after block reset number `epoch` (rule R240); log 3. -/
opaque resetRxLen (epoch : Nat) : Byte

end Sys2Proof.Config
end

