-- ==== Sys2Proof/Syntax.lean ====
section
/-! DEFINITION. The operations of FE-OP version 1 and the wire commands: one constructor for each row of
spec/opcode_table.json (rules R86, R91). -/

namespace Sys2Proof

/-- An operation with its operands as rule R83 assembles them. The two text operations carry the text operand `T` of
the port (rule R80). The last five are the wire command rows (rules R85, R91), which are no operation words. -/
inductive Instr where
  | reset
  | resetCmd (c : Byte)
  | appendU8 (v : Byte)
  | appendU16 (v : Half)
  | appendText (t : List Byte)
  | appendTrunc (b : Byte) (t : List Byte)
  | appendPage (p : Byte)
  | appendReg (r : Byte)
  | appendVar (v : Half)
  | send (log : Bool)
  | available (n : Byte)
  | receive
  | extractU8
  | extractU16
  | extractAction
  | extractCmd
  | extractReg
  | extractVar
  | wregReq (r : Byte)
  | rregReq (r c : Byte)
  | rregResp (r c : Byte)
  | rregRespMatch
  | wramReq (v : Half)
  | rramReq (v : Half) (c : Byte)
  | rramResp (v : Half) (c : Byte)
  | rramRespMatch
  | wcurveReq (m : Byte)
  | wireWriteRegister
  | wireReadRegister
  | wireWriteRam
  | wireReadRam
  | wireWriteCurve
deriving DecidableEq, Repr

end Sys2Proof
end

