-- ==== Sys2Proof/WellFormed.lean ====
section
/-! DEFINITION. Which operations can be presented on the port: every operand fits its field by its type, and a text is
at most `TXT_MAX` bytes (rule R84). -/

namespace Sys2Proof

/-- A text operand that the port can carry (rule R84, decision D29). -/
def textFits (t : List Byte) : Bool := decide (t.length ≤ Config.txtMax)

/-- The check of each operation's operands: the text operations need a text of at most 255 bytes (rules R84, R125,
R200); no other operand can be out of range (rule R84). -/
def Instr.wf : Instr → Bool
  | .appendText t => textFits t
  | .appendTrunc _ t => textFits t
  | .reset => true
  | .resetCmd _ => true
  | .appendU8 _ => true
  | .appendU16 _ => true
  | .appendPage _ => true
  | .appendReg _ => true
  | .appendVar _ => true
  | .send _ => true
  | .available _ => true
  | .receive => true
  | .extractU8 => true
  | .extractU16 => true
  | .extractAction => true
  | .extractCmd => true
  | .extractReg => true
  | .extractVar => true
  | .wregReq _ => true
  | .rregReq _ _ => true
  | .rregResp _ _ => true
  | .rregRespMatch => true
  | .wramReq _ => true
  | .rramReq _ _ => true
  | .rramResp _ _ => true
  | .rramRespMatch => true
  | .wcurveReq _ => true
  | .wireWriteRegister => true
  | .wireReadRegister => true
  | .wireWriteRam => true
  | .wireReadRam => true
  | .wireWriteCurve => true

end Sys2Proof
end

