-- ==== Sys2Proof/Decode.lean ====
section
/-! DEFINITION. The decoder of rules R82 to R86 and R91, total and rejecting by name, and after it the encoder written
from the same tables. -/

namespace Sys2Proof

/-- Why a code is no row's: an operation word that is no operation completes with ILLEGAL_OP on the port (rules R85, R215); a
command byte without a name is legal on the wire (rule R92). -/
inductive DecodeError where
  /-- The `OPC` byte is in no row (rule R86). -/
  | reservedOpcode
  /-- The `OPC` byte is in the table and a bit outside the operand fields is 1 (rule R85). -/
  | reservedBits
  /-- The text operand of a text operation is longer than 255 bytes (rules R84, R215). -/
  | textTooLong
  /-- The byte is none of the five named wire commands (rules R91, R92). -/
  | unnamedCommand
deriving DecidableEq, Repr

/-- What a decoder reads: an operation word with its text operand (rule R80), or a wire command byte (rule R91). -/
inductive Code where
  | opw (w : OpWord) (t : List Byte)
  | wire (c : Byte)
deriving DecidableEq, Repr

/-- `OPC = OPW[31:24]` (rule R82). -/
def opcOf (w : OpWord) : Byte := w.extractLsb' 24 8

/-- `A = OPW[23:8]` (rule R82). -/
def aOf (w : OpWord) : Half := w.extractLsb' 8 16

/-- `B = OPW[7:0]` (rule R82). -/
def bOf (w : OpWord) : Byte := w.extractLsb' 0 8

/-- `OPW[15:8] = A[7:0]`, the count of a register read (rule R83). -/
def regCountOf (w : OpWord) : Byte := w.extractLsb' 8 8

/-- An operation without operands: `A` and `B` are reserved (rule R85). -/
def withNone (w : OpWord) (i : Instr) : Except DecodeError Instr :=
  if aOf w = 0 ∧ bOf w = 0 then .ok i else .error .reservedBits

/-- An operation with the 8-bit operand `B` alone: `A` is reserved (rules R83, R85). -/
def withB (w : OpWord) (f : Byte → Instr) : Except DecodeError Instr :=
  if aOf w = 0 then .ok (f (bOf w)) else .error .reservedBits

/-- An operation with the 16-bit operand `A` alone: `B` is reserved (rules R83, R85). -/
def withA (w : OpWord) (f : Half → Instr) : Except DecodeError Instr :=
  if bOf w = 0 then .ok (f (aOf w)) else .error .reservedBits

/-- An operation with the register `B` and the count `OPW[15:8]`: `OPW[23:16]` is reserved (rules R83, R85). -/
def withRegCount (w : OpWord) (f : Byte → Byte → Instr) : Except DecodeError Instr :=
  if w.extractLsb' 16 8 = (0 : Byte) then .ok (f (bOf w) (regCountOf w)) else .error .reservedBits

/-- `SEND`: the logging bit is `OPW[0]`, and `OPW[23:1]` is reserved (rules R83, R140). -/
def withLogBit (w : OpWord) : Except DecodeError Instr :=
  if w.extractLsb' 1 23 = (0 : BitVec 23) then .ok (.send (w.getLsbD 0)) else .error .reservedBits

/-- A text operation whose word matched its row: the text must be at most 255 bytes (rules R84, R215). -/
def withText (t : List Byte) (r : Except DecodeError Instr) : Except DecodeError Instr :=
  match r with
  | .ok i => if textFits t then .ok i else .error .textTooLong
  | .error e => .error e

/-- The operation that an operation word and its text operand stand for (rules R85, R86). Only the two text operations
read the text (rule R80). -/
def decodeOpw (w : OpWord) (t : List Byte) : Except DecodeError Instr :=
  match (opcOf w).toNat with
  | 0x01 => withNone w .reset
  | 0x02 => withB w .resetCmd
  | 0x10 => withB w .appendU8
  | 0x11 => withA w .appendU16
  | 0x12 => withText t (withNone w (.appendText t))
  | 0x13 => withText t (withB w (fun b => .appendTrunc b t))
  | 0x14 => withB w .appendPage
  | 0x15 => withB w .appendReg
  | 0x16 => withA w .appendVar
  | 0x20 => withLogBit w
  | 0x21 => withB w .available
  | 0x22 => withNone w .receive
  | 0x30 => withNone w .extractU8
  | 0x31 => withNone w .extractU16
  | 0x32 => withNone w .extractAction
  | 0x33 => withNone w .extractCmd
  | 0x34 => withNone w .extractReg
  | 0x35 => withNone w .extractVar
  | 0x40 => withB w .wregReq
  | 0x41 => withRegCount w .rregReq
  | 0x42 => withRegCount w .rregResp
  | 0x43 => withNone w .rregRespMatch
  | 0x44 => withA w .wramReq
  | 0x45 => .ok (.rramReq (aOf w) (bOf w))
  | 0x46 => .ok (.rramResp (aOf w) (bOf w))
  | 0x47 => withNone w .rramRespMatch
  | 0x48 => withB w .wcurveReq
  | _ => .error .reservedOpcode

/-- The wire command that the command byte of a frame names (rule R91); any other byte is legal on the wire and has no
name (rule R92). -/
def decodeWire (c : Byte) : Except DecodeError Instr :=
  if c = Config.cmdWriteRegister then .ok .wireWriteRegister
  else if c = Config.cmdReadRegister then .ok .wireReadRegister
  else if c = Config.cmdWriteRam then .ok .wireWriteRam
  else if c = Config.cmdReadRam then .ok .wireReadRam
  else if c = Config.cmdWriteCurve then .ok .wireWriteCurve
  else .error .unnamedCommand

/-- The decoder: an operation word is never a wire command and a wire command is never an operation word (rule R85). -/
def decode : Code → Except DecodeError Instr
  | .opw w t => decodeOpw w t
  | .wire c => decodeWire c

/-- The code that `nbits` bits of value `w` of the opcode table stand for: an 8-bit row is a wire command byte (format
WIRE_CMD), any longer one an operation word with an empty text operand (format OPW); log 16. -/
def codeOfTableWord (nbits w : Nat) : Code :=
  if nbits ≤ 8 then .wire (BitVec.ofNat 8 w) else .opw (BitVec.ofNat 32 w) []

/-- The instruction the decoder reads from the `nbits` bits `w` of a row of the opcode table. -/
def decodeTableWord (nbits w : Nat) : Option Instr :=
  match decode (codeOfTableWord nbits w) with
  | .ok i => some i
  | .error _ => none

/-- The operation word with fields `OPC`, `A`, `B` (rule R82). -/
def packWord (opc : Byte) (a : Half) (b : Byte) : OpWord := opc ++ a ++ b

/-- The code of each operation (rules R83, R86) and of each wire command (rule R91). The text operand is empty where
the operation reads none. -/
def encode : Instr → Code
  | .reset => .opw (packWord 0x01 0 0) []
  | .resetCmd c => .opw (packWord 0x02 0 c) []
  | .appendU8 v => .opw (packWord 0x10 0 v) []
  | .appendU16 v => .opw (packWord 0x11 v 0) []
  | .appendText t => .opw (packWord 0x12 0 0) t
  | .appendTrunc b t => .opw (packWord 0x13 0 b) t
  | .appendPage p => .opw (packWord 0x14 0 p) []
  | .appendReg r => .opw (packWord 0x15 0 r) []
  | .appendVar v => .opw (packWord 0x16 v 0) []
  | .send log => .opw (packWord 0x20 0 (if log then 1 else 0)) []
  | .available n => .opw (packWord 0x21 0 n) []
  | .receive => .opw (packWord 0x22 0 0) []
  | .extractU8 => .opw (packWord 0x30 0 0) []
  | .extractU16 => .opw (packWord 0x31 0 0) []
  | .extractAction => .opw (packWord 0x32 0 0) []
  | .extractCmd => .opw (packWord 0x33 0 0) []
  | .extractReg => .opw (packWord 0x34 0 0) []
  | .extractVar => .opw (packWord 0x35 0 0) []
  | .wregReq r => .opw (packWord 0x40 0 r) []
  | .rregReq r c => .opw (packWord 0x41 (c.setWidth 16) r) []
  | .rregResp r c => .opw (packWord 0x42 (c.setWidth 16) r) []
  | .rregRespMatch => .opw (packWord 0x43 0 0) []
  | .wramReq v => .opw (packWord 0x44 v 0) []
  | .rramReq v c => .opw (packWord 0x45 v c) []
  | .rramResp v c => .opw (packWord 0x46 v c) []
  | .rramRespMatch => .opw (packWord 0x47 0 0) []
  | .wcurveReq m => .opw (packWord 0x48 0 m) []
  | .wireWriteRegister => .wire Config.cmdWriteRegister
  | .wireReadRegister => .wire Config.cmdReadRegister
  | .wireWriteRam => .wire Config.cmdWriteRam
  | .wireReadRam => .wire Config.cmdReadRam
  | .wireWriteCurve => .wire Config.cmdWriteCurve

/-- The mnemonic of an instruction in spec/opcode_table.json (rules R86, R91). -/
def mnemonicOf : Instr → String
  | .reset => "RESET"
  | .resetCmd _ => "RESET_CMD"
  | .appendU8 _ => "APPEND_U8"
  | .appendU16 _ => "APPEND_U16"
  | .appendText _ => "APPEND_TEXT"
  | .appendTrunc _ _ => "APPEND_TRUNC"
  | .appendPage _ => "APPEND_PAGE"
  | .appendReg _ => "APPEND_REG"
  | .appendVar _ => "APPEND_VAR"
  | .send _ => "SEND"
  | .available _ => "AVAILABLE"
  | .receive => "RECEIVE"
  | .extractU8 => "EXTRACT_U8"
  | .extractU16 => "EXTRACT_U16"
  | .extractAction => "EXTRACT_ACTION"
  | .extractCmd => "EXTRACT_CMD"
  | .extractReg => "EXTRACT_REG"
  | .extractVar => "EXTRACT_VAR"
  | .wregReq _ => "WREG_REQ"
  | .rregReq _ _ => "RREG_REQ"
  | .rregResp _ _ => "RREG_RESP"
  | .rregRespMatch => "RREG_RESP_MATCH"
  | .wramReq _ => "WRAM_REQ"
  | .rramReq _ _ => "RRAM_REQ"
  | .rramResp _ _ => "RRAM_RESP"
  | .rramRespMatch => "RRAM_RESP_MATCH"
  | .wcurveReq _ => "WCURVE_REQ"
  | .wireWriteRegister => "WIRE_WRITE_REGISTER"
  | .wireReadRegister => "WIRE_READ_REGISTER"
  | .wireWriteRam => "WIRE_WRITE_RAM"
  | .wireReadRam => "WIRE_READ_RAM"
  | .wireWriteCurve => "WIRE_WRITE_CURVE"

/-- One `OPW` row of the opcode table: a word is in the row when `OPW & mask = match` (rule R85). -/
structure OpwRow where
  mnemonic : String
  value    : OpWord
  mask     : OpWord
deriving DecidableEq, Repr

/-- Whether a word is in the row (rule R85). -/
def OpwRow.holds (r : OpwRow) (w : OpWord) : Bool := decide (w &&& r.mask = r.value)

/-- The 27 rows of format `OPW` of spec/opcode_table.json, in the table's order (rules R85, R86). -/
def opwRows : List OpwRow :=
  [⟨"RESET", 0x01000000, 0xFFFFFFFF⟩, ⟨"RESET_CMD", 0x02000000, 0xFFFFFF00⟩,
   ⟨"APPEND_U8", 0x10000000, 0xFFFFFF00⟩, ⟨"APPEND_U16", 0x11000000, 0xFF0000FF⟩,
   ⟨"APPEND_TEXT", 0x12000000, 0xFFFFFFFF⟩, ⟨"APPEND_TRUNC", 0x13000000, 0xFFFFFF00⟩,
   ⟨"APPEND_PAGE", 0x14000000, 0xFFFFFF00⟩, ⟨"APPEND_REG", 0x15000000, 0xFFFFFF00⟩,
   ⟨"APPEND_VAR", 0x16000000, 0xFF0000FF⟩]
  ++ [⟨"SEND", 0x20000000, 0xFFFFFFFE⟩, ⟨"AVAILABLE", 0x21000000, 0xFFFFFF00⟩,
   ⟨"RECEIVE", 0x22000000, 0xFFFFFFFF⟩, ⟨"EXTRACT_U8", 0x30000000, 0xFFFFFFFF⟩,
   ⟨"EXTRACT_U16", 0x31000000, 0xFFFFFFFF⟩, ⟨"EXTRACT_ACTION", 0x32000000, 0xFFFFFFFF⟩,
   ⟨"EXTRACT_CMD", 0x33000000, 0xFFFFFFFF⟩, ⟨"EXTRACT_REG", 0x34000000, 0xFFFFFFFF⟩,
   ⟨"EXTRACT_VAR", 0x35000000, 0xFFFFFFFF⟩]
  ++ [⟨"WREG_REQ", 0x40000000, 0xFFFFFF00⟩, ⟨"RREG_REQ", 0x41000000, 0xFFFF0000⟩,
   ⟨"RREG_RESP", 0x42000000, 0xFFFF0000⟩, ⟨"RREG_RESP_MATCH", 0x43000000, 0xFFFFFFFF⟩,
   ⟨"WRAM_REQ", 0x44000000, 0xFF0000FF⟩, ⟨"RRAM_REQ", 0x45000000, 0xFF000000⟩,
   ⟨"RRAM_RESP", 0x46000000, 0xFF000000⟩, ⟨"RRAM_RESP_MATCH", 0x47000000, 0xFFFFFFFF⟩,
   ⟨"WCURVE_REQ", 0x48000000, 0xFFFFFF00⟩]

end Sys2Proof
end

