-- ==== Sys2Proof/Machine/State.lean ====
section
/-! DEFINITION. The architectural state of FE (file 10_state.md), the agents around it (rule R7), the reasons a step
can stop, and the state after reset (rules R240, R241). -/

namespace Sys2Proof.Machine

/-- `MODE` (rule R35): which direction the buffer is in. The value 3 is never written. -/
inductive Mode where
  | idle
  | tx
  | rx
deriving DecidableEq, Repr

/-- A status code of rule R211, for `STATUS` and `ECODE`. In `ECODE` the code 0 is NONE. The reserved codes 10 to 15
are never written (rule R211) and have no constructor. -/
inductive Status where
  | ok
  | bufferOverflow
  | headerMismatch
  | timeout
  | responseMismatch
  | lengthExceeded
  | extractUnderrun
  | incompleteFrame
  | illegalOp
  | frameUnusable
deriving DecidableEq, Repr

/-- `REQ_KIND` (rule R38). -/
inductive ReqKind where
  | reg
  | ram
deriving DecidableEq, Repr

/-- `RXST`, the receive state machine (rule R39). -/
inductive RxState where
  | idle
  | huntA
  | huntB
  | len
  | body
deriving DecidableEq, Repr

/-- `RCHK`, the response check a receive performs (rules R30, R39): NONE, REG(r, c) or RAM(v, c). -/
inductive RxCheck where
  | none
  | reg (r c : Byte)
  | ram (v : Half) (c : Byte)
deriving DecidableEq, Repr

/-- What the caller presents on the operation port: the operation word and the text operand (rule R80). -/
structure Operation where
  opw  : OpWord
  text : List Byte
deriving DecidableEq, Repr

/-- A turn of one of the agents of rule R7: FE moves, the timeout source fires, the caller presents an operation, the
environment appends bytes to `RXQ` (rule R251), or a block reset comes (rule R240). DESIGN CHOICE, log 6. -/
inductive Turn where
  | fe
  | timeout
  | present (op : Operation)
  | arrive (bs : List Byte)
  | blockReset
deriving DecidableEq, Repr

/-- The store of `BUF`: the bytes written since the last block reset, as (offset, byte) with offsets strictly rising.
An unlisted offset has not been written. -/
abbrev Memory := List Host.Cell

/-- The state of FE (rule R30), the environment's sequences (rule R44), and the model's own fields (the agents' turns,
the parameters of rule R8, the number of block resets). -/
structure State where
  /-- `BUF[0..254]` (rule R32). -/
  buf      : Memory
  /-- `POS` (rule R33). -/
  pos      : Byte
  /-- `END` (rule R34). -/
  fend     : Byte
  /-- `MODE` (rule R35). -/
  mode     : Mode
  /-- `ERR` (rule R36). -/
  err      : Bool
  /-- `ECODE` (rule R37). -/
  ecode    : Status
  /-- `REQ_VALID` (rule R38). -/
  reqValid : Bool
  /-- `REQ_KIND` (rule R38). -/
  reqKind  : ReqKind
  /-- `REQ_ADDR` (rule R38). -/
  reqAddr  : Half
  /-- `REQ_CNT` (rule R38). -/
  reqCnt   : Byte
  /-- `RXST` (rule R39). -/
  rxst     : RxState
  /-- `RXLEN` (rule R39). Outside R_BODY the spec gives it any value; the model keeps the last one (log 20). -/
  rxlen    : Byte
  /-- `RCHK` (rule R39). -/
  rchk     : RxCheck
  /-- `STATUS` (rule R43). -/
  status   : Status
  /-- `DATA` (rule R43). -/
  data     : Half
  /-- `RXQ`, oldest byte first (rule R44). -/
  rxq      : List Byte
  /-- `TXS`, every byte transmitted, in order (rule R44). -/
  txs      : List Byte
  /-- `LOGS`, every byte mirrored to the sink, in order (rule R44). -/
  logs     : List Byte
  /-- MODEL'S OWN: the operations the caller has still to have accepted; the head is on the port (log 7). -/
  caller   : List Operation
  /-- MODEL'S OWN: the turns still to come, first turn first; FE moves when none is listed (log 6). -/
  script   : List Turn
  /-- MODEL'S OWN: the parameters of rule R8 (log 5). -/
  par      : Config.Params
  /-- MODEL'S OWN: how many block resets have happened, the index of the free values of Config (log 3). -/
  resets   : Nat
deriving DecidableEq, Repr

/-- Why a step can fault. -/
inductive Fault where
  /-- Raised by the body step of a receive (`rxBody`) whose body would reach past offset 254: an access to a byte of
  `BUF` that does not exist (rule R60). It needs `RXLEN > 252`, which rule R149 never stores. Safe; log 12. -/
  | bufferRange
deriving DecidableEq, Repr

/-- Why a step can refuse. -/
inductive Refusal where
  /-- Raised only by an arm of `exec` whose instruction has no meaning yet. No arm of this model does. Safe. -/
  | notModelled (mnemonic : String)
deriving DecidableEq, Repr

/-- The state after power-on, a block reset (rules R240, R241): nothing of `BUF` written, the control state of R240,
fresh streams. `REQ_KIND`, `REQ_ADDR`, `REQ_CNT` and `RXLEN` are unspecified there: DESIGN CHOICE, zero (log 2).
`RXQ` is a launch parameter: DESIGN CHOICE, empty (log 4). The parameters: log 5. The turns and the caller: logs 6, 7. -/
def State.reset : State where
  buf := []
  pos := 0
  fend := 0
  mode := .idle
  err := false
  ecode := .ok
  reqValid := false
  reqKind := .reg
  reqAddr := 0
  reqCnt := 0
  rxst := .idle
  rxlen := 0
  rchk := .none
  status := .ok
  data := 0
  rxq := []
  txs := []
  logs := []
  caller := []
  script := []
  par := { countBytes := .one, logPresent := true, debugAccess := true }
  resets := 0

end Sys2Proof.Machine
end

