-- ==== Sys2Proof/Machine/Memory.lean ====
section
/-! DEFINITION. The store of the frame buffer: reading and writing one byte, in one canonical form (rules R32, R60). -/

namespace Sys2Proof.Machine

/-- The byte written at an offset, and nothing where no write has happened since block reset (rule R42, log 1). -/
def Memory.lookup : Memory → Nat → Option Byte
  | [], _ => none
  | (k, b) :: m, a => if k = a then some b else Memory.lookup m a

/-- Writing one byte; the offsets stay strictly rising. -/
def Memory.insert : Memory → Nat → Byte → Memory
  | [], a, b => [(a, b)]
  | (k, c) :: m, a, b =>
    if a < k then (a, b) :: (k, c) :: m
    else if a = k then (a, b) :: m
    else (k, c) :: Memory.insert m a b

/-- Writing a list of bytes from an offset on, in order (`MemWrite` of rule R11). -/
def Memory.insertAll : Memory → Nat → List Byte → Memory
  | m, _, [] => m
  | m, a, b :: bs => Memory.insertAll (Memory.insert m a b) (a + 1) bs

/-- Every offset of the store is above `a`, and they rise strictly. -/
def Memory.risesFrom : Nat → Memory → Bool
  | _, [] => true
  | a, (k, _) :: m => decide (a ≤ k) && Memory.risesFrom (k + 1) m

/-- The canonical form: offsets strictly rising and inside `BUF[0..254]` (rule R32). An unlisted offset reads as "not
written", which no entry equals, so equal stores are equal data. -/
def Memory.wf (m : Memory) : Bool :=
  Memory.risesFrom 0 m && m.all (fun c => decide (c.1 < Config.cap))

end Sys2Proof.Machine
end

