-- ==== Sys2Proof/Machine/Operands.lean ====
section
/-! DEFINITION. Operand forms and byte order: the multi-byte helpers of rule R12, all big-endian (rule R66, decision
D6; log 11). -/

namespace Sys2Proof.Machine

/-- `be16(v)`: the high byte, then the low byte (rules R12, R66). -/
def be16 (v : Half) : List Byte := [v.extractLsb' 8 8, v.extractLsb' 0 8]

/-- `from_be16(hi, lo)` (rule R12). -/
def fromBe16 (hi lo : Byte) : Half := hi ++ lo

/-- `zext_16(b)` (rule R10). -/
def zext16 (b : Byte) : Half := b.setWidth 16

/-- The low byte of a 16-bit value: `REQ_ADDR[7:0]` of rule R185. -/
def low8 (v : Half) : Byte := v.extractLsb' 0 8

/-- `COUNT_BYTES` as a number (rule R8). -/
def countWidth : Config.CountBytes → Nat
  | .one => 1
  | .two => 2

/-- `enc_cnt(c)` (rule R12). -/
def encCnt : Config.CountBytes → Byte → List Byte
  | .one, c => [c]
  | .two, c => [0x00, c]

/-- `dec_cnt(bs)`: the bytes read big-endian, as an exact integer (rules R12, R13). -/
def decCnt (bs : List Byte) : Nat := bs.foldl (fun n b => n * 256 + b.toNat) 0

/-- The length byte of a frame whose bytes end at offset `n`: `n - 3` (rules R13, R122). -/
def lengthByte (n : Nat) : Byte := BitVec.ofNat 8 (n - 3)

end Sys2Proof.Machine
end

