-- ==== Sys2Proof/Machine/Ops.lean ====
section
/-! DEFINITION. The named operations over the buffer, the status, the streams and the latch that every meaning is
written with: completion (rule R212), `append_bytes` (R121), `open` (R181), `extract` (R161), block reset (R240). -/

namespace Sys2Proof.Machine

/-- What a meaning or a step answers. -/
abbrev Result := Host.Outcome State Fault Refusal

/-! ## The buffer -/

/-- The byte of `BUF` at an offset; one that nothing has written since block reset is a free value (rules R42, R240,
log 1). -/
def bufByte (s : State) (a : Nat) : Byte :=
  (Memory.lookup s.buf a).getD (Config.unwrittenByte s.resets a)

/-- Whether the byte at an offset has been written since block reset (rule R45 part 7). -/
def isWritten (s : State) (a : Nat) : Bool := (Memory.lookup s.buf a).isSome

/-- `MemRead(a, n)` (rule R11). -/
def memRead (s : State) : Nat → Nat → List Byte
  | _, 0 => []
  | a, n + 1 => bufByte s a :: memRead s (a + 1) n

/-- `MemWrite(a, |bs|, bs)` (rule R11). Every caller has checked that the bytes lie inside `BUF`. -/
def memWrite (a : Nat) (bs : List Byte) (s : State) : State :=
  { s with buf := Memory.insertAll s.buf a bs }

/-- `patch_len()` (rule R122). -/
def patchLen (s : State) : State :=
  if s.pos.toNat ≥ 3 then memWrite Config.lenOff [lengthByte s.pos.toNat] s else s

/-! ## Completion and failure: FE's only exception mechanism (rules R210, R212) -/

/-- An operation completes with a status and a result (rule R212). -/
def complete (c : Status) (d : Half) (s : State) : State := { s with status := c, data := d }

/-- `return OK(d)` (rules R11, R212). -/
def returnOk (d : Half) (s : State) : State := complete .ok d s

/-- `raise code`: the status is the code and `DATA` is 0 (rule R212); nothing else is written (rule R214). -/
def raise (c : Status) (s : State) : State := complete c 0 s

/-- `ERR <- 1; ECODE <- code; raise code`: a failure that makes the frame unusable (rules R36, R37). -/
def failFrame (c : Status) (s : State) : State := raise c { s with err := true, ecode := c }

/-- The recovery from a failed frame: `ERR <- 0; ECODE <- NONE` (rule R218). -/
def clearError (s : State) : State := { s with err := false, ecode := .ok }

/-! ## Appending (file 41_append.md) -/

/-- The state after an append that fits: the bytes at the cursor, the cursor after them, the length byte patched
(rules R121, R122). -/
def appended (bs : List Byte) (s : State) : State :=
  returnOk 0 (patchLen
    (memWrite s.pos.toNat bs { s with mode := .tx, pos := BitVec.ofNat 8 (s.pos.toNat + bs.length) }))

/-- `append_bytes(bs)` (rule R121), the checks in its order. -/
def appendBytes (bs : List Byte) (s : State) : State :=
  if s.mode = .rx then raise .illegalOp s
  else if s.err then raise .frameUnusable s
  else if s.pos.toNat + bs.length > Config.cap then failFrame .bufferOverflow { s with mode := .tx }
  else appended bs s

/-! ## Starting a frame (files 40_frame_reset.md and 44_typed_variants.md) -/

/-- The effect of `RESET` (rule R110), but for the completion. -/
def resetFrame (s : State) : State :=
  clearError { s with pos := 0, fend := 0, mode := .idle }

/-- `open(cmd)`, the effect of `RESET_CMD cmd` but for the completion (rules R111, R181): the placeholder length byte
0x00 is written and patched at once (rule R112). -/
def openFrame (c : Byte) (s : State) : State :=
  clearError (patchLen
    (memWrite 0 [Config.hdrA, Config.hdrB, 0x00, c]
      { s with pos := BitVec.ofNat 8 Config.payOff, fend := 0, mode := .tx }))

/-- The request latch takes a read request (rules R38, R183, R189). -/
def latchRequest (k : ReqKind) (a : Half) (c : Byte) (s : State) : State :=
  { s with reqValid := true, reqKind := k, reqAddr := a, reqCnt := c }

/-- Whether the latch holds a read request of a kind (rules R185, R191). -/
def latchHolds (k : ReqKind) (s : State) : Bool := s.reqValid && decide (s.reqKind = k)

/-! ## The streams -/

/-- `TxPush(bs)` (rules R11, R63). -/
def txPush (bs : List Byte) (s : State) : State := { s with txs := s.txs ++ bs }

/-- `LogPush(bs)`: nothing when the logging capability is absent (rules R65, R141). -/
def logPush (bs : List Byte) (s : State) : State :=
  if s.par.logPresent then { s with logs := s.logs ++ bs } else s

/-- `RxCount() >= n` (rules R11, R63). -/
def rxHas (n : Nat) (s : State) : Bool := decide (n ≤ s.rxq.length)

/-! ## Extracting (file 43_extract.md) -/

/-- The value of the bytes an extract read: one byte zero-extended, or two bytes big-endian (rule R161). -/
def extractValue : List Byte → Half
  | [b] => zext16 b
  | [hi, lo] => fromBe16 hi lo
  | _ => 0

/-- The state after an extract inside the frame: the value in `DATA`, the cursor after it (rule R161). -/
def extracted (w : Nat) (s : State) : State :=
  returnOk (extractValue (memRead s s.pos.toNat w)) { s with pos := BitVec.ofNat 8 (s.pos.toNat + w) }

/-- `extract(w)` (rule R161), the checks in its order. -/
def extract (w : Nat) (s : State) : State :=
  if s.mode ≠ .rx then raise .illegalOp s
  else if s.err then raise .frameUnusable s
  else if s.pos.toNat + w > s.fend.toNat then failFrame .extractUnderrun s
  else extracted w s

/-! ## Block reset (file 70_reset_and_hazards.md) -/

/-- The block reset event (rule R240): the control state of R240, nothing of `BUF` written any more, the unspecified
elements drawn as free values (log 3). The streams keep what they hold. -/
def blockReset (s : State) : State :=
  { s with
    buf := [], pos := 0, fend := 0, mode := .idle, err := false, ecode := .ok,
    reqValid := false,
    reqKind := if Config.resetReqIsRam (s.resets + 1) then .ram else .reg,
    reqAddr := Config.resetReqAddr (s.resets + 1), reqCnt := Config.resetReqCnt (s.resets + 1),
    rxst := .idle, rxlen := Config.resetRxLen (s.resets + 1), rchk := .none,
    status := .ok, data := 0, resets := s.resets + 1 }

end Sys2Proof.Machine
end

