-- ==== Sys2Proof/Machine/Append.lean ====
section
/-! DEFINITION. The append operations (files 41_append.md and 45_truncated_text.md), each the primitive of rule R121
on the operand's byte list. -/

namespace Sys2Proof.Machine

/-- `APPEND_U8 v` (rule R123). -/
def execAppendU8 (v : Byte) (s : State) : Result := .next (appendBytes [v] s)

/-- `APPEND_U16 v` (rule R124). -/
def execAppendU16 (v : Half) (s : State) : Result := .next (appendBytes (be16 v) s)

/-- `APPEND_TEXT` (rule R125): the text as its exact bytes; a text over 255 bytes is ILLEGAL_OP. -/
def execAppendText (t : List Byte) (s : State) : Result :=
  .next (if textFits t then appendBytes t s else raise .illegalOp s)

/-- `APPEND_TRUNC b` (rules R200 to R203): the first `min(b, |T|)` bytes of the text. -/
def execAppendTrunc (b : Byte) (t : List Byte) (s : State) : Result :=
  .next (if textFits t then appendBytes (t.take b.toNat) s else raise .illegalOp s)

/-- `APPEND_PAGE p` (rule R126). -/
def execAppendPage (p : Byte) (s : State) : Result := .next (appendBytes [p] s)

/-- `APPEND_REG r` (rule R127). -/
def execAppendReg (r : Byte) (s : State) : Result := .next (appendBytes [r] s)

/-- `APPEND_VAR v` (rule R128). -/
def execAppendVar (v : Half) (s : State) : Result := .next (appendBytes (be16 v) s)

end Sys2Proof.Machine
end

