-- ==== Sys2Proof/Machine/Extract.lean ====
section
/-! DEFINITION. The extract operations (file 43_extract.md), each the primitive of rule R161 at the width of its type;
the type changes nothing else (rule R160). -/

namespace Sys2Proof.Machine

/-- `EXTRACT_U8` (rule R162). -/
def execExtractU8 (s : State) : Result := .next (extract 1 s)

/-- `EXTRACT_U16` (rule R163). -/
def execExtractU16 (s : State) : Result := .next (extract 2 s)

/-- `EXTRACT_ACTION` (rule R164). -/
def execExtractAction (s : State) : Result := .next (extract 2 s)

/-- `EXTRACT_CMD` (rule R165). -/
def execExtractCmd (s : State) : Result := .next (extract 1 s)

/-- `EXTRACT_REG` (rule R166). -/
def execExtractReg (s : State) : Result := .next (extract 1 s)

/-- `EXTRACT_VAR` (rule R167). -/
def execExtractVar (s : State) : Result := .next (extract 2 s)

end Sys2Proof.Machine
end

