-- ==== Sys2Proof/Machine/FrameReset.lean ====
section
/-! DEFINITION. The frame reset operations (file 40_frame_reset.md). -/

namespace Sys2Proof.Machine

/-- `RESET` (rule R110). -/
def execReset (s : State) : Result := .next (returnOk 0 (resetFrame s))

/-- `RESET_CMD c` (rules R111, R112). -/
def execResetCmd (c : Byte) (s : State) : Result := .next (returnOk 0 (openFrame c s))

end Sys2Proof.Machine
end

