-- ==== Sys2Proof/Machine/Flags.lean ====
section
/-! DEFINITION. The output ports, as functions of the state: `FLAGS`, `CURSOR`, `FEND` (rule R41), the debug port (rule
R42), the codes of `STATUS` (rule R211) and `BUSY` (rule R40). -/

namespace Sys2Proof.Machine

/-- The two bits of `MODE` (rule R35). -/
def modeBits : Mode → BitVec 2
  | .idle => 0
  | .tx => 1
  | .rx => 2

/-- The four bits of a status code (rule R211, decision D47). -/
def statusCode : Status → BitVec 4
  | .ok => 0
  | .bufferOverflow => 1
  | .headerMismatch => 2
  | .timeout => 3
  | .responseMismatch => 4
  | .lengthExceeded => 5
  | .extractUnderrun => 6
  | .incompleteFrame => 7
  | .illegalOp => 8
  | .frameUnusable => 9

/-- `BUSY = (RXST != R_IDLE)` (rule R40). -/
def busy (s : State) : Bool := decide (s.rxst ≠ .idle)

/-- The bit of `REQ_KIND` on the port: 0 while the latch is not valid (rule R41). -/
def reqKindBit (s : State) : Bool := s.reqValid && decide (s.reqKind = .ram)

/-- `FLAGS[15:0]`: `MODE` in bits 1:0, `ERR` 2, `ECODE` 6:3, `REQ_VALID` 7, `REQ_KIND` 8, `BUSY` 9, bits 15:10 zero
(rule R41). -/
def flags (s : State) : Half :=
  (0 : BitVec 6) ++ BitVec.ofBool (busy s) ++ BitVec.ofBool (reqKindBit s) ++ BitVec.ofBool s.reqValid
    ++ statusCode s.ecode ++ BitVec.ofBool s.err ++ modeBits s.mode

/-- `CURSOR[7:0] = POS` (rule R41). -/
def cursorPort (s : State) : Byte := s.pos

/-- `FEND[7:0] = END` (rule R41). -/
def fendPort (s : State) : Byte := s.fend

/-- `STATUS[3:0]` (rule R43). -/
def statusPort (s : State) : BitVec 4 := statusCode s.status

/-- `DATA[15:0]` (rule R43). -/
def dataPort (s : State) : Half := s.data

/-- `DBG_DATA` for an address, when the debug port is present: the byte of `BUF`, and 0x00 at address 255 (rule R42). -/
def debugPort (s : State) (a : Byte) : Option Byte :=
  if s.par.debugAccess then some (if a.toNat < Config.cap then bufByte s a.toNat else 0x00) else none

end Sys2Proof.Machine
end

