-- ==== Sys2Proof/Machine/Receive.lean ====
section
/-! DEFINITION. The receive state machine (rules R146 to R152) and the response checks (rules R186, R192). -/

namespace Sys2Proof.Machine

/-- `rx_start(chk)` (rule R146). -/
def rxStart (chk : RxCheck) (s : State) : State :=
  { clearError { s with mode := .rx, pos := 0, fend := 0 } with rchk := chk, rxst := .huntA }

/-- `rx_fail(code)` (rule R150): `MODE` stays RX and every popped byte stays consumed. `RXLEN`, which may hold any value
from here on (93_implementation_defined.md row 12), keeps its value: DESIGN CHOICE, log 20. -/
def rxFail (c : Status) (s : State) : State :=
  failFrame c { s with pos := 0, fend := 0, rxst := .idle, rchk := .none }

/-- The step in R_HUNT_A (rule R147); without a queued byte FE waits. A byte that is not header byte A is discarded:
a HeaderMismatch event (rule R154). -/
def huntAStep (s : State) : State :=
  match s.rxq with
  | [] => s
  | b :: q => { s with rxq := q, rxst := if b = Config.hdrA then .huntB else .huntA }

/-- The step in R_HUNT_B (rule R148); without a queued byte FE waits. -/
def huntBStep (s : State) : State :=
  match s.rxq with
  | [] => s
  | b :: q =>
    if b = Config.hdrB then memWrite 0 [Config.hdrA, Config.hdrB] { s with rxq := q, rxst := .len }
    else if b = Config.hdrA then { s with rxq := q, rxst := .huntB }
    else { s with rxq := q, rxst := .huntA }

/-- The step in R_LEN (rules R149, R150); without a queued byte FE waits. -/
def lenStep (s : State) : State :=
  match s.rxq with
  | [] => s
  | l :: q =>
    let s := memWrite Config.lenOff [l] { s with rxq := q }
    if l.toNat > Config.maxLen then rxFail .lengthExceeded s
    else { s with rxlen := l, rxst := .body }

/-- The conjunction of `check_reg(r, c)`, left to right (rule R186). -/
def regResponseOk (r c : Byte) (s : State) : Bool :=
  let w := countWidth s.par.countBytes
  let l := s.fend.toNat - 3
  let need := 2 + w
  decide (need ≤ l)
    && decide (bufByte s Config.cmdOff = Config.cmdReadRegister)
    && decide (bufByte s Config.payOff = r)
    && decide (decCnt (memRead s 5 w) = c.toNat)
    && decide (need + c.toNat ≤ l)

/-- `check_reg(r, c)` (rule R186). -/
def checkReg (r c : Byte) (s : State) : State :=
  if regResponseOk r c s then returnOk 0 { s with pos := BitVec.ofNat 8 (5 + countWidth s.par.countBytes) }
  else failFrame .responseMismatch s

/-- The conjunction of `check_ram(v, c)`, left to right (rule R192). -/
def ramResponseOk (v : Half) (c : Byte) (s : State) : Bool :=
  let w := countWidth s.par.countBytes
  let l := s.fend.toNat - 3
  let need := 3 + w
  decide (need ≤ l)
    && decide (bufByte s Config.cmdOff = Config.cmdReadRam)
    && decide (fromBe16 (bufByte s 4) (bufByte s 5) = v)
    && decide (decCnt (memRead s 6 w) = c.toNat)
    && decide (need + 2 * c.toNat ≤ l)

/-- `check_ram(v, c)` (rule R192). -/
def checkRam (v : Half) (c : Byte) (s : State) : State :=
  if ramResponseOk v c s then returnOk 0 { s with pos := BitVec.ofNat 8 (6 + countWidth s.par.countBytes) }
  else failFrame .responseMismatch s

/-- `rx_complete()` (rule R152). `RXLEN`, which may hold any value from here on (93_implementation_defined.md row 12), keeps
the accepted length: DESIGN CHOICE, log 20. -/
def rxComplete (s : State) : State :=
  let t := { s with rxst := .idle, rchk := .none }
  match s.rchk with
  | .none => returnOk 0 t
  | .reg r c => checkReg r c t
  | .ram v c => checkRam v c t

/-- Whether all `RXLEN` body bytes are queued (rule R149). -/
def bodyQueued (s : State) : Bool := rxHas s.rxlen.toNat s

/-- The frame is in: the body popped and stored from offset 3 on, `END` after it, the cursor at the command byte
(rule R149). -/
def bodyTaken (s : State) : State :=
  memWrite Config.cmdOff (s.rxq.take s.rxlen.toNat)
    { s with rxq := s.rxq.drop s.rxlen.toNat, fend := BitVec.ofNat 8 (3 + s.rxlen.toNat), pos := 3 }

/-- The body step (rule R149): all of the body is popped in one step (rule R70). A body that reaches past offset 254
has no place in `BUF`: a fault (log 12). -/
def rxBody (s : State) : Result :=
  if 3 + s.rxlen.toNat > Config.cap then .fault .bufferRange
  else .next (rxComplete (bodyTaken s))

/-- Whether the timeout step is enabled: a wait in R_LEN or R_BODY whose bytes are not queued (rules R151, R216). -/
def timeoutEnabled (s : State) : Bool :=
  match s.rxst with
  | .len => !rxHas 1 s
  | .body => !bodyQueued s
  | .idle => false
  | .huntA => false
  | .huntB => false

/-- The timeout source fires: `rx_fail(TIMEOUT)` where the step is enabled, no step elsewhere (rule R151). -/
def timeoutStep (s : State) : State :=
  if timeoutEnabled s then rxFail .timeout s else s

end Sys2Proof.Machine
end

