-- ==== Sys2Proof/Machine/Transport.lean ====
section
/-! DEFINITION. The transport operations `SEND`, `AVAILABLE` and `RECEIVE` (file 42_send_receive.md). -/

namespace Sys2Proof.Machine

/-- `SEND` on a frame that may be sent: the length byte is finalised and `BUF[0 .. POS-1]` goes to the transport, and
to the sink when logging is asked (rules R140, R141). -/
def sendFrame (log : Bool) (s : State) : State :=
  let s := memWrite Config.lenOff [lengthByte s.pos.toNat] s
  let bs := memRead s 0 s.pos.toNat
  returnOk 0 (if log then logPush bs (txPush bs s) else txPush bs s)

/-- `SEND log` (rule R140), the checks in its order. -/
def execSend (log : Bool) (s : State) : Result :=
  .next
    (if s.mode ≠ .tx then raise .illegalOp s
     else if s.err then raise .frameUnusable s
     else if s.pos.toNat < 4 then raise .incompleteFrame s
     else sendFrame log s)

/-- `AVAILABLE n` (rules R144, R145). -/
def execAvailable (n : Byte) (s : State) : Result :=
  .next (returnOk (if rxHas n.toNat s then 1 else 0) s)

/-- `RECEIVE` (rule R153): it starts the receive without a check; the steps of rules R147 to R152 complete it. -/
def execReceive (s : State) : Result := .next (rxStart .none s)

end Sys2Proof.Machine
end

