-- ==== Sys2Proof/Machine/Typed.lean ====
section
/-! DEFINITION. The typed request and response variants (file 44_typed_variants.md). -/

namespace Sys2Proof.Machine

/-- `WREG_REQ r` (rule R182). -/
def execWregReq (r : Byte) (s : State) : Result :=
  .next (returnOk 0 (appendBytes [r] (openFrame Config.cmdWriteRegister s)))

/-- `RREG_REQ r, c` (rule R183). -/
def execRregReq (r c : Byte) (s : State) : Result :=
  .next (returnOk 0 (latchRequest .reg (zext16 r) c
    (appendBytes (encCnt s.par.countBytes c) (appendBytes [r] (openFrame Config.cmdReadRegister s)))))

/-- `RREG_RESP r, c` (rule R184). -/
def execRregResp (r c : Byte) (s : State) : Result := .next (rxStart (.reg r c) s)

/-- `RREG_RESP_MATCH` (rule R185). -/
def execRregRespMatch (s : State) : Result :=
  .next (if latchHolds .reg s then rxStart (.reg (low8 s.reqAddr) s.reqCnt) s else raise .illegalOp s)

/-- `WRAM_REQ v` (rules R187, R188). -/
def execWramReq (v : Half) (s : State) : Result :=
  .next (returnOk 0 (appendBytes (be16 v) (openFrame Config.cmdWriteRam s)))

/-- `RRAM_REQ v, c` (rule R189). -/
def execRramReq (v : Half) (c : Byte) (s : State) : Result :=
  .next (returnOk 0 (latchRequest .ram v c
    (appendBytes (encCnt s.par.countBytes c) (appendBytes (be16 v) (openFrame Config.cmdReadRam s)))))

/-- `RRAM_RESP v, c` (rule R190). -/
def execRramResp (v : Half) (c : Byte) (s : State) : Result := .next (rxStart (.ram v c) s)

/-- `RRAM_RESP_MATCH` (rule R191). -/
def execRramRespMatch (s : State) : Result :=
  .next (if latchHolds .ram s then rxStart (.ram s.reqAddr s.reqCnt) s else raise .illegalOp s)

/-- `WCURVE_REQ m` (rule R193). -/
def execWcurveReq (m : Byte) (s : State) : Result :=
  .next (returnOk 0 (appendBytes [m] (openFrame Config.cmdWriteCurve s)))

end Sys2Proof.Machine
end

