-- ==== Sys2Proof/Machine/Wire.lean ====
section
/-! DEFINITION. Wire frames: their layout (rules R62, R89), the payload shape of each frame command (rule R93), and the
meaning of the wire command rows of the opcode table (log 9). -/

namespace Sys2Proof.Machine

/-- A wire frame with a command and a payload: header, length, command, payload (rules R62, R89, R90). -/
def wireFrame (c : Byte) (payload : List Byte) : List Byte :=
  [Config.hdrA, Config.hdrB, BitVec.ofNat 8 (1 + payload.length), c] ++ payload

/-- The seven frame shapes of rule R93 with their fields. -/
inductive FrameShape where
  | writeRegisterRequest (r : Byte) (data : List Byte)
  | readRegisterRequest (r c : Byte)
  | readRegisterResponse (r c : Byte) (data : List Byte)
  | writeRamRequest (v : Half) (data : List Byte)
  | readRamRequest (v : Half) (c : Byte)
  | readRamResponse (v : Half) (c : Byte) (words : List Half)
  | writeCurveRequest (m : Byte) (samples : List Byte)
deriving DecidableEq, Repr

/-- The command byte of each shape (rules R91, R93). -/
def shapeCommand : FrameShape → Byte
  | .writeRegisterRequest _ _ => Config.cmdWriteRegister
  | .readRegisterRequest _ _ => Config.cmdReadRegister
  | .readRegisterResponse _ _ _ => Config.cmdReadRegister
  | .writeRamRequest _ _ => Config.cmdWriteRam
  | .readRamRequest _ _ => Config.cmdReadRam
  | .readRamResponse _ _ _ => Config.cmdReadRam
  | .writeCurveRequest _ _ => Config.cmdWriteCurve

/-- The payload bytes of each shape (rule R93). -/
def shapePayload (cb : Config.CountBytes) : FrameShape → List Byte
  | .writeRegisterRequest r data => [r] ++ data
  | .readRegisterRequest r c => [r] ++ encCnt cb c
  | .readRegisterResponse r c data => [r] ++ encCnt cb c ++ data
  | .writeRamRequest v data => be16 v ++ data
  | .readRamRequest v c => be16 v ++ encCnt cb c
  | .readRamResponse v c words => be16 v ++ encCnt cb c ++ words.flatMap be16
  | .writeCurveRequest m samples => [m] ++ samples

/-- The wire frame of a shape (rules R62, R93). -/
def shapeFrame (cb : Config.CountBytes) (f : FrameShape) : List Byte :=
  wireFrame (shapeCommand f) (shapePayload cb f)

/-- Whether FE is about to take in a frame whose command byte is `c`: it awaits a body, all of it is queued, and the
body starts with `c` (rules R39, R149). -/
def frameLedBy (c : Byte) (s : State) : Bool :=
  decide (s.rxst = .body) && bodyQueued s && decide (s.rxlen ≠ 0) && decide (s.rxq.head? = some c)

/-- The meaning of a wire command byte `c`. At the head of a queued body FE takes the frame in: the body step of rule
R149, whatever the command is (rule R92), with the pending response check (rule R152). Elsewhere the byte is no
operation word (rule R85): a busy FE accepts nothing from the port (rule R81), an idle one completes with ILLEGAL_OP
(rules R85, R214). DESIGN CHOICE, log 9. -/
def takeFrame (c : Byte) (s : State) : Result :=
  if frameLedBy c s then rxBody s
  else if busy s then .next s
  else .next (raise .illegalOp s)

/-- A write-register frame (rules R91, R93). -/
def execWireWriteRegister (s : State) : Result := takeFrame Config.cmdWriteRegister s

/-- A read-register frame (rules R91, R93). -/
def execWireReadRegister (s : State) : Result := takeFrame Config.cmdReadRegister s

/-- A write-ram frame (rules R91, R93). -/
def execWireWriteRam (s : State) : Result := takeFrame Config.cmdWriteRam s

/-- A read-ram frame (rules R91, R93). -/
def execWireReadRam (s : State) : Result := takeFrame Config.cmdReadRam s

/-- A write-curve frame (rules R91, R93). -/
def execWireWriteCurve (s : State) : Result := takeFrame Config.cmdWriteCurve s

end Sys2Proof.Machine
end

