-- ==== Sys2Proof/Machine/Dispatch.lean ====
section
/-! DEFINITION. One arm per constructor of Instr. -/

namespace Sys2Proof.Machine

def exec (i : Instr) (s : State) : Host.Outcome State Fault Refusal :=
  match i with
  | .reset => Sys2Proof.Machine.execReset s
  | .resetCmd c => Sys2Proof.Machine.execResetCmd c s
  | .appendU8 v => Sys2Proof.Machine.execAppendU8 v s
  | .appendU16 v => Sys2Proof.Machine.execAppendU16 v s
  | .appendText t => Sys2Proof.Machine.execAppendText t s
  | .appendTrunc b t => Sys2Proof.Machine.execAppendTrunc b t s
  | .appendPage p => Sys2Proof.Machine.execAppendPage p s
  | .appendReg r => Sys2Proof.Machine.execAppendReg r s
  | .appendVar v => Sys2Proof.Machine.execAppendVar v s
  | .send log => Sys2Proof.Machine.execSend log s
  | .available n => Sys2Proof.Machine.execAvailable n s
  | .receive => Sys2Proof.Machine.execReceive s
  | .extractU8 => Sys2Proof.Machine.execExtractU8 s
  | .extractU16 => Sys2Proof.Machine.execExtractU16 s
  | .extractAction => Sys2Proof.Machine.execExtractAction s
  | .extractCmd => Sys2Proof.Machine.execExtractCmd s
  | .extractReg => Sys2Proof.Machine.execExtractReg s
  | .extractVar => Sys2Proof.Machine.execExtractVar s
  | .wregReq r => Sys2Proof.Machine.execWregReq r s
  | .rregReq r c => Sys2Proof.Machine.execRregReq r c s
  | .rregResp r c => Sys2Proof.Machine.execRregResp r c s
  | .rregRespMatch => Sys2Proof.Machine.execRregRespMatch s
  | .wramReq v => Sys2Proof.Machine.execWramReq v s
  | .rramReq v c => Sys2Proof.Machine.execRramReq v c s
  | .rramResp v c => Sys2Proof.Machine.execRramResp v c s
  | .rramRespMatch => Sys2Proof.Machine.execRramRespMatch s
  | .wcurveReq m => Sys2Proof.Machine.execWcurveReq m s
  | .wireWriteRegister => Sys2Proof.Machine.execWireWriteRegister s
  | .wireReadRegister => Sys2Proof.Machine.execWireReadRegister s
  | .wireWriteRam => Sys2Proof.Machine.execWireWriteRam s
  | .wireReadRam => Sys2Proof.Machine.execWireReadRam s
  | .wireWriteCurve => Sys2Proof.Machine.execWireWriteCurve s

end Sys2Proof.Machine
end

