-- ==== Sys2Proof/Machine/Fetch.lean ====
section
/-! DEFINITION. How the agents move (rule R7): FE accepts the operation on the port (rules R80, R81) or takes a receive
step (rules R147 to R151), and every other agent's turn. -/

namespace Sys2Proof.Machine

/-- FE takes a presented code: the operation it decodes to, or ILLEGAL_OP (rules R85, R215). -/
def runCode (c : Code) (s : State) : Result :=
  match decode c with
  | .ok i => exec i s
  | .error _ => .next (raise .illegalOp s)

/-- FE, not busy, accepts the operation on the port (rule R81); without one it waits (rule R243). -/
def acceptOp (s : State) : Result :=
  match s.caller with
  | [] => .next s
  | op :: rest => runCode (.opw op.opw op.text) { s with caller := rest }

/-- The wire command at the head of a non-empty body, when it is one of the five named ones (rule R91). -/
def frameCommand (s : State) : Option Instr :=
  if s.rxlen = 0 then none
  else
    match s.rxq with
    | [] => none
    | b :: _ =>
      match decode (.wire b) with
      | .ok i => some i
      | .error _ => none

/-- The step in R_BODY (rule R149): FE waits for the whole body, then takes the frame in; a frame with one of the five
named commands runs that command's meaning, any other or an empty one the body step itself (rule R92). -/
def bodyTurn (s : State) : Result :=
  if bodyQueued s then
    match frameCommand s with
    | some i => exec i s
    | none => rxBody s
  else .next s

/-- FE's own move: a step of the receive in progress (rules R147 to R149), or accepting an operation (rule R81). -/
def feTurn (s : State) : Result :=
  match s.rxst with
  | .idle => acceptOp s
  | .huntA => .next (huntAStep s)
  | .huntB => .next (huntBStep s)
  | .len => .next (lenStep s)
  | .body => bodyTurn s

/-- The move of the agent whose turn it is (rules R7, R216, R251). -/
def agentTurn (t : Turn) (s : State) : Result :=
  match t with
  | .fe => feTurn s
  | .timeout => .next (timeoutStep s)
  | .present op => .next { s with caller := s.caller ++ [op] }
  | .arrive bs => .next { s with rxq := s.rxq ++ bs }
  | .blockReset => .next (blockReset s)

/-- The next move of all. When no turn is scheduled any more, nothing can arrive: a wait that the timeout bounds ends
with it (weak fairness, rule R151), and otherwise FE moves. DESIGN CHOICE, logs 6 and 8. -/
def nextMove (s : State) : Result :=
  match s.script with
  | t :: rest => agentTurn t { s with script := rest }
  | [] => if timeoutEnabled s then .next (timeoutStep s) else feTurn s

/-- The state in which FE's next move takes a code: an operation word stands first on the port of an FE that is not
busy, a wire command byte is the whole queued body of a receive in progress; it is FE's turn (log 16). -/
def placeCode (c : Code) (s : State) : State :=
  match c with
  | .opw w t => { s with rxst := .idle, caller := ⟨w, t⟩ :: s.caller, script := .fe :: s.script }
  | .wire b => { s with mode := .rx, rxst := .body, rxlen := 1, rxq := b :: s.rxq, script := .fe :: s.script }

end Sys2Proof.Machine
end

