-- ==== Sys2Proof/Machine/Step.lean ====
section
/-! DEFINITION. The step of the machine, and placing an instruction where the next step takes it. -/

namespace Sys2Proof.Machine

/-- One step: the next move of the agents (rules R7, R72, R216). -/
def step (s : State) : Host.Outcome State Fault Refusal := nextMove s

/-- The state whose next step takes the instruction with the `nbits` bits `w` of its opcode-table row (log 16). -/
def State.withFetchWord (s : State) (nbits w : Nat) : State := placeCode (codeOfTableWord nbits w) s

end Sys2Proof.Machine
end

