-- ==== Sys2Proof/Machine/Assembler.lean ====
section
/-! DEFINITION. The assembler's lines (rule R96), its pseudo-operations and its range checks (rule R97): a line with its
numbers becomes operations, or is an assembly error. Lines are data, not characters (log 18). -/

namespace Sys2Proof.Machine

/-- A line of rule R96 with its operands as the integers and bytes written, and the pseudo-operations of rule R97. -/
inductive AsmLine where
  | reset
  | resetCmd (c : Int)
  | appendU8 (v : Int)
  | appendU16 (v : Int)
  | appendText (t : List Byte)
  | appendTrunc (b : Int) (t : List Byte)
  | appendPage (p : Int)
  | appendReg (r : Int)
  | appendVar (v : Int)
  | send (log : Bool)
  | available (n : Option Int)
  | receive
  | extractU8
  | extractU16
  | extractAction
  | extractCmd
  | extractReg
  | extractVar
  | wregReq (r : Int)
  | rregReq (r c : Int)
  | rregResp (r c : Int)
  | rregRespMatch
  | wramReq (v : Int)
  | wramReset (v : Int)
  | rramReq (v c : Int)
  | rramResp (v c : Int)
  | rramRespMatch
  | wcurveReq (m : Int)
  | wregWrite (r : Int) (ds : List Int)
  | rramRead (v c : Int)
  | rregRead (r c : Int)
deriving DecidableEq, Repr

/-- A literal for an 8-bit field: an assembly error outside 0..255 (rules R84, R97). -/
def literal8 (n : Int) : Option Byte := if 0 ≤ n ∧ n ≤ 255 then some (BitVec.ofInt 8 n) else none

/-- A literal for a 16-bit field: an assembly error outside 0..65535 (rules R84, R97). -/
def literal16 (n : Int) : Option Half := if 0 ≤ n ∧ n ≤ 65535 then some (BitVec.ofInt 16 n) else none

/-- The operations of a line, in order; none for an assembly error (rules R96, R97). DESIGN CHOICE: a text over 255 bytes is
an assembly error (log 21), and a `wreg.write` without data is the request and the send (log 22). -/
def assemble : AsmLine → Option (List Instr)
  | .reset => some [.reset]
  | .resetCmd c => (literal8 c).map fun c => [.resetCmd c]
  | .appendU8 v => (literal8 v).map fun v => [.appendU8 v]
  | .appendU16 v => (literal16 v).map fun v => [.appendU16 v]
  | .appendText t => if textFits t then some [.appendText t] else none
  | .appendTrunc b t => if textFits t then (literal8 b).map fun b => [.appendTrunc b t] else none
  | .appendPage p => (literal8 p).map fun p => [.appendPage p]
  | .appendReg r => (literal8 r).map fun r => [.appendReg r]
  | .appendVar v => (literal16 v).map fun v => [.appendVar v]
  | .send log => some [.send log]
  | .available none => some [.available Config.availDefault]
  | .available (some n) => (literal8 n).map fun n => [.available n]
  | .receive => some [.receive]
  | .extractU8 => some [.extractU8]
  | .extractU16 => some [.extractU16]
  | .extractAction => some [.extractAction]
  | .extractCmd => some [.extractCmd]
  | .extractReg => some [.extractReg]
  | .extractVar => some [.extractVar]
  | .wregReq r => (literal8 r).map fun r => [.wregReq r]
  | .rregReq r c => do
    let r ← literal8 r
    let c ← literal8 c
    return [.rregReq r c]
  | .rregResp r c => do
    let r ← literal8 r
    let c ← literal8 c
    return [.rregResp r c]
  | .rregRespMatch => some [.rregRespMatch]
  | .wramReq v => (literal16 v).map fun v => [.wramReq v]
  | .wramReset v => (literal16 v).map fun v => [.wramReq v]
  | .rramReq v c => do
    let v ← literal16 v
    let c ← literal8 c
    return [.rramReq v c]
  | .rramResp v c => do
    let v ← literal16 v
    let c ← literal8 c
    return [.rramResp v c]
  | .rramRespMatch => some [.rramRespMatch]
  | .wcurveReq m => (literal8 m).map fun m => [.wcurveReq m]
  | .wregWrite r ds => do
    let r ← literal8 r
    let ds ← ds.mapM literal8
    return [.wregReq r] ++ ds.map .appendU8 ++ [.send false]
  | .rramRead v c => do
    let v ← literal16 v
    let c ← literal8 c
    return [.rramReq v c, .send false, .rramRespMatch]
  | .rregRead r c => do
    let r ← literal8 r
    let c ← literal8 c
    return [.rregReq r c, .send false, .rregRespMatch]

end Sys2Proof.Machine
end

