-- ==== Sys2Proof/Safety.lean ====
section
/-! DEFINITION. The terms the statements use: which group of rules an operation belongs to, the invariants of rule R45,
and the reachable states. -/

namespace Sys2Proof.Safety

open Sys2Proof.Machine

/-! ## The groups of operations (rules R86, R87) -/

/-- The bytes an append operation appends (rules R123 to R128, R200), and nothing for any other operation. -/
def appendBytesOf : Instr → Option (List Byte)
  | .appendU8 v => some [v]
  | .appendU16 v => some [v.extractLsb' 8 8, v.extractLsb' 0 8]
  | .appendText t => some t
  | .appendTrunc b t => some (t.take b.toNat)
  | .appendPage p => some [p]
  | .appendReg r => some [r]
  | .appendVar v => some [v.extractLsb' 8 8, v.extractLsb' 0 8]
  | .reset | .resetCmd _ | .send _ | .available _ | .receive => none
  | .extractU8 | .extractU16 | .extractAction | .extractCmd | .extractReg | .extractVar => none
  | .wregReq _ | .rregReq _ _ | .rregResp _ _ | .rregRespMatch | .wramReq _ => none
  | .rramReq _ _ | .rramResp _ _ | .rramRespMatch | .wcurveReq _ => none
  | .wireWriteRegister | .wireReadRegister | .wireWriteRam | .wireReadRam | .wireWriteCurve => none

/-- The width of an extract operation (rules R162 to R167). -/
def extractWidthOf : Instr → Option Nat
  | .extractU8 | .extractCmd | .extractReg => some 1
  | .extractU16 | .extractAction | .extractVar => some 2
  | .reset | .resetCmd _ | .send _ | .available _ | .receive => none
  | .appendU8 _ | .appendU16 _ | .appendText _ | .appendTrunc _ _ | .appendPage _ | .appendReg _ | .appendVar _ => none
  | .wregReq _ | .rregReq _ _ | .rregResp _ _ | .rregRespMatch | .wramReq _ => none
  | .rramReq _ _ | .rramResp _ _ | .rramRespMatch | .wcurveReq _ => none
  | .wireWriteRegister | .wireReadRegister | .wireWriteRam | .wireReadRam | .wireWriteCurve => none

/-- The frame a request builder builds (rules R93, R182, R183, R187, R189, R193). -/
def requestOf : Instr → Option FrameShape
  | .wregReq r => some (.writeRegisterRequest r [])
  | .rregReq r c => some (.readRegisterRequest r c)
  | .wramReq v => some (.writeRamRequest v [])
  | .rramReq v c => some (.readRamRequest v c)
  | .wcurveReq m => some (.writeCurveRequest m [])
  | .reset | .resetCmd _ | .send _ | .available _ | .receive => none
  | .appendU8 _ | .appendU16 _ | .appendText _ | .appendTrunc _ _ | .appendPage _ | .appendReg _ | .appendVar _ => none
  | .extractU8 | .extractU16 | .extractAction | .extractCmd | .extractReg | .extractVar => none
  | .rregResp _ _ | .rregRespMatch | .rramResp _ _ | .rramRespMatch => none
  | .wireWriteRegister | .wireReadRegister | .wireWriteRam | .wireReadRam | .wireWriteCurve => none

/-- What an operation writes into the request latch: only the two read requests write it (rule R38). -/
def latchOf : Instr → Option (ReqKind × Half × Byte)
  | .rregReq r c => some (.reg, r.setWidth 16, c)
  | .rramReq v c => some (.ram, v, c)
  | .reset | .resetCmd _ | .send _ | .available _ | .receive => none
  | .appendU8 _ | .appendU16 _ | .appendText _ | .appendTrunc _ _ | .appendPage _ | .appendReg _ | .appendVar _ => none
  | .extractU8 | .extractU16 | .extractAction | .extractCmd | .extractReg | .extractVar => none
  | .wregReq _ | .rregResp _ _ | .rregRespMatch | .wramReq _ | .rramResp _ _ | .rramRespMatch | .wcurveReq _ => none
  | .wireWriteRegister | .wireReadRegister | .wireWriteRam | .wireReadRam | .wireWriteCurve => none

/-- The command byte of a wire command row (rule R91). -/
def wireCommandOf : Instr → Option Byte
  | .wireWriteRegister => some 0x80
  | .wireReadRegister => some 0x81
  | .wireWriteRam => some 0x82
  | .wireReadRam => some 0x83
  | .wireWriteCurve => some 0x84
  | .reset | .resetCmd _ | .send _ | .available _ | .receive => none
  | .appendU8 _ | .appendU16 _ | .appendText _ | .appendTrunc _ _ | .appendPage _ | .appendReg _ | .appendVar _ => none
  | .extractU8 | .extractU16 | .extractAction | .extractCmd | .extractReg | .extractVar => none
  | .wregReq _ | .rregReq _ _ | .rregResp _ _ | .rregRespMatch | .wramReq _ => none
  | .rramReq _ _ | .rramResp _ _ | .rramRespMatch | .wcurveReq _ => none

/-- The five receive operations (rule R81). -/
def isReceive : Instr → Bool
  | .receive | .rregResp _ _ | .rregRespMatch | .rramResp _ _ | .rramRespMatch => true
  | .reset | .resetCmd _ | .send _ | .available _ => false
  | .appendU8 _ | .appendU16 _ | .appendText _ | .appendTrunc _ _ | .appendPage _ | .appendReg _ | .appendVar _ => false
  | .extractU8 | .extractU16 | .extractAction | .extractCmd | .extractReg | .extractVar => false
  | .wregReq _ | .rregReq _ _ | .wramReq _ | .rramReq _ _ | .wcurveReq _ => false
  | .wireWriteRegister | .wireReadRegister | .wireWriteRam | .wireReadRam | .wireWriteCurve => false

/-- The operations that start a new frame, so may clear `ERR` (rules R36, R218). -/
def startsFrame : Instr → Bool
  | .reset | .resetCmd _ => true
  | .wregReq _ | .rregReq _ _ | .wramReq _ | .rramReq _ _ | .wcurveReq _ => true
  | .receive | .rregResp _ _ | .rregRespMatch | .rramResp _ _ | .rramRespMatch => true
  | .send _ | .available _ => false
  | .appendU8 _ | .appendU16 _ | .appendText _ | .appendTrunc _ _ | .appendPage _ | .appendReg _ | .appendVar _ => false
  | .extractU8 | .extractU16 | .extractAction | .extractCmd | .extractReg | .extractVar => false
  | .wireWriteRegister | .wireReadRegister | .wireWriteRam | .wireReadRam | .wireWriteCurve => false

/-- Where rule R87 and the priorities of R215 make a well-formed operation illegal: an append in mode RX, a send outside
TX, an extract outside RX, a matching receive without a latched request of its kind (rules R185, R191). -/
def illegalHere (s : State) : Instr → Bool
  | .appendU8 _ | .appendU16 _ | .appendText _ | .appendTrunc _ _ | .appendPage _ | .appendReg _ | .appendVar _ =>
    decide (s.mode = .rx)
  | .send _ => decide (s.mode ≠ .tx)
  | .extractU8 | .extractU16 | .extractAction | .extractCmd | .extractReg | .extractVar => decide (s.mode ≠ .rx)
  | .rregRespMatch => !(s.reqValid && decide (s.reqKind = .reg))
  | .rramRespMatch => !(s.reqValid && decide (s.reqKind = .ram))
  | .reset | .resetCmd _ | .available _ | .receive => false
  | .wregReq _ | .rregReq _ _ | .rregResp _ _ | .wramReq _ | .rramReq _ _ | .rramResp _ _ | .wcurveReq _ => false
  | .wireWriteRegister | .wireReadRegister | .wireWriteRam | .wireReadRam | .wireWriteCurve => false

/-! ## Assembler lines (rules R96, R97) -/

/-- The line of rule R96 that is written for an operation, its operands as the numbers written. -/
def asmLineOf : Instr → Option AsmLine
  | .reset => some .reset
  | .resetCmd c => some (.resetCmd c.toNat)
  | .appendU8 v => some (.appendU8 v.toNat)
  | .appendU16 v => some (.appendU16 v.toNat)
  | .appendText t => some (.appendText t)
  | .appendTrunc b t => some (.appendTrunc b.toNat t)
  | .appendPage p => some (.appendPage p.toNat)
  | .appendReg r => some (.appendReg r.toNat)
  | .appendVar v => some (.appendVar v.toNat)
  | .send log => some (.send log)
  | .available n => some (.available (some n.toNat))
  | .receive => some .receive
  | .extractU8 => some .extractU8
  | .extractU16 => some .extractU16
  | .extractAction => some .extractAction
  | .extractCmd => some .extractCmd
  | .extractReg => some .extractReg
  | .extractVar => some .extractVar
  | .wregReq r => some (.wregReq r.toNat)
  | .rregReq r c => some (.rregReq r.toNat c.toNat)
  | .rregResp r c => some (.rregResp r.toNat c.toNat)
  | .rregRespMatch => some .rregRespMatch
  | .wramReq v => some (.wramReq v.toNat)
  | .rramReq v c => some (.rramReq v.toNat c.toNat)
  | .rramResp v c => some (.rramResp v.toNat c.toNat)
  | .rramRespMatch => some .rramRespMatch
  | .wcurveReq m => some (.wcurveReq m.toNat)
  | .wireWriteRegister | .wireReadRegister | .wireWriteRam | .wireReadRam | .wireWriteCurve => none

/-- Every number that a line carries, with the largest value of its field (rules R84, R97). -/
def literalsOf : AsmLine → List (Int × Int)
  | .reset | .send _ | .available none | .receive | .appendText _ => []
  | .extractU8 | .extractU16 | .extractAction | .extractCmd | .extractReg | .extractVar => []
  | .rregRespMatch | .rramRespMatch => []
  | .resetCmd c => [(c, 255)]
  | .appendU8 v => [(v, 255)]
  | .appendTrunc b _ => [(b, 255)]
  | .appendPage p => [(p, 255)]
  | .appendReg r => [(r, 255)]
  | .available (some n) => [(n, 255)]
  | .wregReq r => [(r, 255)]
  | .wcurveReq m => [(m, 255)]
  | .appendU16 v => [(v, 65535)]
  | .appendVar v => [(v, 65535)]
  | .wramReq v => [(v, 65535)]
  | .wramReset v => [(v, 65535)]
  | .rregReq r c => [(r, 255), (c, 255)]
  | .rregResp r c => [(r, 255), (c, 255)]
  | .rregRead r c => [(r, 255), (c, 255)]
  | .rramReq v c => [(v, 65535), (c, 255)]
  | .rramResp v c => [(v, 65535), (c, 255)]
  | .rramRead v c => [(v, 65535), (c, 255)]
  | .wregWrite r ds => (r, 255) :: ds.map fun d => (d, 255)

/-- The text that a line carries, empty where it carries none (rule R96). -/
def asmText : AsmLine → List Byte
  | .appendText t => t
  | .appendTrunc _ t => t
  | _ => []

/-! ## Changing the latch alone, for the statement that only the matching receives read it (rule R38) -/

/-- The same state with another request latch. -/
def withLatch (v : Bool) (k : ReqKind) (a : Half) (c : Byte) (s : State) : State :=
  { s with reqValid := v, reqKind := k, reqAddr := a, reqCnt := c }

/-- Changing the state inside an answer. -/
def mapNext (f : State → State) : Host.Outcome State Fault Refusal → Host.Outcome State Fault Refusal
  | .next s => .next (f s)
  | .fault r => .fault r
  | .refused r => .refused r

/-! ## What the next move is (rule R7) -/

/-- FE's own move is the next one: it is FE's turn, or nothing is scheduled and no bounded wait is pending (log 8). -/
def feMoves (s : State) : Bool :=
  match s.script with
  | .fe :: _ => true
  | [] => !timeoutEnabled s
  | .timeout :: _ | .present _ :: _ | .arrive _ :: _ | .blockReset :: _ => false

/-- The next move is a block reset. -/
def resetMoves (s : State) : Bool := decide (s.script.head? = some .blockReset)

/-- The instruction the next move runs, if it runs one: the operation on the port of an FE that is not busy, or the
named wire command at the head of a queued body. -/
def nextInstr (s : State) : Option Instr :=
  if feMoves s then
    match s.rxst with
    | .idle =>
      match s.caller with
      | [] => none
      | op :: _ => (decode (.opw op.opw op.text)).toOption
    | .body => if bodyQueued s then frameCommand s else none
    | .huntA | .huntB | .len => none
  else none

/-! ## Invariants (rule R45) -/

/-- Rule R45, part by part, with the parts of the receive state machine that keep it. -/
structure FrameInv (s : State) : Prop where
  /-- The store of `BUF` is in canonical form and inside `BUF[0..254]` (rule R32). -/
  memory       : Memory.wf s.buf = true
  /-- R45 part 2. -/
  idleFresh    : s.mode = .idle → s.pos = 0 ∧ s.fend = 0 ∧ s.err = false
  /-- R45 part 3. -/
  txNoEnd      : s.mode = .tx → s.fend = 0
  /-- R45 part 3. -/
  txLength     : s.mode = .tx → 3 ≤ s.pos.toNat → bufByte s 2 = BitVec.ofNat 8 (s.pos.toNat - 3)
  /-- R45 part 4; `END <= CAP` holds by the width of `END`. -/
  rxCursor     : s.mode = .rx → s.pos.toNat ≤ s.fend.toNat
  /-- R45 part 5. -/
  errCode      : s.err = false ↔ s.ecode = .ok
  /-- R45 part 6. -/
  busyRx       : s.rxst ≠ .idle → s.mode = .rx
  /-- R45 part 7, in mode TX. -/
  txWritten    : s.mode = .tx → ∀ a, a < s.pos.toNat → isWritten s a = true
  /-- R45 part 7, in mode RX. -/
  rxWritten    : s.mode = .rx → s.err = false → ∀ a, a < s.fend.toNat → isWritten s a = true
  /-- A busy receive has cleared the cursor, the end and the error (rule R146). -/
  busyCleared  : s.rxst ≠ .idle → s.pos = 0 ∧ s.fend = 0 ∧ s.err = false
  /-- In R_LEN the header is in `BUF` (rule R148). -/
  lenWritten   : s.rxst = .len → isWritten s 0 = true ∧ isWritten s 1 = true
  /-- In R_BODY the header and the length are in `BUF`, and the length is legal (rule R149). -/
  bodyWritten  : s.rxst = .body →
    isWritten s 0 = true ∧ isWritten s 1 = true ∧ isWritten s 2 = true ∧ s.rxlen.toNat ≤ 252
  /-- A response check is pending only while a receive is (rules R146, R150, R152). -/
  checkPending : s.rxst = .idle → s.rchk = .none

/-- A state that some run from reset reaches, whatever the agents did: the turns and the caller's operations of the
first state are arbitrary. -/
inductive Reachable : State → Prop where
  | start (script : List Turn) (caller : List Operation) (rxq : List Byte) (par : Config.Params) :
      Reachable { State.reset with script := script, caller := caller, rxq := rxq, par := par }
  | step {s t : State} : Reachable s → Machine.step s = .next t → Reachable t

end Sys2Proof.Safety
end

