-- ==== Sys2Proof/Certificates/Slice0/Obligations.lean ====
section
/-! DEFINITION. The statements for the provers. Each docstring names the rule it formalises; "for every state" is meant
so, whatever a run can reach. -/

open Sys2Proof Sys2Proof.Machine Sys2Proof.Safety

/-! ## Encoding and decoding -/

/-- Decoding the encoding of a well-formed instruction gives it back, every operand at every value (rules R82, R83, R86,
R91). -/
def Obligations.DecodeEncodeRoundTrip : Prop :=
  ∀ i : Instr, i.wf = true → decode (encode i) = .ok i

/-- A code that decodes is the encoding of what it decodes to, and that is well-formed, so no two words mean the same;
only the text of an operation that reads none is free (rules R80, R82, R85). -/
def Obligations.EachCodeHasOneMeaning : Prop :=
  (∀ (w : OpWord) (t : List Byte) (i : Instr), decode (.opw w t) = .ok i →
    i.wf = true ∧ ∃ u, encode i = .opw w u ∧ ((opcOf w = 0x12 ∨ opcOf w = 0x13) → u = t)) ∧
  (∀ (c : Byte) (i : Instr), decode (.wire c) = .ok i → i.wf = true ∧ encode i = .wire c)

/-- Rule R85: an operation word is decoded by the row whose `OPW & mask = match`; no word is in two rows; no decoded
operation word is outside the rows (so none is a wire command); and a word in no row completes with ILLEGAL_OP, changing
nothing else but that it leaves the port. -/
def Obligations.DecodingFollowsTheTable : Prop :=
  (∀ (w : OpWord) (t : List Byte) (r : OpwRow), r ∈ opwRows → t.length ≤ 255 →
    (r.holds w = true ↔ ∃ i, decode (.opw w t) = .ok i ∧ mnemonicOf i = r.mnemonic)) ∧
  (∀ w : OpWord, opwRows.Pairwise fun r q => ¬(r.holds w = true ∧ q.holds w = true)) ∧
  (∀ (w : OpWord) (t : List Byte) (i : Instr), decode (.opw w t) = .ok i →
    ∃ r ∈ opwRows, r.holds w = true ∧ mnemonicOf i = r.mnemonic) ∧
  (∀ (s : State) (op : Operation) (rest : List Operation) (ts : List Turn), s.script = .fe :: ts → s.rxst = .idle →
    s.caller = op :: rest → (∀ r ∈ opwRows, r.holds op.opw = false) →
    step s = .next { s with script := ts, caller := rest, status := .illegalOp, data := 0 })

/-- Words written out from the tables of rules R86 and R91 decode to the instructions they stand for. -/
def Obligations.WrittenOutWordsDecode : Prop :=
  decode (.opw 0x020000A7#32 []) = .ok (.resetCmd 0xA7) ∧
  decode (.opw 0x11123400#32 []) = .ok (.appendU16 0x1234) ∧
  decode (.opw 0x13000004#32 [0x48, 0x69]) = .ok (.appendTrunc 4 [0x48, 0x69]) ∧
  decode (.opw 0x20000001#32 []) = .ok (.send true) ∧
  decode (.opw 0x41000203#32 []) = .ok (.rregReq 3 2) ∧
  decode (.opw 0x46100102#32 []) = .ok (.rramResp 0x1001 2) ∧
  decode (.wire 0x83#8) = .ok .wireReadRam ∧
  decode (.opw 0x41010203#32 []) = .error .reservedBits ∧
  decode (.opw 0x49000000#32 []) = .error .reservedOpcode

/-! ## The step -/

/-- A step runs the decoded operation: an FE that is not busy and has the move takes the operation on the port off the
port and runs what it decodes to (rules R72, R80, R81). -/
def Obligations.StepRunsThePresentedOperation : Prop :=
  ∀ (s : State) (op : Operation) (rest : List Operation) (i : Instr), s.rxst = .idle → s.caller = op :: rest →
    decode (.opw op.opw op.text) = .ok i →
    (∀ ts, s.script = .fe :: ts → step s = exec i { s with script := ts, caller := rest }) ∧
    (s.script = [] → step s = exec i { s with caller := rest })

/-- A step runs the decoded wire command: with a whole body queued whose first byte names a command, FE's move is that
command's meaning (rules R91, R149; the model's choice of log 9). -/
def Obligations.StepRunsTheWireCommand : Prop :=
  ∀ (s : State) (c : Byte) (q : List Byte) (i : Instr), s.rxst = .body → s.rxq = c :: q → 1 ≤ s.rxlen.toNat →
    s.rxlen.toNat ≤ s.rxq.length → decode (.wire c) = .ok i →
    (∀ ts, s.script = .fe :: ts → step s = exec i { s with script := ts }) ∧
    (s.script = [] → step s = exec i s)

/-- `withFetchWord` places an instruction of the opcode table where the next step runs it (the model's choice of
log 16). -/
def Obligations.PlacedInstructionRuns : Prop :=
  ∀ (s : State) (nbits w : Nat) (i : Instr), decodeTableWord nbits w = some i →
    (8 < nbits → step (s.withFetchWord nbits w) = exec i { s with rxst := .idle }) ∧
    (nbits ≤ 8 → step (s.withFetchWord nbits w) =
      exec i { s with mode := .rx, rxst := .body, rxlen := 1, rxq := BitVec.ofNat 8 w :: s.rxq })

/-- Rule R81: while BUSY no operation leaves the port; an operation that is no receive is complete in the step that
accepts it; a receive, unless refused, is busy after it. -/
def Obligations.PortAcceptsOnlyWhenNotBusy : Prop :=
  (∀ s t : State, busy s = true → step s = .next t →
    t.caller = s.caller ∨ ∃ op ts, s.script = .present op :: ts ∧ t.caller = s.caller ++ [op]) ∧
  (∀ (i : Instr) (s t : State), busy s = false → isReceive i = false → exec i s = .next t → busy t = false) ∧
  (∀ (i : Instr) (s t : State), busy s = false → isReceive i = true → exec i s = .next t →
    busy t = true ∧ t.status = s.status ∧ t.data = s.data ∨
    illegalHere s i = true ∧ t = { s with status := .illegalOp, data := 0 })

/-! ## Reset -/

/-- Rule R240: a block reset, in any state, gives every element the value of the rule, leaves no byte of `BUF` written,
and leaves the environment's streams as they are. -/
def Obligations.BlockResetEffect : Prop :=
  ∀ (s : State) (ts : List Turn), s.script = .blockReset :: ts →
    ∃ t, step s = .next t ∧
      (∀ a, isWritten t a = false) ∧ t.pos = 0 ∧ t.fend = 0 ∧ t.mode = .idle ∧ t.err = false ∧ t.ecode = .ok ∧
      t.reqValid = false ∧ t.rxst = .idle ∧ busy t = false ∧ t.rchk = .none ∧ t.status = .ok ∧ t.data = 0 ∧
      t.rxq = s.rxq ∧ t.txs = s.txs ∧ t.logs = s.logs

/-- Rules R240 and R241: the state after power-on, as far as the spec gives it. -/
def Obligations.PowerOnState : Prop :=
  (∀ a, isWritten State.reset a = false) ∧ State.reset.pos = 0 ∧ State.reset.fend = 0 ∧ State.reset.mode = .idle ∧
  State.reset.err = false ∧ State.reset.ecode = .ok ∧ State.reset.reqValid = false ∧ State.reset.rxst = .idle ∧
  State.reset.rchk = .none ∧ State.reset.status = .ok ∧ State.reset.data = 0 ∧ flags State.reset = 0 ∧
  State.reset.txs = [] ∧ State.reset.logs = []

/-- The invariant of rule R45 holds at reset, whatever the agents are about to do. -/
def Obligations.FrameInvAtReset : Prop :=
  ∀ (script : List Turn) (caller : List Operation) (rxq : List Byte) (par : Config.Params),
    FrameInv { State.reset with script := script, caller := caller, rxq := rxq, par := par }

/-- Every step keeps the invariant of rule R45 (file 10_state.md, section 7). -/
def Obligations.StepKeepsFrameInv : Prop :=
  ∀ s t : State, FrameInv s → step s = .next t → FrameInv t

/-- Rule R45: every reachable state satisfies its seven parts, part 7 in the form that the bytes were written since block
reset. -/
def Obligations.ReachableStatesSatisfyTheInvariants : Prop :=
  ∀ s : State, Reachable s →
    s.pos.toNat ≤ 255 ∧
    (s.mode = .idle → s.pos = 0 ∧ s.fend = 0 ∧ s.err = false) ∧
    (s.mode = .tx → s.fend = 0 ∧ (3 ≤ s.pos.toNat → (bufByte s 2).toNat = s.pos.toNat - 3)) ∧
    (s.mode = .rx → s.pos.toNat ≤ s.fend.toNat ∧ s.fend.toNat ≤ 255) ∧
    (s.err = false ↔ s.ecode = .ok) ∧
    (busy s = true → s.mode = .rx) ∧
    (s.mode = .tx → ∀ a, a < s.pos.toNat → isWritten s a = true) ∧
    (s.mode = .rx → s.err = false → ∀ a, a < s.fend.toNat → isWritten s a = true)

/-- FE has no trap (rule R210): from a state with the invariant every step has a next state, no fault and no
refusal. -/
def Obligations.InvariantStatesNeverStop : Prop :=
  ∀ s : State, FrameInv s → ∃ t, step s = .next t

/-! ## Frame reset -/

/-- `RESET` (rule R110), in every mode: what it writes, and nothing else. -/
def Obligations.ResetEffect : Prop :=
  ∀ s : State, exec .reset s =
    .next { s with pos := 0, fend := 0, mode := .idle, err := false, ecode := .ok, status := .ok, data := 0 }

/-- `RESET_CMD c` (rules R111, R112), in every mode: the four bytes, every other byte as before, the rest of the state
as the rule lists. -/
def Obligations.ResetCmdEffect : Prop :=
  ∀ (c : Byte) (s : State), ∃ t, exec (.resetCmd c) s = .next t ∧
    bufByte t 0 = 0x5A ∧ bufByte t 1 = 0xA5 ∧ bufByte t 2 = 0x01 ∧ bufByte t 3 = c ∧
    (∀ a, 4 ≤ a → bufByte t a = bufByte s a) ∧
    t = { s with buf := t.buf, pos := 4, fend := 0, mode := .tx, err := false, ecode := .ok, status := .ok, data := 0 }

/-! ## Append -/

/-- The seven appends complete (rules R121 to R128, R200): an append that fits writes its bytes at the cursor, moves the
cursor by their number, patches the length byte at offset 2 when the frame has one, and changes nothing else; every
other byte reads as before. -/
def Obligations.AppendWritesItsBytes : Prop :=
  ∀ (i : Instr) (bs : List Byte) (s : State), appendBytesOf i = some bs → i.wf = true → s.mode ≠ .rx →
    s.err = false → s.pos.toNat + bs.length ≤ 255 →
    ∃ t, exec i s = .next t ∧
      t.pos.toNat = s.pos.toNat + bs.length ∧
      (∀ (k : Nat) (h : k < bs.length), s.pos.toNat + k ≠ 2 → bufByte t (s.pos.toNat + k) = bs[k]) ∧
      (3 ≤ s.pos.toNat + bs.length → (bufByte t 2).toNat = s.pos.toNat + bs.length - 3) ∧
      (∀ a, (a < s.pos.toNat ∨ s.pos.toNat + bs.length ≤ a) → (a = 2 → s.pos.toNat + bs.length < 3) →
        bufByte t a = bufByte s a) ∧
      t = { s with buf := t.buf, pos := t.pos, mode := .tx, status := .ok, data := 0 }

/-- The appends that fail (rules R121, R213, R215), each with all it changes: in mode RX ILLEGAL_OP, with `ERR`
FRAME_UNUSABLE, past the capacity BUFFER_OVERFLOW, which makes the frame unusable and writes no byte. -/
def Obligations.AppendFailures : Prop :=
  ∀ (i : Instr) (bs : List Byte) (s : State), appendBytesOf i = some bs → i.wf = true →
    (s.mode = .rx → exec i s = .next { s with status := .illegalOp, data := 0 }) ∧
    (s.mode ≠ .rx → s.err = true → exec i s = .next { s with status := .frameUnusable, data := 0 }) ∧
    (s.mode ≠ .rx → s.err = false → 255 < s.pos.toNat + bs.length →
      exec i s = .next { s with mode := .tx, err := true, ecode := .bufferOverflow, status := .bufferOverflow, data := 0 })

/-- A text over 255 bytes is ILLEGAL_OP before anything else is looked at (rules R84, R125, R200, R215), and the decoder
refuses it by name. -/
def Obligations.LongTextIsIllegal : Prop :=
  ∀ (t : List Byte) (b : Byte) (s : State), 255 < t.length →
    exec (.appendText t) s = .next { s with status := .illegalOp, data := 0 } ∧
    exec (.appendTrunc b t) s = .next { s with status := .illegalOp, data := 0 } ∧
    decode (.opw 0x12000000#32 t) = .error .textTooLong ∧
    decode (encode (.appendTrunc b t)) = .error .textTooLong

/-- Rule R204: for `|T| > b` and a run that fits the cursor advances by exactly `b`, for `|T| <= b` by `|T|`; the bytes
appended are the first of the text. -/
def Obligations.TruncationLength : Prop :=
  ∀ (b : Byte) (t : List Byte) (s : State), t.length ≤ 255 → s.mode ≠ .rx → s.err = false →
    s.pos.toNat + min b.toNat t.length ≤ 255 →
    ∃ u, exec (.appendTrunc b t) s = .next u ∧ u.status = .ok ∧
      (b.toNat < t.length → u.pos.toNat = s.pos.toNat + b.toNat) ∧
      (t.length ≤ b.toNat → u.pos.toNat = s.pos.toNat + t.length) ∧
      (∀ (k : Nat) (h : k < t.length), k < b.toNat → s.pos.toNat + k ≠ 2 → bufByte u (s.pos.toNat + k) = t[k])

/-! ## Send and available -/

/-- `SEND` completes (rules R140, R142, R143): the bytes of `BUF[0 .. POS-1]` in offset order, the length byte finalised,
go to `TXS`, and to `LOGS` when logging is asked and present; only offset 2 of `BUF` can change. -/
def Obligations.SendPushesTheFrame : Prop :=
  ∀ (log : Bool) (s : State), s.mode = .tx → s.err = false → 4 ≤ s.pos.toNat →
    ∃ (t : State) (bs : List Byte), exec (.send log) s = .next t ∧ bs.length = s.pos.toNat ∧
      (∀ (k : Nat) (h : k < bs.length), k ≠ 2 → bs[k] = bufByte s k) ∧
      (∀ h : 2 < bs.length, bs[2].toNat = s.pos.toNat - 3) ∧
      (bufByte t 2).toNat = s.pos.toNat - 3 ∧ (∀ a, a ≠ 2 → bufByte t a = bufByte s a) ∧
      t = { s with
        buf := t.buf, txs := s.txs ++ bs,
        logs := if log && s.par.logPresent then s.logs ++ bs else s.logs, status := .ok, data := 0 }

/-- `SEND` refused, in the order of rule R215, with all it changes (rules R140, R213). -/
def Obligations.SendFailures : Prop :=
  ∀ (log : Bool) (s : State),
    (s.mode ≠ .tx → exec (.send log) s = .next { s with status := .illegalOp, data := 0 }) ∧
    (s.mode = .tx → s.err = true → exec (.send log) s = .next { s with status := .frameUnusable, data := 0 }) ∧
    (s.mode = .tx → s.err = false → s.pos.toNat < 4 →
      exec (.send log) s = .next { s with status := .incompleteFrame, data := 0 })

/-- Rule R141: what goes to `TXS` is what goes to `LOGS` when logging is asked and present, nothing goes to `LOGS`
otherwise, and a failed send pushes nothing to either. -/
def Obligations.LoggingMirrorsTheSend : Prop :=
  ∀ (log : Bool) (s t : State), exec (.send log) s = .next t →
    ∃ bs, t.txs = s.txs ++ bs ∧ t.logs = s.logs ++ (if log && s.par.logPresent then bs else []) ∧
      (t.status ≠ .ok → bs = []) ∧
      (∀ u, exec (.send (!log)) s = .next u → u = { t with logs := u.logs })

/-- `AVAILABLE n` (rule R145), in every mode and with any `ERR`: the answer in `DATA`, nothing else changed. -/
def Obligations.AvailableAnswers : Prop :=
  ∀ (n : Byte) (s : State), exec (.available n) s =
    .next { s with status := .ok, data := if n.toNat ≤ s.rxq.length then 1 else 0 }

/-! ## Receive -/

/-- The receives with no latch to consult start in every mode (rules R146, R153, R184, R190): the frame is discarded, the
check is pending, and `STATUS` and `DATA` keep their values. -/
def Obligations.ReceivesStart : Prop :=
  ∀ s : State,
    exec .receive s = .next { s with
      mode := .rx, err := false, ecode := .ok, pos := 0, fend := 0, rchk := .none, rxst := .huntA } ∧
    (∀ r c, exec (.rregResp r c) s = .next { s with
      mode := .rx, err := false, ecode := .ok, pos := 0, fend := 0, rchk := .reg r c, rxst := .huntA }) ∧
    (∀ v c, exec (.rramResp v c) s = .next { s with
      mode := .rx, err := false, ecode := .ok, pos := 0, fend := 0, rchk := .ram v c, rxst := .huntA })

/-- The matching receives (rules R185, R191): they start with the latched expectation, and are ILLEGAL_OP, changing
nothing else, when no request of their kind is latched. The latch is unchanged. -/
def Obligations.MatchingReceives : Prop :=
  ∀ s : State,
    (s.reqValid = true → s.reqKind = .reg → exec .rregRespMatch s = .next { s with
      mode := .rx, err := false, ecode := .ok, pos := 0, fend := 0,
      rchk := .reg (s.reqAddr.extractLsb' 0 8) s.reqCnt, rxst := .huntA }) ∧
    (s.reqValid = true → s.reqKind = .ram → exec .rramRespMatch s = .next { s with
      mode := .rx, err := false, ecode := .ok, pos := 0, fend := 0, rchk := .ram s.reqAddr s.reqCnt, rxst := .huntA }) ∧
    (s.reqValid = false ∨ s.reqKind ≠ .reg →
      exec .rregRespMatch s = .next { s with status := .illegalOp, data := 0 }) ∧
    (s.reqValid = false ∨ s.reqKind ≠ .ram →
      exec .rramRespMatch s = .next { s with status := .illegalOp, data := 0 })

/-- Rule R147: FE's move in R_HUNT_A pops one byte and looks for header byte A; without a byte it waits, and the timeout
does not apply. -/
def Obligations.HuntForHeaderA : Prop :=
  ∀ (s : State) (ts : List Turn), s.rxst = .huntA →
    (s.script = .fe :: ts →
      (∀ b q, s.rxq = b :: q →
        step s = .next { s with script := ts, rxq := q, rxst := if b = 0x5A then .huntB else .huntA }) ∧
      (s.rxq = [] → step s = .next { s with script := ts })) ∧
    (s.script = .timeout :: ts → step s = .next { s with script := ts }) ∧
    (s.script = [] → s.rxq = [] → step s = .next s)

/-- Rule R148: FE's move in R_HUNT_B: header byte B stores the header and goes to R_LEN, another header byte A is the new
candidate, any other byte is discarded with the candidate; without a byte FE waits, without bound. -/
def Obligations.HuntForHeaderB : Prop :=
  ∀ (s : State) (ts : List Turn), s.rxst = .huntB →
    (s.script = .fe :: ts →
      (∀ b q, s.rxq = b :: q →
        (b = 0xA5 → ∃ t, step s = .next t ∧ bufByte t 0 = 0x5A ∧ bufByte t 1 = 0xA5 ∧
          (∀ a, 2 ≤ a → bufByte t a = bufByte s a) ∧
          t = { s with buf := t.buf, script := ts, rxq := q, rxst := .len }) ∧
        (b = 0x5A → step s = .next { s with script := ts, rxq := q, rxst := .huntB }) ∧
        (b ≠ 0xA5 → b ≠ 0x5A → step s = .next { s with script := ts, rxq := q, rxst := .huntA })) ∧
      (s.rxq = [] → step s = .next { s with script := ts })) ∧
    (s.script = .timeout :: ts → step s = .next { s with script := ts }) ∧
    (s.script = [] → s.rxq = [] → step s = .next s)

/-- FE's move in R_LEN (rules R149, R150): the length byte is popped and stored at offset 2; up to 252 the body is awaited,
above it the receive fails with LENGTH_EXCEEDED and the body stays queued. That `RXLEN` keeps its value then is the model's
choice (log 20). -/
def Obligations.LengthStep : Prop :=
  ∀ (s : State) (ts : List Turn) (l : Byte) (q : List Byte), s.script = .fe :: ts → s.rxst = .len → s.rxq = l :: q →
    ∃ t, step s = .next t ∧ bufByte t 2 = l ∧ (∀ a, a ≠ 2 → bufByte t a = bufByte s a) ∧
      (l.toNat ≤ 252 → t = { s with buf := t.buf, script := ts, rxq := q, rxlen := l, rxst := .body }) ∧
      (252 < l.toNat → t = { s with
        buf := t.buf, script := ts, rxq := q, err := true, ecode := .lengthExceeded, pos := 0, fend := 0,
        rxst := .idle, rchk := .none, status := .lengthExceeded, data := 0 })

/-- FE's move in R_BODY with the body queued and no check pending (rules R149, R152): the body is popped in one step and
stored from offset 3 on, whatever its bytes, and the receive completes with OK. That `RXLEN` keeps its value is the model's
choice (log 20). -/
def Obligations.BodyStep : Prop :=
  ∀ (s : State) (ts : List Turn), s.script = .fe :: ts → s.rxst = .body → s.rchk = .none → s.rxlen.toNat ≤ 252 →
    s.rxlen.toNat ≤ s.rxq.length →
    ∃ t, step s = .next t ∧
      (∀ (k : Nat) (h : k < s.rxq.length), k < s.rxlen.toNat → bufByte t (3 + k) = s.rxq[k]) ∧
      (∀ a, (a < 3 ∨ 3 + s.rxlen.toNat ≤ a) → bufByte t a = bufByte s a) ∧
      t = { s with
        buf := t.buf, script := ts, rxq := s.rxq.drop s.rxlen.toNat, fend := BitVec.ofNat 8 (3 + s.rxlen.toNat),
        pos := 3, rxst := .idle, status := .ok, data := 0 }

/-- The named wire commands run the same body step: FE's move on a queued body is `rxBody`, whether its command byte is one
of the five named ones, another, or missing (rules R91, R149; the rows' meaning is the model's, log 9). What the step does,
whatever the bytes are, BodyStep says. -/
def Obligations.BodyStepWhateverTheCommand : Prop :=
  ∀ (s : State) (ts : List Turn), s.script = .fe :: ts → s.rxst = .body → s.rxlen.toNat ≤ s.rxq.length →
    step s = rxBody { s with script := ts }

/-- The timeout (rule R151): when the timeout source fires in R_LEN or R_BODY with the bytes missing, the receive fails with
TIMEOUT and every queued byte stays; in every other state nothing happens; and FE's own move in such a wait changes nothing.
That `RXLEN` keeps its value is the model's choice (log 20). -/
def Obligations.TimeoutStep : Prop :=
  ∀ (s : State) (ts : List Turn),
    ((s.rxst = .len ∧ s.rxq = [] ∨ s.rxst = .body ∧ s.rxq.length < s.rxlen.toNat) →
      (s.script = .timeout :: ts → step s = .next { s with
        script := ts, err := true, ecode := .timeout, pos := 0, fend := 0, rxst := .idle, rchk := .none,
        status := .timeout, data := 0 }) ∧
      (s.script = .fe :: ts → step s = .next { s with script := ts })) ∧
    (¬(s.rxst = .len ∧ s.rxq = [] ∨ s.rxst = .body ∧ s.rxq.length < s.rxlen.toNat) →
      s.script = .timeout :: ts → step s = .next { s with script := ts })

/-- Weak fairness (rule R151; the model's choice of log 8): when nothing more is scheduled, a wait in R_LEN or R_BODY that
its bytes do not satisfy ends with TIMEOUT. That `RXLEN` keeps its value is the model's choice (log 20). -/
def Obligations.UnsatisfiedWaitTimesOut : Prop :=
  ∀ s : State, s.script = [] → (s.rxst = .len ∧ s.rxq = [] ∨ s.rxst = .body ∧ s.rxq.length < s.rxlen.toNat) →
    step s = .next { s with
      err := true, ecode := .timeout, pos := 0, fend := 0, rxst := .idle, rchk := .none, status := .timeout, data := 0 }

/-- `check_reg(r, c)` (rule R186): a complete frame is accepted exactly when its body is a read-register response of rule
R93 for `r` and `c` with all its `c` data bytes, perhaps with more bytes after them; then the cursor is at the first data
byte, and otherwise the receive ends with RESPONSE_MISMATCH. That `RXLEN` keeps its value is the model's choice (log 20). -/
def Obligations.RegisterResponseCheck : Prop :=
  ∀ (r c : Byte) (s : State) (ts : List Turn), s.script = .fe :: ts → s.rxst = .body → s.rchk = .reg r c →
    s.rxlen.toNat ≤ 252 → s.rxlen.toNat ≤ s.rxq.length →
    ∃ t, step s = .next t ∧
      ((∃ data extra, data.length = c.toNat ∧ s.rxq.take s.rxlen.toNat =
          0x81 :: (shapePayload s.par.countBytes (.readRegisterResponse r c data) ++ extra)) →
        t = { s with
          buf := t.buf, script := ts, rxq := s.rxq.drop s.rxlen.toNat, fend := BitVec.ofNat 8 (3 + s.rxlen.toNat),
          pos := BitVec.ofNat 8 (5 + countWidth s.par.countBytes), rxst := .idle, rchk := .none,
          status := .ok, data := 0 }) ∧
      ((¬∃ data extra, data.length = c.toNat ∧ s.rxq.take s.rxlen.toNat =
          0x81 :: (shapePayload s.par.countBytes (.readRegisterResponse r c data) ++ extra)) →
        t = { s with
          buf := t.buf, script := ts, rxq := s.rxq.drop s.rxlen.toNat, fend := BitVec.ofNat 8 (3 + s.rxlen.toNat),
          pos := 3, rxst := .idle, rchk := .none, err := true, ecode := .responseMismatch,
          status := .responseMismatch, data := 0 }) ∧
      (∀ (k : Nat) (h : k < s.rxq.length), k < s.rxlen.toNat → bufByte t (3 + k) = s.rxq[k]) ∧
      (∀ a, (a < 3 ∨ 3 + s.rxlen.toNat ≤ a) → bufByte t a = bufByte s a)

/-- `check_ram(v, c)` (rule R192): a complete frame is accepted exactly when its body is a read-ram response of rule R93 for
`v` and `c` with all its `c` words, perhaps with more bytes after them. That `RXLEN` keeps its value is the model's choice
(log 20). -/
def Obligations.RamResponseCheck : Prop :=
  ∀ (v : Half) (c : Byte) (s : State) (ts : List Turn), s.script = .fe :: ts → s.rxst = .body → s.rchk = .ram v c →
    s.rxlen.toNat ≤ 252 → s.rxlen.toNat ≤ s.rxq.length →
    ∃ t, step s = .next t ∧
      ((∃ words extra, words.length = c.toNat ∧ s.rxq.take s.rxlen.toNat =
          0x83 :: (shapePayload s.par.countBytes (.readRamResponse v c words) ++ extra)) →
        t = { s with
          buf := t.buf, script := ts, rxq := s.rxq.drop s.rxlen.toNat, fend := BitVec.ofNat 8 (3 + s.rxlen.toNat),
          pos := BitVec.ofNat 8 (6 + countWidth s.par.countBytes), rxst := .idle, rchk := .none,
          status := .ok, data := 0 }) ∧
      ((¬∃ words extra, words.length = c.toNat ∧ s.rxq.take s.rxlen.toNat =
          0x83 :: (shapePayload s.par.countBytes (.readRamResponse v c words) ++ extra)) →
        t = { s with
          buf := t.buf, script := ts, rxq := s.rxq.drop s.rxlen.toNat, fend := BitVec.ofNat 8 (3 + s.rxlen.toNat),
          pos := 3, rxst := .idle, rchk := .none, err := true, ecode := .responseMismatch,
          status := .responseMismatch, data := 0 }) ∧
      (∀ (k : Nat) (h : k < s.rxq.length), k < s.rxlen.toNat → bufByte t (3 + k) = s.rxq[k]) ∧
      (∀ a, (a < 3 ∨ 3 + s.rxlen.toNat ≤ a) → bufByte t a = bufByte s a)

/-- The header hunt finds the frame (rules R94, R147 to R149, R154): any number of stray bytes that hold no header is
discarded, and the frame after them is received at offsets 0 on, whatever its bytes, in one step for each byte examined and
one for the body, leaving the bytes after it queued. That `RXLEN` keeps its value is the model's choice (log 20). -/
def Obligations.ReceiveFindsTheFrame : Prop :=
  ∀ (s : State) (stray body rest : List Byte) (l : Byte), s.script = [] → s.rxst = .huntA → s.rchk = .none →
    ¬([0x5A, 0xA5] <:+: stray) → l.toNat ≤ 252 → body.length = l.toNat →
    s.rxq = stray ++ [0x5A, 0xA5, l] ++ body ++ rest →
    ∃ t, Host.Core.run core (stray.length + 4) s = .next t ∧
      bufByte t 0 = 0x5A ∧ bufByte t 1 = 0xA5 ∧ bufByte t 2 = l ∧
      (∀ (k : Nat) (h : k < body.length), bufByte t (3 + k) = body[k]) ∧
      (∀ a, 3 + l.toNat ≤ a → bufByte t a = bufByte s a) ∧
      t = { s with
        buf := t.buf, rxq := rest, rxlen := l, fend := BitVec.ofNat 8 (3 + l.toNat), pos := 3, rxst := .idle,
        status := .ok, data := 0 }

/-- Rule R129: a value appended last to a frame that begins with the header, sent, carried byte for byte into a receiver's
queue and received, is the value extracted there with the cursor at the offset the append wrote. -/
def Obligations.AppendedValueComesBack : Prop :=
  ∀ (i j : Instr) (bs : List Byte) (s r : State), appendBytesOf i = some bs → i.wf = true →
    extractWidthOf j = some bs.length → s.mode ≠ .rx → s.err = false → 4 ≤ s.pos.toNat →
    s.pos.toNat + bs.length ≤ 255 → bufByte s 0 = 0x5A → bufByte s 1 = 0xA5 → r.script = [] → r.rxst = .idle →
    ∃ s1 s2 frame r1 r2, exec i s = .next s1 ∧ exec (.send false) s1 = .next s2 ∧ s2.txs = s1.txs ++ frame ∧
      exec .receive { r with rxq := frame } = .next r1 ∧ Host.Core.run core 4 r1 = .next r2 ∧ r2.status = .ok ∧
      ∃ e, exec j { r2 with pos := s.pos } = .next e ∧ e.status = .ok ∧
        e.data = match bs with
          | [b] => b.setWidth 16
          | [hi, lo] => hi ++ lo
          | _ => 0

/-! ## The wire command rows -/

/-- The wire commands complete (rules R91, R92, R93, R149, R152; the model's choice of log 9): a queued body led by the
command byte is taken in, the command at offset 3, with the pending check if any; every other byte and field as before. That
`RXLEN` keeps its value is the model's choice (log 20). -/
def Obligations.WireCommandTakesTheFrameIn : Prop :=
  ∀ (i : Instr) (c : Byte) (s : State), wireCommandOf i = some c → s.rxst = .body → s.rxq.head? = some c →
    1 ≤ s.rxlen.toNat → s.rxlen.toNat ≤ 252 → s.rxlen.toNat ≤ s.rxq.length →
    ∃ t, exec i s = .next t ∧ bufByte t 3 = c ∧
      (∀ (k : Nat) (h : k < s.rxq.length), k < s.rxlen.toNat → bufByte t (3 + k) = s.rxq[k]) ∧
      (∀ a, (a < 3 ∨ 3 + s.rxlen.toNat ≤ a) → bufByte t a = bufByte s a) ∧
      t = { s with
        buf := t.buf, rxq := s.rxq.drop s.rxlen.toNat, fend := BitVec.ofNat 8 (3 + s.rxlen.toNat), pos := t.pos,
        rxst := .idle, rchk := .none, err := t.err, ecode := t.ecode, status := t.status, data := 0 } ∧
      (s.rchk = .none → t.status = .ok ∧ t.pos = 3 ∧ t.err = s.err ∧ t.ecode = s.ecode) ∧
      (t.status = .ok ∧ t.err = s.err ∧ t.ecode = s.ecode ∨
        s.rchk ≠ .none ∧ t.status = .responseMismatch ∧ t.pos = 3 ∧ t.err = true ∧ t.ecode = .responseMismatch)

/-- A wire command byte anywhere else is no operation word (rule R85; the model's choice of log 9): a busy FE accepts
nothing, an idle one completes with ILLEGAL_OP. -/
def Obligations.WireCommandIsNoOperationWord : Prop :=
  (∀ (i : Instr) (c : Byte) (s : State), wireCommandOf i = some c → frameLedBy c s = false →
    (busy s = true → exec i s = .next s) ∧
    (busy s = false → exec i s = .next { s with status := .illegalOp, data := 0 })) ∧
  (∀ (w : OpWord) (t : List Byte) (i : Instr), decode (.opw w t) = .ok i → wireCommandOf i = none)

/-! ## Extract -/

/-- The six extracts complete (rules R160 to R167): the value at the cursor, one byte zero-extended or two bytes
big-endian, the cursor after it, nothing else changed; no byte of `BUF` is written. -/
def Obligations.ExtractReadsTheField : Prop :=
  ∀ (i : Instr) (w : Nat) (s : State), extractWidthOf i = some w → s.mode = .rx → s.err = false →
    s.pos.toNat + w ≤ s.fend.toNat →
    exec i s = .next { s with
      pos := BitVec.ofNat 8 (s.pos.toNat + w), status := .ok,
      data := if w = 1 then (bufByte s s.pos.toNat).setWidth 16
              else bufByte s s.pos.toNat ++ bufByte s (s.pos.toNat + 1) }

/-- The extracts that fail (rules R161, R213, R215), each with all it changes. -/
def Obligations.ExtractFailures : Prop :=
  ∀ (i : Instr) (w : Nat) (s : State), extractWidthOf i = some w →
    (s.mode ≠ .rx → exec i s = .next { s with status := .illegalOp, data := 0 }) ∧
    (s.mode = .rx → s.err = true → exec i s = .next { s with status := .frameUnusable, data := 0 }) ∧
    (s.mode = .rx → s.err = false → s.fend.toNat < s.pos.toNat + w →
      exec i s = .next { s with err := true, ecode := .extractUnderrun, status := .extractUnderrun, data := 0 })

/-! ## Request builders and the latch -/

/-- The five request builders complete in every state (rules R181 to R183, R187, R189, R193): the buffer starts with the
wire frame of rule R93, the cursor is after it, every other byte is as before, and only the two read requests write the
latch. -/
def Obligations.RequestBuilders : Prop :=
  ∀ (i : Instr) (f : FrameShape) (s : State), requestOf i = some f →
    ∃ t, exec i s = .next t ∧
      t.pos.toNat = (shapeFrame s.par.countBytes f).length ∧
      (∀ (k : Nat) (h : k < (shapeFrame s.par.countBytes f).length),
        bufByte t k = (shapeFrame s.par.countBytes f)[k]) ∧
      (∀ a, (shapeFrame s.par.countBytes f).length ≤ a → bufByte t a = bufByte s a) ∧
      (latchOf i = none → t = { s with
        buf := t.buf, pos := t.pos, fend := 0, mode := .tx, err := false, ecode := .ok, status := .ok, data := 0 }) ∧
      (∀ k a c, latchOf i = some (k, a, c) → t = { s with
        buf := t.buf, pos := t.pos, fend := 0, mode := .tx, err := false, ecode := .ok,
        reqValid := true, reqKind := k, reqAddr := a, reqCnt := c, status := .ok, data := 0 })

/-- What a built request sends (rules R93, R140, R180): `SEND` right after a builder puts exactly the frame of rule R93 on
the wire. -/
def Obligations.BuiltRequestOnTheWire : Prop :=
  ∀ (i : Instr) (f : FrameShape) (log : Bool) (s : State), requestOf i = some f →
    ∃ t u, exec i s = .next t ∧ exec (.send log) t = .next u ∧ u.status = .ok ∧
      u.txs = s.txs ++ shapeFrame s.par.countBytes f

/-- Only the read requests and a block reset write the latch (rules R38, R242, R253): a step that runs neither leaves it
as it was, and one that runs a read request puts that request in it. -/
def Obligations.LatchWrittenOnlyByReadRequests : Prop :=
  ∀ s t : State, step s = .next t → resetMoves s = false →
    ((∀ i, nextInstr s = some i → latchOf i = none) →
      t.reqValid = s.reqValid ∧ t.reqKind = s.reqKind ∧ t.reqAddr = s.reqAddr ∧ t.reqCnt = s.reqCnt) ∧
    (∀ i k a c, nextInstr s = some i → latchOf i = some (k, a, c) →
      t.reqValid = true ∧ t.reqKind = k ∧ t.reqAddr = a ∧ t.reqCnt = c)

/-- Only the matching receives read the latch (rule R38): any other operation that does not write it does the same
whatever it holds. -/
def Obligations.LatchReadOnlyByMatchingReceives : Prop :=
  ∀ (i : Instr) (s : State) (v : Bool) (k : ReqKind) (a : Half) (c : Byte), i ≠ .rregRespMatch → i ≠ .rramRespMatch →
    latchOf i = none → exec i (withLatch v k a c s) = mapNext (withLatch v k a c) (exec i s)

/-! ## Whole-machine rules -/

/-- `ERR` is cleared only by an operation that starts a new frame, or by a block reset (rules R36, R218). -/
def Obligations.ErrorClearedOnlyByANewFrame : Prop :=
  ∀ s t : State, step s = .next t → s.err = true → t.err = false →
    resetMoves s = true ∨ ∃ i, nextInstr s = some i ∧ startsFrame i = true

/-- `ECODE` keeps the first failure of the frame (rule R37): while `ERR` stays set, it does not change. -/
def Obligations.FirstFailureIsKept : Prop :=
  ∀ s t : State, FrameInv s → step s = .next t → s.err = true → t.err = true → t.ecode = s.ecode

/-- HEADER_MISMATCH is never reported (rules R154, R211): no step writes it to `STATUS` or `ECODE`. -/
def Obligations.HeaderMismatchNeverReported : Prop :=
  ∀ s t : State, step s = .next t →
    (s.status ≠ .headerMismatch → t.status ≠ .headerMismatch) ∧
    (s.ecode ≠ .headerMismatch → t.ecode ≠ .headerMismatch)

/-- Rules R44, R64, R251: the transmitted and logged streams only grow at their ends, and the receive queue only loses bytes
from its front, or gains bytes at its end when the environment appends. The environment's turn appends its bytes and changes
nothing else; the caller's turn presents its operation and changes nothing else (the turns are the model's, logs 6, 7). -/
def Obligations.StreamsOnlyGrow : Prop :=
  (∀ s t : State, step s = .next t →
    s.txs <+: t.txs ∧ s.logs <+: t.logs ∧
    ((∃ n, t.rxq = s.rxq.drop n) ∨ ∃ bs ts, s.script = .arrive bs :: ts ∧ t.rxq = s.rxq ++ bs)) ∧
  (∀ (s : State) (bs : List Byte) (ts : List Turn), s.script = .arrive bs :: ts →
    step s = .next { s with script := ts, rxq := s.rxq ++ bs }) ∧
  (∀ (s : State) (op : Operation) (ts : List Turn), s.script = .present op :: ts →
    step s = .next { s with script := ts, caller := s.caller ++ [op] })

/-- Only `SEND` reaches the transmit stream and the log stream (rules R60, R65). -/
def Obligations.OnlySendTransmits : Prop :=
  ∀ s t : State, step s = .next t → (t.txs ≠ s.txs ∨ t.logs ≠ s.logs) → ∃ log, nextInstr s = some (.send log)

/-- No step changes an implementation parameter (rule R8; log 5). -/
def Obligations.ParametersNeverChange : Prop :=
  ∀ s t : State, step s = .next t → t.par = s.par

/-- Rule R214: an operation that completes with ILLEGAL_OP changes nothing but `STATUS` and `DATA`, and so does an operation
word that decodes to no operation. -/
def Obligations.IllegalOpChangesNothingElse : Prop :=
  (∀ (i : Instr) (s t : State), s.status ≠ .illegalOp → exec i s = .next t → t.status = .illegalOp →
    statusPort t = 8 ∧ t = { s with status := .illegalOp, data := 0 }) ∧
  (∀ (w : OpWord) (x : List Byte) (e : DecodeError) (s : State), decode (.opw w x) = .error e →
    runCode (.opw w x) s = .next { s with status := .illegalOp, data := 0 })

/-- Rule R213: while `ERR` is 1, an append, a send or an extract in its mode completes with FRAME_UNUSABLE and writes
nothing else; an operation that starts a new frame is not refused, and clears `ERR`. -/
def Obligations.UnusableFrameIsRefused : Prop :=
  ∀ (i : Instr) (s : State), s.err = true →
    (((∃ bs, appendBytesOf i = some bs ∧ i.wf = true) ∧ s.mode ≠ .rx ∨ (∃ log, i = .send log) ∧ s.mode = .tx ∨
        (∃ w, extractWidthOf i = some w) ∧ s.mode = .rx) →
      exec i s = .next { s with status := .frameUnusable, data := 0 }) ∧
    (startsFrame i = true → illegalHere s i = false →
      ∃ t, exec i s = .next t ∧ t.err = false ∧ t.ecode = .ok ∧ (t.status = .ok ∨ busy t = true))

/-- Rule R87: a well-formed operation completes with ILLEGAL_OP exactly where the mode table says so, then changing
nothing but `STATUS` and `DATA`; an append in mode IDLE enters TX (with `ERR` 0, as part 2 of R45 has it there). -/
def Obligations.ModeTable : Prop :=
  ∀ (i : Instr) (s : State), i.wf = true → wireCommandOf i = none → s.status ≠ .illegalOp →
    ∃ t, exec i s = .next t ∧ (t.status = .illegalOp ↔ illegalHere s i = true) ∧
      (illegalHere s i = true → t = { s with status := .illegalOp, data := 0 }) ∧
      (∀ bs, appendBytesOf i = some bs → s.mode = .idle → s.err = false → t.mode = .tx)

/-- Failures of appends, sends and extracts are precise (rule R217): they leave `BUF`, `POS` and the streams as they
were. -/
def Obligations.FailuresArePrecise : Prop :=
  ∀ (i : Instr) (s t : State),
    ((∃ bs, appendBytesOf i = some bs) ∨ (∃ log, i = .send log) ∨ ∃ w, extractWidthOf i = some w) →
    exec i s = .next t → t.status ≠ .ok →
    t = { s with mode := t.mode, err := t.err, ecode := t.ecode, status := t.status, data := 0 } ∧
    (t.mode = s.mode ∨ s.mode = .idle ∧ t.mode = .tx)

/-! ## Ports, byte order, assembler -/

/-- Rule R41: the fields of `FLAGS`, `CURSOR` and `FEND`; with the codes of rule R211 spelled out, and the ports `STATUS` and
`DATA` of rule R43. -/
def Obligations.FlagsLayout : Prop :=
  ∀ s : State,
    (flags s).extractLsb' 0 2 = (match s.mode with | .idle => 0 | .tx => 1 | .rx => 2) ∧
    (flags s).getLsbD 2 = s.err ∧
    (flags s).extractLsb' 3 4 = (match s.ecode with
      | .ok => 0 | .bufferOverflow => 1 | .headerMismatch => 2 | .timeout => 3 | .responseMismatch => 4
      | .lengthExceeded => 5 | .extractUnderrun => 6 | .incompleteFrame => 7 | .illegalOp => 8 | .frameUnusable => 9) ∧
    (flags s).getLsbD 7 = s.reqValid ∧
    (flags s).getLsbD 8 = (s.reqValid && decide (s.reqKind = .ram)) ∧
    (flags s).getLsbD 9 = decide (s.rxst ≠ .idle) ∧
    (flags s).extractLsb' 10 6 = 0 ∧
    cursorPort s = s.pos ∧ fendPort s = s.fend ∧
    statusPort s = (match s.status with
      | .ok => 0 | .bufferOverflow => 1 | .headerMismatch => 2 | .timeout => 3 | .responseMismatch => 4
      | .lengthExceeded => 5 | .extractUnderrun => 6 | .incompleteFrame => 7 | .illegalOp => 8 | .frameUnusable => 9) ∧
    dataPort s = s.data

/-- The debug port (rule R42): when present it reads `BUF`, and 0 at address 255; without `DEBUG_ACCESS` there is no port. The
last clause is the model's choice (log 1): a byte not written since block reset reads as one free value for that reset and
offset, which nothing constrains. -/
def Obligations.DebugPortReads : Prop :=
  ∀ (s : State) (a : Byte),
    (s.par.debugAccess = true → a.toNat ≤ 254 → debugPort s a = some (bufByte s a.toNat)) ∧
    (s.par.debugAccess = true → a = 255 → debugPort s a = some 0) ∧
    (s.par.debugAccess = false → debugPort s a = none) ∧
    (isWritten s a.toNat = false → bufByte s a.toNat = Config.unwrittenByte s.resets a.toNat)

/-- Rule R12: the multi-byte helpers, big-endian, at both count widths. -/
def Obligations.BigEndianHelpers : Prop :=
  (∀ v : Half, be16 v = [v.extractLsb' 8 8, v.extractLsb' 0 8]) ∧
  (∀ hi lo : Byte, (fromBe16 hi lo).toNat = hi.toNat * 256 + lo.toNat) ∧
  (∀ v : Half, fromBe16 (v.extractLsb' 8 8) (v.extractLsb' 0 8) = v) ∧
  (∀ c : Byte, encCnt .one c = [c] ∧ encCnt .two c = [0x00, c]) ∧
  (∀ b : Byte, decCnt [b] = b.toNat) ∧ (∀ hi lo : Byte, decCnt [hi, lo] = hi.toNat * 256 + lo.toNat)

/-- The assembler (rules R84, R96, R97; the lines as data, log 18): each line of R96 is its operation, `send` without and
`send log` with the bit `OPW[0]`; each pseudo-operation of R97 is its expansion; a number outside its field is an assembly
error, in whatever line it stands. The model's choices: a text over 255 bytes is an assembly error, so what a line assembles to
is well-formed (log 21), and a `wreg.write` may carry no data (log 22). -/
def Obligations.AssemblerLines : Prop :=
  (∀ i l, asmLineOf i = some l → i.wf = true → assemble l = some [i]) ∧
  (encode (.send false) = .opw 0x20000000 [] ∧ encode (.send true) = .opw 0x20000001 []) ∧
  (assemble (.available none) = some [.available 3]) ∧
  (∀ v, assemble (.wramReset v) = assemble (.wramReq v)) ∧
  (∀ (r : Byte) (ds : List Byte), assemble (.wregWrite r.toNat (ds.map fun d => (d.toNat : Int))) =
    some ([.wregReq r] ++ ds.map (fun d => .appendU8 d) ++ [.send false])) ∧
  (∀ (r c : Byte), assemble (.rregRead r.toNat c.toNat) = some [.rregReq r c, .send false, .rregRespMatch]) ∧
  (∀ (v : Half) (c : Byte), assemble (.rramRead v.toNat c.toNat) = some [.rramReq v c, .send false, .rramRespMatch]) ∧
  (∀ l, (∃ p ∈ literalsOf l, p.1 < 0 ∨ p.2 < p.1) → assemble l = none) ∧
  (∀ l, 255 < (asmText l).length → assemble l = none) ∧
  (∀ l, (∀ p ∈ literalsOf l, 0 ≤ p.1 ∧ p.1 ≤ p.2) → (asmText l).length ≤ 255 → (assemble l).isSome = true) ∧
  (∀ l is, assemble l = some is → ∀ i ∈ is, i.wf = true ∧ wireCommandOf i = none)
end

