-- ==== Sys2Proof/Laws/Decode.lean ====
section
/-! SUPPORT. The fields of an operation word, read from a packed word, and the table rows over packed words (rules R82,
R83, R85). -/

namespace Sys2Proof

theorem opcOf_packWord (o : Byte) (a : Half) (b : Byte) : opcOf (packWord o a b) = o := by
  apply BitVec.eq_of_getLsbD_eq
  intro i hi
  simp only [opcOf, packWord, BitVec.getLsbD_extractLsb', BitVec.getLsbD_append, hi, decide_true, Bool.true_and]
  rw [if_neg (by omega), if_neg (by omega)]
  congr 1
  omega

theorem aOf_packWord (o : Byte) (a : Half) (b : Byte) : aOf (packWord o a b) = a := by
  apply BitVec.eq_of_getLsbD_eq
  intro i hi
  simp only [aOf, packWord, BitVec.getLsbD_extractLsb', BitVec.getLsbD_append, hi, decide_true, Bool.true_and]
  rw [if_neg (by omega), if_pos (by omega)]
  congr 1
  omega

theorem bOf_packWord (o : Byte) (a : Half) (b : Byte) : bOf (packWord o a b) = b := by
  apply BitVec.eq_of_getLsbD_eq
  intro i hi
  simp only [bOf, packWord, BitVec.getLsbD_extractLsb', BitVec.getLsbD_append, hi, decide_true, Bool.true_and]
  rw [if_pos (by omega)]
  congr 1
  omega

/-- A word is its three fields (rule R82). -/
theorem packWord_fields (w : OpWord) : packWord (opcOf w) (aOf w) (bOf w) = w := by
  apply BitVec.eq_of_getLsbD_eq
  intro i hi
  simp only [opcOf, aOf, bOf, packWord, BitVec.getLsbD_extractLsb', BitVec.getLsbD_append]
  by_cases h1 : i < 8
  · simp [h1]
  · by_cases h2 : i - 8 < 16
    · have e : 8 + (i - 8) = i := by omega
      simp [h1, h2, e]
    · have e : 24 + (i - 8 - 16) = i := by omega
      have h3 : i - 8 - 16 < 8 := by omega
      simp [h1, h2, h3, e]

theorem packWord_inj {o o' : Byte} {a a' : Half} {b b' : Byte} :
    packWord o a b = packWord o' a' b' ↔ o = o' ∧ a = a' ∧ b = b' := by
  constructor
  · intro h
    refine ⟨?_, ?_, ?_⟩
    · rw [← opcOf_packWord o a b, h, opcOf_packWord]
    · rw [← aOf_packWord o a b, h, aOf_packWord]
    · rw [← bOf_packWord o a b, h, bOf_packWord]
  · rintro ⟨rfl, rfl, rfl⟩; rfl

/-- Masking a packed word masks its fields, so a row of the table is a condition on each field (rule R85). -/
theorem packWord_and (o o' : Byte) (a a' : Half) (b b' : Byte) :
    packWord o a b &&& packWord o' a' b' = packWord (o &&& o') (a &&& a') (b &&& b') := by
  apply BitVec.eq_of_getLsbD_eq
  intro i hi
  simp only [packWord, BitVec.getLsbD_and, BitVec.getLsbD_append]
  split_ifs <;> rfl

/-- The count of a register read is the low byte of `A` (rule R83). -/
theorem regCountOf_eq (w : OpWord) : regCountOf w = (aOf w).extractLsb' 0 8 := by
  apply BitVec.eq_of_getLsbD_eq
  intro i hi
  simp only [regCountOf, aOf, BitVec.getLsbD_extractLsb', hi, decide_true, Bool.true_and]
  have h : 0 + i < 16 := by omega
  simp only [h, decide_true, Bool.true_and]
  congr 1
  omega

/-- The reserved byte of a register read is the high byte of `A` (rules R83, R85). -/
theorem reservedByte_eq (w : OpWord) : w.extractLsb' 16 8 = (aOf w).extractLsb' 8 8 := by
  apply BitVec.eq_of_getLsbD_eq
  intro i hi
  simp only [aOf, BitVec.getLsbD_extractLsb', hi, decide_true, Bool.true_and]
  have h : 8 + i < 16 := by omega
  simp only [h, decide_true, Bool.true_and]
  congr 1
  omega

end Sys2Proof
end

