-- ==== Sys2Proof/Laws/Memory.lean ====
section
/-! SUPPORT. Laws of the buffer: read after write, what a write leaves alone, and that writes keep the canonical form. -/

namespace Sys2Proof.Machine

@[simp] theorem config_cap : Config.cap = 255 := rfl
@[simp] theorem config_maxLen : Config.maxLen = 252 := rfl
@[simp] theorem config_lenOff : Config.lenOff = 2 := rfl
@[simp] theorem config_cmdOff : Config.cmdOff = 3 := rfl
@[simp] theorem config_payOff : Config.payOff = 4 := rfl

/-! ## One byte -/

@[simp] theorem lookup_nil (a : Nat) : Memory.lookup [] a = none := rfl

theorem lookup_insert (m : Memory) (a : Nat) (b : Byte) (x : Nat) :
    Memory.lookup (Memory.insert m a b) x = if x = a then some b else Memory.lookup m x := by
  induction m with
  | nil =>
    simp only [Memory.insert, Memory.lookup]
    by_cases h : x = a
    · rw [if_pos h, if_pos h.symm]
    · rw [if_neg h, if_neg (Ne.symm h)]
  | cons c m ih =>
    obtain ⟨k, v⟩ := c
    simp only [Memory.insert]
    by_cases hx : x = a
    · subst hx
      rw [if_pos rfl] at ih ⊢
      split_ifs with h1 h2
      · simp [Memory.lookup]
      · simp [Memory.lookup]
      · simp [Memory.lookup, ih, Ne.symm h2]
    · rw [if_neg hx] at ih ⊢
      split_ifs with h1 h2
      · simp [Memory.lookup, Ne.symm hx]
      · subst h2; simp [Memory.lookup, Ne.symm hx]
      · simp [Memory.lookup, ih]

theorem lookup_insert_same (m : Memory) (a : Nat) (b : Byte) :
    Memory.lookup (Memory.insert m a b) a = some b := by simp [lookup_insert]

theorem lookup_insert_other (m : Memory) {a x : Nat} (b : Byte) (h : x ≠ a) :
    Memory.lookup (Memory.insert m a b) x = Memory.lookup m x := by simp [lookup_insert, h]

/-! ## A run of bytes -/

theorem lookup_insertAll_outside (bs : List Byte) (m : Memory) (a x : Nat) (h : x < a ∨ a + bs.length ≤ x) :
    Memory.lookup (Memory.insertAll m a bs) x = Memory.lookup m x := by
  induction bs generalizing m a with
  | nil => rfl
  | cons b bs ih =>
    simp only [List.length_cons] at h
    rw [Memory.insertAll, ih _ _ (by omega), lookup_insert_other _ _ (by omega)]

theorem lookup_insertAll_inside (bs : List Byte) (m : Memory) (a k : Nat) (h : k < bs.length) :
    Memory.lookup (Memory.insertAll m a bs) (a + k) = some bs[k] := by
  induction bs generalizing m a k with
  | nil => simp at h
  | cons b bs ih =>
    rw [Memory.insertAll]
    cases k with
    | zero => rw [lookup_insertAll_outside _ _ _ _ (by omega)]; simp [lookup_insert]
    | succ k =>
      have := ih (Memory.insert m a b) (a + 1) k (by simpa using h)
      rw [show a + (k + 1) = a + 1 + k by omega, this]; simp

/-! ## The canonical form -/

theorem risesFrom_mono {a b : Nat} {m : Memory} (h : a ≤ b) (hm : Memory.risesFrom b m = true) :
    Memory.risesFrom a m = true := by
  cases m with
  | nil => rfl
  | cons c m => simp [Memory.risesFrom] at *; exact ⟨by omega, hm.2⟩

theorem risesFrom_insert (m : Memory) (lo a : Nat) (b : Byte) (ha : lo ≤ a) (hm : Memory.risesFrom lo m = true) :
    Memory.risesFrom lo (Memory.insert m a b) = true := by
  induction m generalizing lo with
  | nil => simp [Memory.insert, Memory.risesFrom, ha]
  | cons c m ih =>
    obtain ⟨k, v⟩ := c
    simp only [Memory.risesFrom, Bool.and_eq_true, decide_eq_true_eq] at hm
    simp only [Memory.insert]
    split_ifs with h1 h2
    · simp [Memory.risesFrom, ha, hm.2, h1]
    · subst h2; simp [Memory.risesFrom, ha, hm.2]
    · simp [Memory.risesFrom, hm.1, ih (k + 1) (by omega) hm.2]

theorem all_insert (m : Memory) (a : Nat) (b : Byte) (ha : a < Config.cap)
    (hm : m.all (fun c => decide (c.1 < Config.cap)) = true) :
    (Memory.insert m a b).all (fun c => decide (c.1 < Config.cap)) = true := by
  induction m with
  | nil => simp only [Memory.insert, List.all_cons, List.all_nil, Bool.and_true, decide_eq_true_eq]; exact ha
  | cons c m ih =>
    obtain ⟨k, v⟩ := c
    simp only [List.all_cons, Bool.and_eq_true, decide_eq_true_eq] at hm
    simp only [Memory.insert]
    split_ifs
    · simp only [List.all_cons, Bool.and_eq_true, decide_eq_true_eq]; exact ⟨ha, hm.1, hm.2⟩
    · simp only [List.all_cons, Bool.and_eq_true, decide_eq_true_eq]; exact ⟨ha, hm.2⟩
    · simp only [List.all_cons, Bool.and_eq_true, decide_eq_true_eq]; exact ⟨hm.1, ih hm.2⟩

/-- Writing one byte inside `BUF` keeps the canonical form. -/
theorem insert_wf {m : Memory} {a : Nat} (b : Byte) (ha : a < Config.cap) (hm : Memory.wf m = true) :
    Memory.wf (Memory.insert m a b) = true := by
  simp only [Memory.wf, Bool.and_eq_true] at *
  exact ⟨risesFrom_insert m 0 a b (Nat.zero_le _) hm.1, all_insert m a b ha hm.2⟩

/-- Writing a run of bytes inside `BUF` keeps the canonical form. -/
theorem insertAll_wf {m : Memory} {a : Nat} (bs : List Byte) (ha : a + bs.length ≤ Config.cap)
    (hm : Memory.wf m = true) : Memory.wf (Memory.insertAll m a bs) = true := by
  induction bs generalizing m a with
  | nil => exact hm
  | cons b bs ih =>
    simp only [List.length_cons] at ha
    exact ih (by omega) (insert_wf b (by omega) hm)

theorem reset_memory_wf : Memory.wf State.reset.buf = true := by decide

/-! ## Reading bytes of a state -/

theorem bufByte_memWrite_outside {s : State} {a x : Nat} {bs : List Byte} (h : x < a ∨ a + bs.length ≤ x) :
    bufByte (memWrite a bs s) x = bufByte s x := by
  simp [bufByte, memWrite, lookup_insertAll_outside _ _ _ _ h]

theorem bufByte_memWrite_inside {s : State} {a k : Nat} {bs : List Byte} (h : k < bs.length) :
    bufByte (memWrite a bs s) (a + k) = bs[k] := by
  simp [bufByte, memWrite, lookup_insertAll_inside _ _ _ _ h]

theorem isWritten_memWrite {s : State} {a x : Nat} {bs : List Byte} :
    isWritten (memWrite a bs s) x = (decide (a ≤ x ∧ x < a + bs.length) || isWritten s x) := by
  by_cases h : a ≤ x ∧ x < a + bs.length
  · obtain ⟨k, rfl⟩ := Nat.exists_eq_add_of_le h.1
    simp only [isWritten, memWrite, lookup_insertAll_inside bs s.buf a k (by omega)]
    simp [h]
  · simp only [isWritten, memWrite, lookup_insertAll_outside bs s.buf a x (by omega)]
    simp [h]

@[simp] theorem memRead_length (s : State) (a n : Nat) : (memRead s a n).length = n := by
  induction n generalizing a with
  | zero => rfl
  | succ n ih => simp [memRead, ih]

theorem memRead_getElem (s : State) (a n k : Nat) (h : k < (memRead s a n).length) :
    (memRead s a n)[k] = bufByte s (a + k) := by
  induction n generalizing a k with
  | zero => simp at h
  | succ n ih =>
    cases k with
    | zero => rfl
    | succ k =>
      simp only [memRead, List.getElem_cons_succ]
      rw [ih (a + 1) k (by simpa [memRead] using h)]
      congr 1; omega

theorem memWrite_wf {s : State} {a : Nat} {bs : List Byte} (h : a + bs.length ≤ Config.cap)
    (hs : Memory.wf s.buf = true) : Memory.wf (memWrite a bs s).buf = true := insertAll_wf bs h hs

end Sys2Proof.Machine
end

