-- ==== Sys2Proof/Laws/State.lean ====
section
/-! SUPPORT. One lemma for each field and each named update of State: what the update leaves there. -/

namespace Sys2Proof.Machine

/-! ## `memWrite` -/

@[simp] theorem memWrite_buf (a : Nat) (bs : List Byte) (s : State) : (memWrite a bs s).buf = Memory.insertAll s.buf a bs := rfl
@[simp] theorem memWrite_pos (a : Nat) (bs : List Byte) (s : State) : (memWrite a bs s).pos = s.pos := rfl
@[simp] theorem memWrite_fend (a : Nat) (bs : List Byte) (s : State) : (memWrite a bs s).fend = s.fend := rfl
@[simp] theorem memWrite_mode (a : Nat) (bs : List Byte) (s : State) : (memWrite a bs s).mode = s.mode := rfl
@[simp] theorem memWrite_err (a : Nat) (bs : List Byte) (s : State) : (memWrite a bs s).err = s.err := rfl
@[simp] theorem memWrite_ecode (a : Nat) (bs : List Byte) (s : State) : (memWrite a bs s).ecode = s.ecode := rfl
@[simp] theorem memWrite_reqValid (a : Nat) (bs : List Byte) (s : State) : (memWrite a bs s).reqValid = s.reqValid := rfl
@[simp] theorem memWrite_reqKind (a : Nat) (bs : List Byte) (s : State) : (memWrite a bs s).reqKind = s.reqKind := rfl
@[simp] theorem memWrite_reqAddr (a : Nat) (bs : List Byte) (s : State) : (memWrite a bs s).reqAddr = s.reqAddr := rfl
@[simp] theorem memWrite_reqCnt (a : Nat) (bs : List Byte) (s : State) : (memWrite a bs s).reqCnt = s.reqCnt := rfl
@[simp] theorem memWrite_rxst (a : Nat) (bs : List Byte) (s : State) : (memWrite a bs s).rxst = s.rxst := rfl
@[simp] theorem memWrite_rxlen (a : Nat) (bs : List Byte) (s : State) : (memWrite a bs s).rxlen = s.rxlen := rfl
@[simp] theorem memWrite_rchk (a : Nat) (bs : List Byte) (s : State) : (memWrite a bs s).rchk = s.rchk := rfl
@[simp] theorem memWrite_status (a : Nat) (bs : List Byte) (s : State) : (memWrite a bs s).status = s.status := rfl
@[simp] theorem memWrite_data (a : Nat) (bs : List Byte) (s : State) : (memWrite a bs s).data = s.data := rfl
@[simp] theorem memWrite_rxq (a : Nat) (bs : List Byte) (s : State) : (memWrite a bs s).rxq = s.rxq := rfl
@[simp] theorem memWrite_txs (a : Nat) (bs : List Byte) (s : State) : (memWrite a bs s).txs = s.txs := rfl
@[simp] theorem memWrite_logs (a : Nat) (bs : List Byte) (s : State) : (memWrite a bs s).logs = s.logs := rfl
@[simp] theorem memWrite_caller (a : Nat) (bs : List Byte) (s : State) : (memWrite a bs s).caller = s.caller := rfl
@[simp] theorem memWrite_script (a : Nat) (bs : List Byte) (s : State) : (memWrite a bs s).script = s.script := rfl
@[simp] theorem memWrite_par (a : Nat) (bs : List Byte) (s : State) : (memWrite a bs s).par = s.par := rfl
@[simp] theorem memWrite_resets (a : Nat) (bs : List Byte) (s : State) : (memWrite a bs s).resets = s.resets := rfl

/-! ## `complete` -/

@[simp] theorem complete_buf (c : Status) (d : Half) (s : State) : (complete c d s).buf = s.buf := rfl
@[simp] theorem complete_pos (c : Status) (d : Half) (s : State) : (complete c d s).pos = s.pos := rfl
@[simp] theorem complete_fend (c : Status) (d : Half) (s : State) : (complete c d s).fend = s.fend := rfl
@[simp] theorem complete_mode (c : Status) (d : Half) (s : State) : (complete c d s).mode = s.mode := rfl
@[simp] theorem complete_err (c : Status) (d : Half) (s : State) : (complete c d s).err = s.err := rfl
@[simp] theorem complete_ecode (c : Status) (d : Half) (s : State) : (complete c d s).ecode = s.ecode := rfl
@[simp] theorem complete_reqValid (c : Status) (d : Half) (s : State) : (complete c d s).reqValid = s.reqValid := rfl
@[simp] theorem complete_reqKind (c : Status) (d : Half) (s : State) : (complete c d s).reqKind = s.reqKind := rfl
@[simp] theorem complete_reqAddr (c : Status) (d : Half) (s : State) : (complete c d s).reqAddr = s.reqAddr := rfl
@[simp] theorem complete_reqCnt (c : Status) (d : Half) (s : State) : (complete c d s).reqCnt = s.reqCnt := rfl
@[simp] theorem complete_rxst (c : Status) (d : Half) (s : State) : (complete c d s).rxst = s.rxst := rfl
@[simp] theorem complete_rxlen (c : Status) (d : Half) (s : State) : (complete c d s).rxlen = s.rxlen := rfl
@[simp] theorem complete_rchk (c : Status) (d : Half) (s : State) : (complete c d s).rchk = s.rchk := rfl
@[simp] theorem complete_status (c : Status) (d : Half) (s : State) : (complete c d s).status = c := rfl
@[simp] theorem complete_data (c : Status) (d : Half) (s : State) : (complete c d s).data = d := rfl
@[simp] theorem complete_rxq (c : Status) (d : Half) (s : State) : (complete c d s).rxq = s.rxq := rfl
@[simp] theorem complete_txs (c : Status) (d : Half) (s : State) : (complete c d s).txs = s.txs := rfl
@[simp] theorem complete_logs (c : Status) (d : Half) (s : State) : (complete c d s).logs = s.logs := rfl
@[simp] theorem complete_caller (c : Status) (d : Half) (s : State) : (complete c d s).caller = s.caller := rfl
@[simp] theorem complete_script (c : Status) (d : Half) (s : State) : (complete c d s).script = s.script := rfl
@[simp] theorem complete_par (c : Status) (d : Half) (s : State) : (complete c d s).par = s.par := rfl
@[simp] theorem complete_resets (c : Status) (d : Half) (s : State) : (complete c d s).resets = s.resets := rfl

/-! ## `returnOk` -/

@[simp] theorem returnOk_buf (d : Half) (s : State) : (returnOk d s).buf = s.buf := rfl
@[simp] theorem returnOk_pos (d : Half) (s : State) : (returnOk d s).pos = s.pos := rfl
@[simp] theorem returnOk_fend (d : Half) (s : State) : (returnOk d s).fend = s.fend := rfl
@[simp] theorem returnOk_mode (d : Half) (s : State) : (returnOk d s).mode = s.mode := rfl
@[simp] theorem returnOk_err (d : Half) (s : State) : (returnOk d s).err = s.err := rfl
@[simp] theorem returnOk_ecode (d : Half) (s : State) : (returnOk d s).ecode = s.ecode := rfl
@[simp] theorem returnOk_reqValid (d : Half) (s : State) : (returnOk d s).reqValid = s.reqValid := rfl
@[simp] theorem returnOk_reqKind (d : Half) (s : State) : (returnOk d s).reqKind = s.reqKind := rfl
@[simp] theorem returnOk_reqAddr (d : Half) (s : State) : (returnOk d s).reqAddr = s.reqAddr := rfl
@[simp] theorem returnOk_reqCnt (d : Half) (s : State) : (returnOk d s).reqCnt = s.reqCnt := rfl
@[simp] theorem returnOk_rxst (d : Half) (s : State) : (returnOk d s).rxst = s.rxst := rfl
@[simp] theorem returnOk_rxlen (d : Half) (s : State) : (returnOk d s).rxlen = s.rxlen := rfl
@[simp] theorem returnOk_rchk (d : Half) (s : State) : (returnOk d s).rchk = s.rchk := rfl
@[simp] theorem returnOk_status (d : Half) (s : State) : (returnOk d s).status = .ok := rfl
@[simp] theorem returnOk_data (d : Half) (s : State) : (returnOk d s).data = d := rfl
@[simp] theorem returnOk_rxq (d : Half) (s : State) : (returnOk d s).rxq = s.rxq := rfl
@[simp] theorem returnOk_txs (d : Half) (s : State) : (returnOk d s).txs = s.txs := rfl
@[simp] theorem returnOk_logs (d : Half) (s : State) : (returnOk d s).logs = s.logs := rfl
@[simp] theorem returnOk_caller (d : Half) (s : State) : (returnOk d s).caller = s.caller := rfl
@[simp] theorem returnOk_script (d : Half) (s : State) : (returnOk d s).script = s.script := rfl
@[simp] theorem returnOk_par (d : Half) (s : State) : (returnOk d s).par = s.par := rfl
@[simp] theorem returnOk_resets (d : Half) (s : State) : (returnOk d s).resets = s.resets := rfl

/-! ## `raise` -/

@[simp] theorem raise_buf (c : Status) (s : State) : (raise c s).buf = s.buf := rfl
@[simp] theorem raise_pos (c : Status) (s : State) : (raise c s).pos = s.pos := rfl
@[simp] theorem raise_fend (c : Status) (s : State) : (raise c s).fend = s.fend := rfl
@[simp] theorem raise_mode (c : Status) (s : State) : (raise c s).mode = s.mode := rfl
@[simp] theorem raise_err (c : Status) (s : State) : (raise c s).err = s.err := rfl
@[simp] theorem raise_ecode (c : Status) (s : State) : (raise c s).ecode = s.ecode := rfl
@[simp] theorem raise_reqValid (c : Status) (s : State) : (raise c s).reqValid = s.reqValid := rfl
@[simp] theorem raise_reqKind (c : Status) (s : State) : (raise c s).reqKind = s.reqKind := rfl
@[simp] theorem raise_reqAddr (c : Status) (s : State) : (raise c s).reqAddr = s.reqAddr := rfl
@[simp] theorem raise_reqCnt (c : Status) (s : State) : (raise c s).reqCnt = s.reqCnt := rfl
@[simp] theorem raise_rxst (c : Status) (s : State) : (raise c s).rxst = s.rxst := rfl
@[simp] theorem raise_rxlen (c : Status) (s : State) : (raise c s).rxlen = s.rxlen := rfl
@[simp] theorem raise_rchk (c : Status) (s : State) : (raise c s).rchk = s.rchk := rfl
@[simp] theorem raise_status (c : Status) (s : State) : (raise c s).status = c := rfl
@[simp] theorem raise_data (c : Status) (s : State) : (raise c s).data = 0 := rfl
@[simp] theorem raise_rxq (c : Status) (s : State) : (raise c s).rxq = s.rxq := rfl
@[simp] theorem raise_txs (c : Status) (s : State) : (raise c s).txs = s.txs := rfl
@[simp] theorem raise_logs (c : Status) (s : State) : (raise c s).logs = s.logs := rfl
@[simp] theorem raise_caller (c : Status) (s : State) : (raise c s).caller = s.caller := rfl
@[simp] theorem raise_script (c : Status) (s : State) : (raise c s).script = s.script := rfl
@[simp] theorem raise_par (c : Status) (s : State) : (raise c s).par = s.par := rfl
@[simp] theorem raise_resets (c : Status) (s : State) : (raise c s).resets = s.resets := rfl

/-! ## `failFrame` -/

@[simp] theorem failFrame_buf (c : Status) (s : State) : (failFrame c s).buf = s.buf := rfl
@[simp] theorem failFrame_pos (c : Status) (s : State) : (failFrame c s).pos = s.pos := rfl
@[simp] theorem failFrame_fend (c : Status) (s : State) : (failFrame c s).fend = s.fend := rfl
@[simp] theorem failFrame_mode (c : Status) (s : State) : (failFrame c s).mode = s.mode := rfl
@[simp] theorem failFrame_err (c : Status) (s : State) : (failFrame c s).err = true := rfl
@[simp] theorem failFrame_ecode (c : Status) (s : State) : (failFrame c s).ecode = c := rfl
@[simp] theorem failFrame_reqValid (c : Status) (s : State) : (failFrame c s).reqValid = s.reqValid := rfl
@[simp] theorem failFrame_reqKind (c : Status) (s : State) : (failFrame c s).reqKind = s.reqKind := rfl
@[simp] theorem failFrame_reqAddr (c : Status) (s : State) : (failFrame c s).reqAddr = s.reqAddr := rfl
@[simp] theorem failFrame_reqCnt (c : Status) (s : State) : (failFrame c s).reqCnt = s.reqCnt := rfl
@[simp] theorem failFrame_rxst (c : Status) (s : State) : (failFrame c s).rxst = s.rxst := rfl
@[simp] theorem failFrame_rxlen (c : Status) (s : State) : (failFrame c s).rxlen = s.rxlen := rfl
@[simp] theorem failFrame_rchk (c : Status) (s : State) : (failFrame c s).rchk = s.rchk := rfl
@[simp] theorem failFrame_status (c : Status) (s : State) : (failFrame c s).status = c := rfl
@[simp] theorem failFrame_data (c : Status) (s : State) : (failFrame c s).data = 0 := rfl
@[simp] theorem failFrame_rxq (c : Status) (s : State) : (failFrame c s).rxq = s.rxq := rfl
@[simp] theorem failFrame_txs (c : Status) (s : State) : (failFrame c s).txs = s.txs := rfl
@[simp] theorem failFrame_logs (c : Status) (s : State) : (failFrame c s).logs = s.logs := rfl
@[simp] theorem failFrame_caller (c : Status) (s : State) : (failFrame c s).caller = s.caller := rfl
@[simp] theorem failFrame_script (c : Status) (s : State) : (failFrame c s).script = s.script := rfl
@[simp] theorem failFrame_par (c : Status) (s : State) : (failFrame c s).par = s.par := rfl
@[simp] theorem failFrame_resets (c : Status) (s : State) : (failFrame c s).resets = s.resets := rfl

/-! ## `clearError` -/

@[simp] theorem clearError_buf (s : State) : (clearError s).buf = s.buf := rfl
@[simp] theorem clearError_pos (s : State) : (clearError s).pos = s.pos := rfl
@[simp] theorem clearError_fend (s : State) : (clearError s).fend = s.fend := rfl
@[simp] theorem clearError_mode (s : State) : (clearError s).mode = s.mode := rfl
@[simp] theorem clearError_err (s : State) : (clearError s).err = false := rfl
@[simp] theorem clearError_ecode (s : State) : (clearError s).ecode = .ok := rfl
@[simp] theorem clearError_reqValid (s : State) : (clearError s).reqValid = s.reqValid := rfl
@[simp] theorem clearError_reqKind (s : State) : (clearError s).reqKind = s.reqKind := rfl
@[simp] theorem clearError_reqAddr (s : State) : (clearError s).reqAddr = s.reqAddr := rfl
@[simp] theorem clearError_reqCnt (s : State) : (clearError s).reqCnt = s.reqCnt := rfl
@[simp] theorem clearError_rxst (s : State) : (clearError s).rxst = s.rxst := rfl
@[simp] theorem clearError_rxlen (s : State) : (clearError s).rxlen = s.rxlen := rfl
@[simp] theorem clearError_rchk (s : State) : (clearError s).rchk = s.rchk := rfl
@[simp] theorem clearError_status (s : State) : (clearError s).status = s.status := rfl
@[simp] theorem clearError_data (s : State) : (clearError s).data = s.data := rfl
@[simp] theorem clearError_rxq (s : State) : (clearError s).rxq = s.rxq := rfl
@[simp] theorem clearError_txs (s : State) : (clearError s).txs = s.txs := rfl
@[simp] theorem clearError_logs (s : State) : (clearError s).logs = s.logs := rfl
@[simp] theorem clearError_caller (s : State) : (clearError s).caller = s.caller := rfl
@[simp] theorem clearError_script (s : State) : (clearError s).script = s.script := rfl
@[simp] theorem clearError_par (s : State) : (clearError s).par = s.par := rfl
@[simp] theorem clearError_resets (s : State) : (clearError s).resets = s.resets := rfl

/-! ## `latchRequest` -/

@[simp] theorem latchRequest_buf (k : ReqKind) (a : Half) (c : Byte) (s : State) : (latchRequest k a c s).buf = s.buf := rfl
@[simp] theorem latchRequest_pos (k : ReqKind) (a : Half) (c : Byte) (s : State) : (latchRequest k a c s).pos = s.pos := rfl
@[simp] theorem latchRequest_fend (k : ReqKind) (a : Half) (c : Byte) (s : State) : (latchRequest k a c s).fend = s.fend := rfl
@[simp] theorem latchRequest_mode (k : ReqKind) (a : Half) (c : Byte) (s : State) : (latchRequest k a c s).mode = s.mode := rfl
@[simp] theorem latchRequest_err (k : ReqKind) (a : Half) (c : Byte) (s : State) : (latchRequest k a c s).err = s.err := rfl
@[simp] theorem latchRequest_ecode (k : ReqKind) (a : Half) (c : Byte) (s : State) : (latchRequest k a c s).ecode = s.ecode := rfl
@[simp] theorem latchRequest_reqValid (k : ReqKind) (a : Half) (c : Byte) (s : State) : (latchRequest k a c s).reqValid = true := rfl
@[simp] theorem latchRequest_reqKind (k : ReqKind) (a : Half) (c : Byte) (s : State) : (latchRequest k a c s).reqKind = k := rfl
@[simp] theorem latchRequest_reqAddr (k : ReqKind) (a : Half) (c : Byte) (s : State) : (latchRequest k a c s).reqAddr = a := rfl
@[simp] theorem latchRequest_reqCnt (k : ReqKind) (a : Half) (c : Byte) (s : State) : (latchRequest k a c s).reqCnt = c := rfl
@[simp] theorem latchRequest_rxst (k : ReqKind) (a : Half) (c : Byte) (s : State) : (latchRequest k a c s).rxst = s.rxst := rfl
@[simp] theorem latchRequest_rxlen (k : ReqKind) (a : Half) (c : Byte) (s : State) : (latchRequest k a c s).rxlen = s.rxlen := rfl
@[simp] theorem latchRequest_rchk (k : ReqKind) (a : Half) (c : Byte) (s : State) : (latchRequest k a c s).rchk = s.rchk := rfl
@[simp] theorem latchRequest_status (k : ReqKind) (a : Half) (c : Byte) (s : State) : (latchRequest k a c s).status = s.status := rfl
@[simp] theorem latchRequest_data (k : ReqKind) (a : Half) (c : Byte) (s : State) : (latchRequest k a c s).data = s.data := rfl
@[simp] theorem latchRequest_rxq (k : ReqKind) (a : Half) (c : Byte) (s : State) : (latchRequest k a c s).rxq = s.rxq := rfl
@[simp] theorem latchRequest_txs (k : ReqKind) (a : Half) (c : Byte) (s : State) : (latchRequest k a c s).txs = s.txs := rfl
@[simp] theorem latchRequest_logs (k : ReqKind) (a : Half) (c : Byte) (s : State) : (latchRequest k a c s).logs = s.logs := rfl
@[simp] theorem latchRequest_caller (k : ReqKind) (a : Half) (c : Byte) (s : State) : (latchRequest k a c s).caller = s.caller := rfl
@[simp] theorem latchRequest_script (k : ReqKind) (a : Half) (c : Byte) (s : State) : (latchRequest k a c s).script = s.script := rfl
@[simp] theorem latchRequest_par (k : ReqKind) (a : Half) (c : Byte) (s : State) : (latchRequest k a c s).par = s.par := rfl
@[simp] theorem latchRequest_resets (k : ReqKind) (a : Half) (c : Byte) (s : State) : (latchRequest k a c s).resets = s.resets := rfl

/-! ## `txPush` -/

@[simp] theorem txPush_buf (bs : List Byte) (s : State) : (txPush bs s).buf = s.buf := rfl
@[simp] theorem txPush_pos (bs : List Byte) (s : State) : (txPush bs s).pos = s.pos := rfl
@[simp] theorem txPush_fend (bs : List Byte) (s : State) : (txPush bs s).fend = s.fend := rfl
@[simp] theorem txPush_mode (bs : List Byte) (s : State) : (txPush bs s).mode = s.mode := rfl
@[simp] theorem txPush_err (bs : List Byte) (s : State) : (txPush bs s).err = s.err := rfl
@[simp] theorem txPush_ecode (bs : List Byte) (s : State) : (txPush bs s).ecode = s.ecode := rfl
@[simp] theorem txPush_reqValid (bs : List Byte) (s : State) : (txPush bs s).reqValid = s.reqValid := rfl
@[simp] theorem txPush_reqKind (bs : List Byte) (s : State) : (txPush bs s).reqKind = s.reqKind := rfl
@[simp] theorem txPush_reqAddr (bs : List Byte) (s : State) : (txPush bs s).reqAddr = s.reqAddr := rfl
@[simp] theorem txPush_reqCnt (bs : List Byte) (s : State) : (txPush bs s).reqCnt = s.reqCnt := rfl
@[simp] theorem txPush_rxst (bs : List Byte) (s : State) : (txPush bs s).rxst = s.rxst := rfl
@[simp] theorem txPush_rxlen (bs : List Byte) (s : State) : (txPush bs s).rxlen = s.rxlen := rfl
@[simp] theorem txPush_rchk (bs : List Byte) (s : State) : (txPush bs s).rchk = s.rchk := rfl
@[simp] theorem txPush_status (bs : List Byte) (s : State) : (txPush bs s).status = s.status := rfl
@[simp] theorem txPush_data (bs : List Byte) (s : State) : (txPush bs s).data = s.data := rfl
@[simp] theorem txPush_rxq (bs : List Byte) (s : State) : (txPush bs s).rxq = s.rxq := rfl
@[simp] theorem txPush_txs (bs : List Byte) (s : State) : (txPush bs s).txs = s.txs ++ bs := rfl
@[simp] theorem txPush_logs (bs : List Byte) (s : State) : (txPush bs s).logs = s.logs := rfl
@[simp] theorem txPush_caller (bs : List Byte) (s : State) : (txPush bs s).caller = s.caller := rfl
@[simp] theorem txPush_script (bs : List Byte) (s : State) : (txPush bs s).script = s.script := rfl
@[simp] theorem txPush_par (bs : List Byte) (s : State) : (txPush bs s).par = s.par := rfl
@[simp] theorem txPush_resets (bs : List Byte) (s : State) : (txPush bs s).resets = s.resets := rfl

/-! ## `rxStart` -/

@[simp] theorem rxStart_buf (k : RxCheck) (s : State) : (rxStart k s).buf = s.buf := rfl
@[simp] theorem rxStart_pos (k : RxCheck) (s : State) : (rxStart k s).pos = 0 := rfl
@[simp] theorem rxStart_fend (k : RxCheck) (s : State) : (rxStart k s).fend = 0 := rfl
@[simp] theorem rxStart_mode (k : RxCheck) (s : State) : (rxStart k s).mode = .rx := rfl
@[simp] theorem rxStart_err (k : RxCheck) (s : State) : (rxStart k s).err = false := rfl
@[simp] theorem rxStart_ecode (k : RxCheck) (s : State) : (rxStart k s).ecode = .ok := rfl
@[simp] theorem rxStart_reqValid (k : RxCheck) (s : State) : (rxStart k s).reqValid = s.reqValid := rfl
@[simp] theorem rxStart_reqKind (k : RxCheck) (s : State) : (rxStart k s).reqKind = s.reqKind := rfl
@[simp] theorem rxStart_reqAddr (k : RxCheck) (s : State) : (rxStart k s).reqAddr = s.reqAddr := rfl
@[simp] theorem rxStart_reqCnt (k : RxCheck) (s : State) : (rxStart k s).reqCnt = s.reqCnt := rfl
@[simp] theorem rxStart_rxst (k : RxCheck) (s : State) : (rxStart k s).rxst = .huntA := rfl
@[simp] theorem rxStart_rxlen (k : RxCheck) (s : State) : (rxStart k s).rxlen = s.rxlen := rfl
@[simp] theorem rxStart_rchk (k : RxCheck) (s : State) : (rxStart k s).rchk = k := rfl
@[simp] theorem rxStart_status (k : RxCheck) (s : State) : (rxStart k s).status = s.status := rfl
@[simp] theorem rxStart_data (k : RxCheck) (s : State) : (rxStart k s).data = s.data := rfl
@[simp] theorem rxStart_rxq (k : RxCheck) (s : State) : (rxStart k s).rxq = s.rxq := rfl
@[simp] theorem rxStart_txs (k : RxCheck) (s : State) : (rxStart k s).txs = s.txs := rfl
@[simp] theorem rxStart_logs (k : RxCheck) (s : State) : (rxStart k s).logs = s.logs := rfl
@[simp] theorem rxStart_caller (k : RxCheck) (s : State) : (rxStart k s).caller = s.caller := rfl
@[simp] theorem rxStart_script (k : RxCheck) (s : State) : (rxStart k s).script = s.script := rfl
@[simp] theorem rxStart_par (k : RxCheck) (s : State) : (rxStart k s).par = s.par := rfl
@[simp] theorem rxStart_resets (k : RxCheck) (s : State) : (rxStart k s).resets = s.resets := rfl

/-! ## `patchLen` -/

@[simp] theorem patchLen_pos (s : State) : (patchLen s).pos = s.pos := by unfold patchLen; split <;> rfl
@[simp] theorem patchLen_fend (s : State) : (patchLen s).fend = s.fend := by unfold patchLen; split <;> rfl
@[simp] theorem patchLen_mode (s : State) : (patchLen s).mode = s.mode := by unfold patchLen; split <;> rfl
@[simp] theorem patchLen_err (s : State) : (patchLen s).err = s.err := by unfold patchLen; split <;> rfl
@[simp] theorem patchLen_ecode (s : State) : (patchLen s).ecode = s.ecode := by unfold patchLen; split <;> rfl
@[simp] theorem patchLen_reqValid (s : State) : (patchLen s).reqValid = s.reqValid := by unfold patchLen; split <;> rfl
@[simp] theorem patchLen_reqKind (s : State) : (patchLen s).reqKind = s.reqKind := by unfold patchLen; split <;> rfl
@[simp] theorem patchLen_reqAddr (s : State) : (patchLen s).reqAddr = s.reqAddr := by unfold patchLen; split <;> rfl
@[simp] theorem patchLen_reqCnt (s : State) : (patchLen s).reqCnt = s.reqCnt := by unfold patchLen; split <;> rfl
@[simp] theorem patchLen_rxst (s : State) : (patchLen s).rxst = s.rxst := by unfold patchLen; split <;> rfl
@[simp] theorem patchLen_rxlen (s : State) : (patchLen s).rxlen = s.rxlen := by unfold patchLen; split <;> rfl
@[simp] theorem patchLen_rchk (s : State) : (patchLen s).rchk = s.rchk := by unfold patchLen; split <;> rfl
@[simp] theorem patchLen_status (s : State) : (patchLen s).status = s.status := by unfold patchLen; split <;> rfl
@[simp] theorem patchLen_data (s : State) : (patchLen s).data = s.data := by unfold patchLen; split <;> rfl
@[simp] theorem patchLen_rxq (s : State) : (patchLen s).rxq = s.rxq := by unfold patchLen; split <;> rfl
@[simp] theorem patchLen_txs (s : State) : (patchLen s).txs = s.txs := by unfold patchLen; split <;> rfl
@[simp] theorem patchLen_logs (s : State) : (patchLen s).logs = s.logs := by unfold patchLen; split <;> rfl
@[simp] theorem patchLen_caller (s : State) : (patchLen s).caller = s.caller := by unfold patchLen; split <;> rfl
@[simp] theorem patchLen_script (s : State) : (patchLen s).script = s.script := by unfold patchLen; split <;> rfl
@[simp] theorem patchLen_par (s : State) : (patchLen s).par = s.par := by unfold patchLen; split <;> rfl
@[simp] theorem patchLen_resets (s : State) : (patchLen s).resets = s.resets := by unfold patchLen; split <;> rfl

/-! ## `logPush` -/

@[simp] theorem logPush_buf (bs : List Byte) (s : State) : (logPush bs s).buf = s.buf := by unfold logPush; split <;> rfl
@[simp] theorem logPush_pos (bs : List Byte) (s : State) : (logPush bs s).pos = s.pos := by unfold logPush; split <;> rfl
@[simp] theorem logPush_fend (bs : List Byte) (s : State) : (logPush bs s).fend = s.fend := by unfold logPush; split <;> rfl
@[simp] theorem logPush_mode (bs : List Byte) (s : State) : (logPush bs s).mode = s.mode := by unfold logPush; split <;> rfl
@[simp] theorem logPush_err (bs : List Byte) (s : State) : (logPush bs s).err = s.err := by unfold logPush; split <;> rfl
@[simp] theorem logPush_ecode (bs : List Byte) (s : State) : (logPush bs s).ecode = s.ecode := by unfold logPush; split <;> rfl
@[simp] theorem logPush_reqValid (bs : List Byte) (s : State) : (logPush bs s).reqValid = s.reqValid := by unfold logPush; split <;> rfl
@[simp] theorem logPush_reqKind (bs : List Byte) (s : State) : (logPush bs s).reqKind = s.reqKind := by unfold logPush; split <;> rfl
@[simp] theorem logPush_reqAddr (bs : List Byte) (s : State) : (logPush bs s).reqAddr = s.reqAddr := by unfold logPush; split <;> rfl
@[simp] theorem logPush_reqCnt (bs : List Byte) (s : State) : (logPush bs s).reqCnt = s.reqCnt := by unfold logPush; split <;> rfl
@[simp] theorem logPush_rxst (bs : List Byte) (s : State) : (logPush bs s).rxst = s.rxst := by unfold logPush; split <;> rfl
@[simp] theorem logPush_rxlen (bs : List Byte) (s : State) : (logPush bs s).rxlen = s.rxlen := by unfold logPush; split <;> rfl
@[simp] theorem logPush_rchk (bs : List Byte) (s : State) : (logPush bs s).rchk = s.rchk := by unfold logPush; split <;> rfl
@[simp] theorem logPush_status (bs : List Byte) (s : State) : (logPush bs s).status = s.status := by unfold logPush; split <;> rfl
@[simp] theorem logPush_data (bs : List Byte) (s : State) : (logPush bs s).data = s.data := by unfold logPush; split <;> rfl
@[simp] theorem logPush_rxq (bs : List Byte) (s : State) : (logPush bs s).rxq = s.rxq := by unfold logPush; split <;> rfl
@[simp] theorem logPush_txs (bs : List Byte) (s : State) : (logPush bs s).txs = s.txs := by unfold logPush; split <;> rfl
@[simp] theorem logPush_caller (bs : List Byte) (s : State) : (logPush bs s).caller = s.caller := by unfold logPush; split <;> rfl
@[simp] theorem logPush_script (bs : List Byte) (s : State) : (logPush bs s).script = s.script := by unfold logPush; split <;> rfl
@[simp] theorem logPush_par (bs : List Byte) (s : State) : (logPush bs s).par = s.par := by unfold logPush; split <;> rfl
@[simp] theorem logPush_resets (bs : List Byte) (s : State) : (logPush bs s).resets = s.resets := by unfold logPush; split <;> rfl

/-! ## Bytes of the buffer: only `buf` and `resets` matter -/

theorem bufByte_congr {s t : State} (h : t.buf = s.buf) (hr : t.resets = s.resets) (a : Nat) :
    bufByte t a = bufByte s a := by simp [bufByte, h, hr]

theorem isWritten_congr {s t : State} (h : t.buf = s.buf) (a : Nat) : isWritten t a = isWritten s a := by
  simp [isWritten, h]

theorem memRead_congr {s t : State} (h : ∀ x, bufByte t x = bufByte s x) (a n : Nat) :
    memRead t a n = memRead s a n := by
  induction n generalizing a with
  | zero => rfl
  | succ n ih => simp [memRead, h, ih]

end Sys2Proof.Machine
end

