-- ==== Sys2Proof/Laws/Ops.lean ====
section
/-! SUPPORT. What each shared operation can do, said once: the provers cite these instead of unfolding. -/

namespace Sys2Proof.Machine

/-! ## Byte order and numbers -/

@[simp] theorem be16_length (v : Half) : (be16 v).length = 2 := rfl

theorem encCnt_length (cb : Config.CountBytes) (c : Byte) : (encCnt cb c).length = countWidth cb := by
  cases cb <;> rfl

theorem countWidth_cases (cb : Config.CountBytes) : countWidth cb = 1 ∨ countWidth cb = 2 := by
  cases cb <;> simp [countWidth]

theorem fromBe16_be16 (v : Half) : fromBe16 (v.extractLsb' 8 8) (v.extractLsb' 0 8) = v := by
  unfold fromBe16
  ext i hi
  simp only [BitVec.getElem_append, BitVec.getElem_extractLsb']
  split <;> rw [← BitVec.getLsbD_eq_getElem] <;> congr 1 <;> omega

theorem decCnt_encCnt (cb : Config.CountBytes) (c : Byte) : decCnt (encCnt cb c) = c.toNat := by
  cases cb <;> simp [decCnt, encCnt]

theorem byte_ofNat_toNat {n : Nat} (h : n ≤ 255) : (BitVec.ofNat 8 n).toNat = n := by
  simp; omega

/-! ## The length byte -/

/-- `patchLen` writes offset 2 and nothing else, and only once a length byte exists (rule R122). -/
theorem patchLen_byte (s : State) (x : Nat) :
    bufByte (patchLen s) x = if 3 ≤ s.pos.toNat ∧ x = 2 then lengthByte s.pos.toNat else bufByte s x := by
  unfold patchLen
  split_ifs with h1 h2 h2
  · obtain ⟨_, rfl⟩ := h2
    exact bufByte_memWrite_inside (s := s) (a := 2) (k := 0) (bs := [lengthByte s.pos.toNat]) (by simp)
  · exact bufByte_memWrite_outside (by simp only [config_lenOff, List.length_singleton]; omega)
  · omega
  · rfl

theorem patchLen_written (s : State) (x : Nat) :
    isWritten (patchLen s) x = (decide (3 ≤ s.pos.toNat ∧ x = 2) || isWritten s x) := by
  unfold patchLen
  split_ifs with h
  · rw [isWritten_memWrite]
    have hx : decide (Config.lenOff ≤ x ∧ x < Config.lenOff + [lengthByte s.pos.toNat].length) =
        decide (3 ≤ s.pos.toNat ∧ x = 2) := by
      rw [Bool.eq_iff_iff, decide_eq_true_eq, decide_eq_true_eq, config_lenOff, List.length_singleton]
      omega
    rw [hx]
  · have : ¬(3 ≤ s.pos.toNat ∧ x = 2) := by omega
    simp [this]

theorem patchLen_wf {s : State} (h : Memory.wf s.buf = true) : Memory.wf (patchLen s).buf = true := by
  unfold patchLen
  split
  · exact memWrite_wf (by simp) h
  · exact h

/-! ## Appending -/

/-- All that an append can do (rule R121). -/
theorem appendBytes_cases (bs : List Byte) (s : State) :
    (s.mode = .rx ∧ appendBytes bs s = raise .illegalOp s) ∨
    (s.mode ≠ .rx ∧ s.err = true ∧ appendBytes bs s = raise .frameUnusable s) ∨
    (s.mode ≠ .rx ∧ s.err = false ∧ 255 < s.pos.toNat + bs.length ∧
      appendBytes bs s = failFrame .bufferOverflow { s with mode := .tx }) ∨
    (s.mode ≠ .rx ∧ s.err = false ∧ s.pos.toNat + bs.length ≤ 255 ∧ appendBytes bs s = appended bs s) := by
  unfold appendBytes
  split_ifs with h1 h2 h3
  · exact .inl ⟨h1, rfl⟩
  · exact .inr (.inl ⟨h1, h2, rfl⟩)
  · exact .inr (.inr (.inl ⟨h1, by simpa using h2, by simpa using h3, rfl⟩))
  · exact .inr (.inr (.inr ⟨h1, by simpa using h2, by simpa using h3, rfl⟩))

theorem appendBytes_fits {bs : List Byte} {s : State} (hm : s.mode ≠ .rx) (he : s.err = false)
    (hf : s.pos.toNat + bs.length ≤ 255) : appendBytes bs s = appended bs s := by
  rcases appendBytes_cases bs s with h | h | h | h
  · exact absurd h.1 hm
  · exact absurd h.2.1 (by simp [he])
  · exact absurd h.2.2.1 (by omega)
  · exact h.2.2.2

/-- An append that fits changes the buffer, the cursor, the mode and the result, and nothing else. -/
theorem appended_frame (bs : List Byte) (s : State) :
    appended bs s =
      { s with buf := (appended bs s).buf, pos := BitVec.ofNat 8 (s.pos.toNat + bs.length), mode := .tx,
               status := .ok, data := 0 } := by
  unfold appended patchLen
  split <;> rfl

@[simp] theorem appended_pos (bs : List Byte) (s : State) :
    (appended bs s).pos = BitVec.ofNat 8 (s.pos.toNat + bs.length) := by simp [appended]

@[simp] theorem appended_mode (bs : List Byte) (s : State) : (appended bs s).mode = .tx := by simp [appended]
@[simp] theorem appended_err (bs : List Byte) (s : State) : (appended bs s).err = s.err := by simp [appended]
@[simp] theorem appended_resets (bs : List Byte) (s : State) : (appended bs s).resets = s.resets := by simp [appended]
@[simp] theorem appended_par (bs : List Byte) (s : State) : (appended bs s).par = s.par := by simp [appended]

theorem appended_pos_toNat {bs : List Byte} {s : State} (h : s.pos.toNat + bs.length ≤ 255) :
    (appended bs s).pos.toNat = s.pos.toNat + bs.length := by
  rw [appended_pos, byte_ofNat_toNat h]

/-- Every byte after an append that fits (rules R121, R122). -/
theorem appended_byte {bs : List Byte} {s : State} (h : s.pos.toNat + bs.length ≤ 255) (x : Nat) :
    bufByte (appended bs s) x =
      if 3 ≤ s.pos.toNat + bs.length ∧ x = 2 then lengthByte (s.pos.toNat + bs.length)
      else bufByte (memWrite s.pos.toNat bs s) x := by
  have hp : (BitVec.ofNat 8 (s.pos.toNat + bs.length)).toNat = s.pos.toNat + bs.length := byte_ofNat_toNat h
  rw [appended, bufByte_congr (t := returnOk 0 _) (s := patchLen _) rfl rfl, patchLen_byte]
  simp only [memWrite_pos, hp]
  rfl

theorem appended_byte_inside {bs : List Byte} {s : State} {k : Nat} (h : s.pos.toNat + bs.length ≤ 255)
    (hk : k < bs.length) (h2 : s.pos.toNat + k ≠ 2) : bufByte (appended bs s) (s.pos.toNat + k) = bs[k] := by
  rw [appended_byte h, if_neg (by omega), bufByte_memWrite_inside hk]

theorem appended_byte_outside {bs : List Byte} {s : State} {x : Nat} (h : s.pos.toNat + bs.length ≤ 255)
    (hx : x < s.pos.toNat ∨ s.pos.toNat + bs.length ≤ x) (h2 : x = 2 → s.pos.toNat + bs.length < 3) :
    bufByte (appended bs s) x = bufByte s x := by
  rw [appended_byte h, if_neg (by omega), bufByte_memWrite_outside hx]

theorem appended_byte_two {bs : List Byte} {s : State} (h : s.pos.toNat + bs.length ≤ 255)
    (h3 : 3 ≤ s.pos.toNat + bs.length) : bufByte (appended bs s) 2 = lengthByte (s.pos.toNat + bs.length) := by
  rw [appended_byte h, if_pos ⟨h3, rfl⟩]

theorem appended_written {bs : List Byte} {s : State} (h : s.pos.toNat + bs.length ≤ 255) (x : Nat) :
    isWritten (appended bs s) x =
      (decide (3 ≤ s.pos.toNat + bs.length ∧ x = 2) ||
        (decide (s.pos.toNat ≤ x ∧ x < s.pos.toNat + bs.length) || isWritten s x)) := by
  have hp : (BitVec.ofNat 8 (s.pos.toNat + bs.length)).toNat = s.pos.toNat + bs.length := byte_ofNat_toNat h
  rw [appended, isWritten_congr (t := returnOk 0 _) (s := patchLen _) rfl, patchLen_written, isWritten_memWrite]
  simp only [memWrite_pos, hp]
  rfl

theorem appended_wf {bs : List Byte} {s : State} (h : s.pos.toNat + bs.length ≤ 255)
    (hw : Memory.wf s.buf = true) : Memory.wf (appended bs s).buf = true := by
  have h1 : Memory.wf (memWrite s.pos.toNat bs s).buf = true := memWrite_wf (by simpa using h) hw
  exact patchLen_wf h1

/-! ## Opening a frame -/

/-- `open` changes the buffer, the cursor, the end, the mode and the error, and nothing else (rule R111). -/
theorem openFrame_frame (c : Byte) (s : State) :
    openFrame c s =
      { s with buf := (openFrame c s).buf, pos := 4, fend := 0, mode := .tx, err := false, ecode := .ok } := by
  unfold openFrame patchLen
  rfl

@[simp] theorem openFrame_pos (c : Byte) (s : State) : (openFrame c s).pos = 4 := rfl
@[simp] theorem openFrame_mode (c : Byte) (s : State) : (openFrame c s).mode = .tx := rfl
@[simp] theorem openFrame_err (c : Byte) (s : State) : (openFrame c s).err = false := rfl
@[simp] theorem openFrame_par (c : Byte) (s : State) : (openFrame c s).par = s.par := rfl

theorem openFrame_buf (c : Byte) (s : State) :
    (openFrame c s).buf =
      Memory.insertAll (Memory.insertAll s.buf 0 [0x5A, 0xA5, 0x00, c]) 2 [1] := rfl

/-- The four bytes of an opened frame, and every other byte as before (rule R111). -/
theorem openFrame_byte (c : Byte) (s : State) (x : Nat) :
    bufByte (openFrame c s) x =
      if x = 0 then 0x5A else if x = 1 then 0xA5 else if x = 2 then 1 else if x = 3 then c else bufByte s x := by
  unfold bufByte
  rw [openFrame_buf, show (openFrame c s).resets = s.resets from rfl]
  simp only [Memory.insertAll, lookup_insert]
  split_ifs <;> simp_all

theorem openFrame_written (c : Byte) (s : State) (x : Nat) :
    isWritten (openFrame c s) x = (decide (x < 4) || isWritten s x) := by
  unfold isWritten
  rw [openFrame_buf]
  simp only [Memory.insertAll, lookup_insert]
  split_ifs <;> simp_all
  omega

theorem openFrame_wf {c : Byte} {s : State} (h : Memory.wf s.buf = true) :
    Memory.wf (openFrame c s).buf = true := by
  rw [openFrame_buf]
  exact insertAll_wf _ (by simp) (insertAll_wf _ (by simp) h)

/-- A builder's append after `open` never fails (rule R181). -/
theorem appendBytes_openFrame {bs : List Byte} (c : Byte) (s : State) (h : bs.length ≤ 251) :
    appendBytes bs (openFrame c s) = appended bs (openFrame c s) :=
  appendBytes_fits (by simp) (by simp) (by simp; omega)

/-! ## Extracting -/

/-- All that an extract can do (rule R161). -/
theorem extract_cases (w : Nat) (s : State) :
    (s.mode ≠ .rx ∧ extract w s = raise .illegalOp s) ∨
    (s.mode = .rx ∧ s.err = true ∧ extract w s = raise .frameUnusable s) ∨
    (s.mode = .rx ∧ s.err = false ∧ s.fend.toNat < s.pos.toNat + w ∧ extract w s = failFrame .extractUnderrun s) ∨
    (s.mode = .rx ∧ s.err = false ∧ s.pos.toNat + w ≤ s.fend.toNat ∧ extract w s = extracted w s) := by
  unfold extract
  split_ifs with h1 h2 h3
  · exact .inl ⟨h1, rfl⟩
  · exact .inr (.inl ⟨by simpa using h1, h2, rfl⟩)
  · exact .inr (.inr (.inl ⟨by simpa using h1, by simpa using h2, h3, rfl⟩))
  · exact .inr (.inr (.inr ⟨by simpa using h1, by simpa using h2, by omega, rfl⟩))

end Sys2Proof.Machine
end

