-- ==== Sys2Proof/Laws/Receive.lean ====
section
/-! SUPPORT. What the receive steps can do, said once (rules R146 to R152, R186, R192). -/

namespace Sys2Proof.Machine

/-! ## The body step -/

/-- The body step changes the buffer, the queue, the end and the cursor before the receive completes (rule R149). -/
theorem bodyTaken_frame (s : State) :
    bodyTaken s =
      { s with buf := (bodyTaken s).buf, rxq := s.rxq.drop s.rxlen.toNat,
               fend := BitVec.ofNat 8 (3 + s.rxlen.toNat), pos := 3 } := rfl

theorem bodyTaken_byte_inside {s : State} {k : Nat} (hq : k < s.rxq.length) (hk : k < s.rxlen.toNat) :
    bufByte (bodyTaken s) (3 + k) = s.rxq[k] := by
  have h : k < (s.rxq.take s.rxlen.toNat).length := by simp; omega
  have := bufByte_memWrite_inside
    (s := { s with rxq := s.rxq.drop s.rxlen.toNat, fend := BitVec.ofNat 8 (3 + s.rxlen.toNat), pos := 3 })
    (a := 3) h
  simpa [bodyTaken] using this

theorem bodyTaken_byte_outside {s : State} {x : Nat} (h : x < 3 ∨ 3 + s.rxlen.toNat ≤ x) :
    bufByte (bodyTaken s) x = bufByte s x := by
  refine (bufByte_memWrite_outside ?_).trans (bufByte_congr rfl rfl x)
  simp only [config_cmdOff, List.length_take]
  omega

theorem bodyTaken_written {s : State} {x : Nat} (hq : s.rxlen.toNat ≤ s.rxq.length) :
    isWritten (bodyTaken s) x = (decide (3 ≤ x ∧ x < 3 + s.rxlen.toNat) || isWritten s x) := by
  refine isWritten_memWrite.trans ?_
  rw [isWritten_congr (s := s) rfl, List.length_take, Nat.min_eq_left hq]
  rfl

theorem bodyTaken_wf {s : State} (hl : s.rxlen.toNat ≤ 252) (h : Memory.wf s.buf = true) :
    Memory.wf (bodyTaken s).buf = true :=
  memWrite_wf (s := { s with
      rxq := s.rxq.drop s.rxlen.toNat, fend := BitVec.ofNat 8 (3 + s.rxlen.toNat), pos := 3 })
    (by simp only [config_cmdOff, config_cap, List.length_take]; omega) h

theorem rxBody_of_le {s : State} (h : s.rxlen.toNat ≤ 252) : rxBody s = .next (rxComplete (bodyTaken s)) := by
  unfold rxBody
  rw [if_neg]
  simp only [config_cap]; omega

theorem rxBody_next {s t : State} (h : rxBody s = .next t) :
    s.rxlen.toNat ≤ 252 ∧ t = rxComplete (bodyTaken s) := by
  unfold rxBody at h
  split at h
  · cases h
  · rename_i hn
    simp only [config_cap] at hn
    injection h with h
    exact ⟨by omega, h.symm⟩

/-! ## Completion -/

/-- What the completion of a receive can do (rule R152): OK at the cursor it has when no check is pending, OK at the first
data item when the check succeeds, RESPONSE_MISMATCH when it fails. -/
theorem rxComplete_cases (s : State) :
    (s.rchk = .none ∧
      rxComplete s = { s with rxst := .idle, rchk := .none, status := .ok, data := 0 }) ∨
    (s.rchk ≠ .none ∧ ∃ p, p + 3 ≤ 11 ∧ p ≤ s.fend.toNat ∧
      rxComplete s = { s with rxst := .idle, rchk := .none, pos := BitVec.ofNat 8 p, status := .ok, data := 0 }) ∨
    (s.rchk ≠ .none ∧
      rxComplete s =
        { s with rxst := .idle, rchk := .none, err := true, ecode := .responseMismatch,
                 status := .responseMismatch, data := 0 }) := by
  have hw := countWidth_cases s.par.countBytes
  unfold rxComplete
  cases hk : s.rchk with
  | none => exact .inl ⟨rfl, rfl⟩
  | reg r c =>
    by_cases hok : regResponseOk r c { s with rxst := .idle, rchk := .none } = true
    · refine .inr (.inl ⟨by simp, 5 + countWidth s.par.countBytes, by omega, ?_, ?_⟩)
      · simp only [regResponseOk, Bool.and_eq_true, decide_eq_true_eq] at hok; omega
      · simp only [checkReg, hok, if_true]; rfl
    · refine .inr (.inr ⟨by simp, ?_⟩)
      simp only [checkReg, hok]; rfl
  | ram v c =>
    by_cases hok : ramResponseOk v c { s with rxst := .idle, rchk := .none } = true
    · refine .inr (.inl ⟨by simp, 6 + countWidth s.par.countBytes, by omega, ?_, ?_⟩)
      · simp only [ramResponseOk, Bool.and_eq_true, decide_eq_true_eq] at hok; omega
      · simp only [checkRam, hok, if_true]; rfl
    · refine .inr (.inr ⟨by simp, ?_⟩)
      simp only [checkRam, hok]; rfl

/-- Completion writes no byte, pops nothing, and leaves every other agent alone. -/
theorem rxComplete_frame (s : State) :
    rxComplete s =
      { s with rxst := .idle, rchk := .none, pos := (rxComplete s).pos, err := (rxComplete s).err,
               ecode := (rxComplete s).ecode, status := (rxComplete s).status, data := 0 } := by
  rcases rxComplete_cases s with ⟨_, h⟩ | ⟨_, p, _, _, h⟩ | ⟨_, h⟩ <;> rw [h]

/-! ## The timeout -/

theorem timeoutEnabled_iff (s : State) :
    timeoutEnabled s = true ↔
      (s.rxst = .len ∧ s.rxq = []) ∨ (s.rxst = .body ∧ s.rxq.length < s.rxlen.toNat) := by
  unfold timeoutEnabled
  cases h : s.rxst <;> simp [rxHas, bodyQueued]

theorem bodyQueued_iff (s : State) : bodyQueued s = true ↔ s.rxlen.toNat ≤ s.rxq.length := by
  simp [bodyQueued, rxHas]

/-! ## The wire commands -/

/-- All that a wire command's meaning can do (log 9). -/
theorem takeFrame_cases (c : Byte) (s : State) :
    (frameLedBy c s = true ∧ takeFrame c s = rxBody s) ∨
    (frameLedBy c s = false ∧ busy s = true ∧ takeFrame c s = .next s) ∨
    (frameLedBy c s = false ∧ busy s = false ∧ takeFrame c s = .next (raise .illegalOp s)) := by
  unfold takeFrame
  cases h1 : frameLedBy c s <;> cases h2 : busy s <;> simp

theorem frameLedBy_iff (c : Byte) (s : State) :
    frameLedBy c s = true ↔
      s.rxst = .body ∧ s.rxlen.toNat ≤ s.rxq.length ∧ s.rxlen ≠ 0 ∧ s.rxq.head? = some c := by
  simp [frameLedBy, bodyQueued_iff, and_assoc]

end Sys2Proof.Machine
end

