-- ==== Sys2Proof/Laws/Exec.lean ====
section
/-! SUPPORT. What an instruction can do, said once over the groups of rule R86: every proof about all instructions starts
from `exec_shape`. -/

namespace Sys2Proof.Machine

open Sys2Proof.Safety

/-- A request builder's state: the frame opened, the payload appended, the latch written by the read requests
(rules R181 to R193). -/
def builtRequest (i : Instr) (s : State) : State :=
  match i with
  | .wregReq r => appendBytes [r] (openFrame Config.cmdWriteRegister s)
  | .rregReq r c => latchRequest .reg (zext16 r) c
      (appendBytes (encCnt s.par.countBytes c) (appendBytes [r] (openFrame Config.cmdReadRegister s)))
  | .wramReq v => appendBytes (be16 v) (openFrame Config.cmdWriteRam s)
  | .rramReq v c => latchRequest .ram v c
      (appendBytes (encCnt s.par.countBytes c) (appendBytes (be16 v) (openFrame Config.cmdReadRam s)))
  | .wcurveReq m => appendBytes [m] (openFrame Config.cmdWriteCurve s)
  | _ => s

/-- The groups of instructions, each with the shared operation it is: what an instruction `i` in a state `s` can answer. -/
inductive ExecShape (s : State) : Instr → Result → Prop where
  | reset : ExecShape s .reset (.next (returnOk 0 (resetFrame s)))
  | resetCmd (c : Byte) : ExecShape s (.resetCmd c) (.next (returnOk 0 (openFrame c s)))
  | append {i : Instr} (bs : List Byte) (hb : appendBytesOf i = some bs) (hw : i.wf = true) (hl : bs.length ≤ 255) :
      ExecShape s i (.next (appendBytes bs s))
  | longText {i : Instr} (bs : List Byte) (hb : appendBytesOf i = some bs) (hw : i.wf = false) :
      ExecShape s i (.next (raise .illegalOp s))
  | send (log : Bool) : ExecShape s (.send log) (execSend log s)
  | available (n : Byte) : ExecShape s (.available n) (execAvailable n s)
  | receive {i : Instr} (chk : RxCheck) (hr : isReceive i = true) (hl : illegalHere s i = false) :
      ExecShape s i (.next (rxStart chk s))
  | noRequest {i : Instr} (hr : isReceive i = true) (hl : illegalHere s i = true) :
      ExecShape s i (.next (raise .illegalOp s))
  | extract {i : Instr} (w : Nat) (hw : extractWidthOf i = some w) (h12 : w = 1 ∨ w = 2) :
      ExecShape s i (.next (extract w s))
  | request {i : Instr} (f : FrameShape) (hf : requestOf i = some f) :
      ExecShape s i (.next (returnOk 0 (builtRequest i s)))
  | wire {i : Instr} (c : Byte) (hc : wireCommandOf i = some c) : ExecShape s i (takeFrame c s)

theorem textFits_iff (t : List Byte) : textFits t = true ↔ t.length ≤ 255 := by
  unfold textFits
  exact decide_eq_true_iff

theorem latchHolds_reg (s : State) : latchHolds .reg s = !illegalHere s .rregRespMatch := by
  simp [latchHolds, illegalHere]

theorem latchHolds_ram (s : State) : latchHolds .ram s = !illegalHere s .rramRespMatch := by
  simp [latchHolds, illegalHere]

/-- Every instruction is in one of these groups. -/
theorem exec_shape (i : Instr) (s : State) : ExecShape s i (exec i s) := by
  cases i
  case reset => exact .reset
  case resetCmd c => exact .resetCmd c
  case appendU8 v => exact .append _ rfl rfl (by simp)
  case appendU16 v => exact .append _ rfl rfl (by simp)
  case appendPage v => exact .append _ rfl rfl (by simp)
  case appendReg v => exact .append _ rfl rfl (by simp)
  case appendVar v => exact .append _ rfl rfl (by simp)
  case appendText t =>
    simp only [exec, execAppendText]
    split
    · rename_i h; exact .append _ rfl h ((textFits_iff t).1 h)
    · rename_i h; exact .longText t rfl (by simpa [Instr.wf] using h)
  case appendTrunc b t =>
    simp only [exec, execAppendTrunc]
    split
    · rename_i h
      have := (textFits_iff t).1 h
      exact .append _ rfl h (by simp only [List.length_take]; omega)
    · rename_i h; exact .longText _ rfl (by simpa [Instr.wf] using h)
  case send log => exact .send log
  case available n => exact .available n
  case receive => exact .receive _ rfl rfl
  case rregResp r c => exact .receive _ rfl rfl
  case rramResp v c => exact .receive _ rfl rfl
  case rregRespMatch =>
    simp only [exec, execRregRespMatch, latchHolds_reg]
    split
    · rename_i h; exact .receive _ rfl (by simpa using h)
    · rename_i h; exact .noRequest rfl (by simpa using h)
  case rramRespMatch =>
    simp only [exec, execRramRespMatch, latchHolds_ram]
    split
    · rename_i h; exact .receive _ rfl (by simpa using h)
    · rename_i h; exact .noRequest rfl (by simpa using h)
  case extractU8 => exact .extract 1 rfl (.inl rfl)
  case extractCmd => exact .extract 1 rfl (.inl rfl)
  case extractReg => exact .extract 1 rfl (.inl rfl)
  case extractU16 => exact .extract 2 rfl (.inr rfl)
  case extractAction => exact .extract 2 rfl (.inr rfl)
  case extractVar => exact .extract 2 rfl (.inr rfl)
  case wireWriteRegister => exact .wire _ rfl
  case wireReadRegister => exact .wire _ rfl
  case wireWriteRam => exact .wire _ rfl
  case wireReadRam => exact .wire _ rfl
  case wireWriteCurve => exact .wire _ rfl
  all_goals exact .request _ rfl

/-- What a send can do (rule R140). -/
theorem execSend_cases (log : Bool) (s : State) :
    (s.mode ≠ .tx ∧ execSend log s = .next (raise .illegalOp s)) ∨
    (s.mode = .tx ∧ s.err = true ∧ execSend log s = .next (raise .frameUnusable s)) ∨
    (s.mode = .tx ∧ s.err = false ∧ s.pos.toNat < 4 ∧ execSend log s = .next (raise .incompleteFrame s)) ∨
    (s.mode = .tx ∧ s.err = false ∧ 4 ≤ s.pos.toNat ∧ execSend log s = .next (sendFrame log s)) := by
  unfold execSend
  split_ifs with h1 h2 h3
  · exact .inl ⟨h1, rfl⟩
  · exact .inr (.inl ⟨by simpa using h1, h2, rfl⟩)
  · exact .inr (.inr (.inl ⟨by simpa using h1, by simpa using h2, h3, rfl⟩))
  · exact .inr (.inr (.inr ⟨by simpa using h1, by simpa using h2, by omega, rfl⟩))

/-- The bytes a send pushes: `BUF[0 .. POS-1]` with the length byte finalised (rule R140). -/
def sentBytes (s : State) : List Byte :=
  memRead (memWrite Config.lenOff [lengthByte s.pos.toNat] s) 0 s.pos.toNat

theorem sentBytes_length (s : State) : (sentBytes s).length = s.pos.toNat := memRead_length _ _ _

theorem sentBytes_getElem (s : State) (k : Nat) (h : k < (sentBytes s).length) :
    (sentBytes s)[k] = if k = 2 then lengthByte s.pos.toNat else bufByte s k := by
  have h0 : (sentBytes s)[k] = bufByte (memWrite Config.lenOff [lengthByte s.pos.toNat] s) (0 + k) :=
    memRead_getElem _ _ _ _ h
  rw [h0, Nat.zero_add]
  split_ifs with h2
  · subst h2
    exact bufByte_memWrite_inside (s := s) (a := 2) (k := 0) (bs := [lengthByte s.pos.toNat]) (by simp)
  · exact bufByte_memWrite_outside (by simp only [config_lenOff, List.length_singleton]; omega)

/-- A send changes offset 2 of the buffer, the streams and the result, and nothing else (rules R140, R141). -/
theorem sendFrame_frame (log : Bool) (s : State) :
    sendFrame log s =
      { s with
        buf := Memory.insertAll s.buf 2 [lengthByte s.pos.toNat], txs := s.txs ++ sentBytes s,
        logs := if log && s.par.logPresent then s.logs ++ sentBytes s else s.logs, status := .ok, data := 0 } := by
  unfold sendFrame logPush
  cases log <;> cases h : s.par.logPresent <;> simp [h, returnOk, complete, txPush, memWrite, sentBytes]

end Sys2Proof.Machine
end

