-- ==== Sys2Proof/Laws/PerInstr.lean ====
section
/-! SUPPORT. One family of statements, one lemma for each instruction: the encoder's word lies in the table row of the
instruction's own mnemonic, or is the command byte of its wire command row (rules R85, R86, R91). -/

namespace Sys2Proof.Laws

open Sys2Proof.Safety

/-- The code of an instruction is in its own row of the opcode table. -/
def EncodingRow.Statement (i : Instr) : Prop :=
  match wireCommandOf i with
  | some c => encode i = .wire c
  | none => ∃ w t, encode i = .opw w t ∧ ∃ r ∈ opwRows, r.mnemonic = mnemonicOf i ∧ r.holds w = true

/-- A row whose value and mask are packed from fields holds of a packed word when each field does. -/
theorem row_holds {m : String} {v k : OpWord} {o : Byte} {a : Half} {b : Byte} (ov : Byte) (av : Half) (bv : Byte)
    (ok : Byte) (ak : Half) (bk : Byte) (hv : v = packWord ov av bv) (hk : k = packWord ok ak bk)
    (h : o &&& ok = ov ∧ a &&& ak = av ∧ b &&& bk = bv) :
    OpwRow.holds ⟨m, v, k⟩ (packWord o a b) = true := by
  subst hv hk
  simp only [OpwRow.holds, decide_eq_true_eq, packWord_and, packWord_inj]
  exact h

/-- The high byte of a zero-extended count is the reserved byte (rules R83, R85). -/
theorem EncodingRow.count_reserved (c : Byte) : c.setWidth 16 &&& (0xFF00 : Half) = 0 := by
  apply BitVec.eq_of_getLsbD_eq
  intro i hi
  by_cases h : i < 8
  · have hm : (0xFF00 : Half).getLsbD i = false := by revert h; revert i; decide
    rw [BitVec.getLsbD_and, hm, Bool.and_false]; exact BitVec.getLsbD_zero.symm
  · have hc : c.getLsbD i = false := BitVec.getLsbD_of_ge c i (by omega)
    simp [hc]

theorem EncodingRow.reset : EncodingRow.Statement .reset :=
  ⟨_, _, rfl, _, by decide, rfl, row_holds 0x1 0x0 0x0 0xFF 0xFFFF 0xFF rfl rfl
    ⟨rfl, rfl, rfl⟩⟩

theorem EncodingRow.resetCmd (c : Byte) : EncodingRow.Statement (.resetCmd c) :=
  ⟨_, _, rfl, _, by decide, rfl, row_holds 0x2 0x0 0x0 0xFF 0xFFFF 0x0 rfl rfl
    ⟨rfl, rfl, BitVec.and_zero⟩⟩

theorem EncodingRow.appendU8 (v : Byte) : EncodingRow.Statement (.appendU8 v) :=
  ⟨_, _, rfl, _, by decide, rfl, row_holds 0x10 0x0 0x0 0xFF 0xFFFF 0x0 rfl rfl
    ⟨rfl, rfl, BitVec.and_zero⟩⟩

theorem EncodingRow.appendU16 (v : Half) : EncodingRow.Statement (.appendU16 v) :=
  ⟨_, _, rfl, _, by decide, rfl, row_holds 0x11 0x0 0x0 0xFF 0x0 0xFF rfl rfl
    ⟨rfl, BitVec.and_zero, rfl⟩⟩

theorem EncodingRow.appendText (t : List Byte) : EncodingRow.Statement (.appendText t) :=
  ⟨_, _, rfl, _, by decide, rfl, row_holds 0x12 0x0 0x0 0xFF 0xFFFF 0xFF rfl rfl
    ⟨rfl, rfl, rfl⟩⟩

theorem EncodingRow.appendTrunc (b : Byte) (t : List Byte) : EncodingRow.Statement (.appendTrunc b t) :=
  ⟨_, _, rfl, _, by decide, rfl, row_holds 0x13 0x0 0x0 0xFF 0xFFFF 0x0 rfl rfl
    ⟨rfl, rfl, BitVec.and_zero⟩⟩

theorem EncodingRow.appendPage (p : Byte) : EncodingRow.Statement (.appendPage p) :=
  ⟨_, _, rfl, _, by decide, rfl, row_holds 0x14 0x0 0x0 0xFF 0xFFFF 0x0 rfl rfl
    ⟨rfl, rfl, BitVec.and_zero⟩⟩

theorem EncodingRow.appendReg (r : Byte) : EncodingRow.Statement (.appendReg r) :=
  ⟨_, _, rfl, _, by decide, rfl, row_holds 0x15 0x0 0x0 0xFF 0xFFFF 0x0 rfl rfl
    ⟨rfl, rfl, BitVec.and_zero⟩⟩

theorem EncodingRow.appendVar (v : Half) : EncodingRow.Statement (.appendVar v) :=
  ⟨_, _, rfl, _, by decide, rfl, row_holds 0x16 0x0 0x0 0xFF 0x0 0xFF rfl rfl
    ⟨rfl, BitVec.and_zero, rfl⟩⟩

theorem EncodingRow.send (log : Bool) : EncodingRow.Statement (.send log) :=
  ⟨_, _, rfl, _, by decide, rfl, row_holds 0x20 0x0 0x0 0xFF 0xFFFF 0xFE rfl rfl
    ⟨rfl, rfl, by cases log <;> rfl⟩⟩

theorem EncodingRow.available (n : Byte) : EncodingRow.Statement (.available n) :=
  ⟨_, _, rfl, _, by decide, rfl, row_holds 0x21 0x0 0x0 0xFF 0xFFFF 0x0 rfl rfl
    ⟨rfl, rfl, BitVec.and_zero⟩⟩

theorem EncodingRow.receive : EncodingRow.Statement .receive :=
  ⟨_, _, rfl, _, by decide, rfl, row_holds 0x22 0x0 0x0 0xFF 0xFFFF 0xFF rfl rfl
    ⟨rfl, rfl, rfl⟩⟩

theorem EncodingRow.extractU8 : EncodingRow.Statement .extractU8 :=
  ⟨_, _, rfl, _, by decide, rfl, row_holds 0x30 0x0 0x0 0xFF 0xFFFF 0xFF rfl rfl
    ⟨rfl, rfl, rfl⟩⟩

theorem EncodingRow.extractU16 : EncodingRow.Statement .extractU16 :=
  ⟨_, _, rfl, _, by decide, rfl, row_holds 0x31 0x0 0x0 0xFF 0xFFFF 0xFF rfl rfl
    ⟨rfl, rfl, rfl⟩⟩

theorem EncodingRow.extractAction : EncodingRow.Statement .extractAction :=
  ⟨_, _, rfl, _, by decide, rfl, row_holds 0x32 0x0 0x0 0xFF 0xFFFF 0xFF rfl rfl
    ⟨rfl, rfl, rfl⟩⟩

theorem EncodingRow.extractCmd : EncodingRow.Statement .extractCmd :=
  ⟨_, _, rfl, _, by decide, rfl, row_holds 0x33 0x0 0x0 0xFF 0xFFFF 0xFF rfl rfl
    ⟨rfl, rfl, rfl⟩⟩

theorem EncodingRow.extractReg : EncodingRow.Statement .extractReg :=
  ⟨_, _, rfl, _, by decide, rfl, row_holds 0x34 0x0 0x0 0xFF 0xFFFF 0xFF rfl rfl
    ⟨rfl, rfl, rfl⟩⟩

theorem EncodingRow.extractVar : EncodingRow.Statement .extractVar :=
  ⟨_, _, rfl, _, by decide, rfl, row_holds 0x35 0x0 0x0 0xFF 0xFFFF 0xFF rfl rfl
    ⟨rfl, rfl, rfl⟩⟩

theorem EncodingRow.wregReq (r : Byte) : EncodingRow.Statement (.wregReq r) :=
  ⟨_, _, rfl, _, by decide, rfl, row_holds 0x40 0x0 0x0 0xFF 0xFFFF 0x0 rfl rfl
    ⟨rfl, rfl, BitVec.and_zero⟩⟩

theorem EncodingRow.rregReq (r : Byte) (c : Byte) : EncodingRow.Statement (.rregReq r c) :=
  ⟨_, _, rfl, _, by decide, rfl, row_holds 0x41 0x0 0x0 0xFF 0xFF00 0x0 rfl rfl
    ⟨rfl, EncodingRow.count_reserved _, BitVec.and_zero⟩⟩

theorem EncodingRow.rregResp (r : Byte) (c : Byte) : EncodingRow.Statement (.rregResp r c) :=
  ⟨_, _, rfl, _, by decide, rfl, row_holds 0x42 0x0 0x0 0xFF 0xFF00 0x0 rfl rfl
    ⟨rfl, EncodingRow.count_reserved _, BitVec.and_zero⟩⟩

theorem EncodingRow.rregRespMatch : EncodingRow.Statement .rregRespMatch :=
  ⟨_, _, rfl, _, by decide, rfl, row_holds 0x43 0x0 0x0 0xFF 0xFFFF 0xFF rfl rfl
    ⟨rfl, rfl, rfl⟩⟩

theorem EncodingRow.wramReq (v : Half) : EncodingRow.Statement (.wramReq v) :=
  ⟨_, _, rfl, _, by decide, rfl, row_holds 0x44 0x0 0x0 0xFF 0x0 0xFF rfl rfl
    ⟨rfl, BitVec.and_zero, rfl⟩⟩

theorem EncodingRow.rramReq (v : Half) (c : Byte) : EncodingRow.Statement (.rramReq v c) :=
  ⟨_, _, rfl, _, by decide, rfl, row_holds 0x45 0x0 0x0 0xFF 0x0 0x0 rfl rfl
    ⟨rfl, BitVec.and_zero, BitVec.and_zero⟩⟩

theorem EncodingRow.rramResp (v : Half) (c : Byte) : EncodingRow.Statement (.rramResp v c) :=
  ⟨_, _, rfl, _, by decide, rfl, row_holds 0x46 0x0 0x0 0xFF 0x0 0x0 rfl rfl
    ⟨rfl, BitVec.and_zero, BitVec.and_zero⟩⟩

theorem EncodingRow.rramRespMatch : EncodingRow.Statement .rramRespMatch :=
  ⟨_, _, rfl, _, by decide, rfl, row_holds 0x47 0x0 0x0 0xFF 0xFFFF 0xFF rfl rfl
    ⟨rfl, rfl, rfl⟩⟩

theorem EncodingRow.wcurveReq (m : Byte) : EncodingRow.Statement (.wcurveReq m) :=
  ⟨_, _, rfl, _, by decide, rfl, row_holds 0x48 0x0 0x0 0xFF 0xFFFF 0x0 rfl rfl
    ⟨rfl, rfl, BitVec.and_zero⟩⟩

theorem EncodingRow.wireWriteRegister : EncodingRow.Statement .wireWriteRegister := rfl

theorem EncodingRow.wireReadRegister : EncodingRow.Statement .wireReadRegister := rfl

theorem EncodingRow.wireWriteRam : EncodingRow.Statement .wireWriteRam := rfl

theorem EncodingRow.wireReadRam : EncodingRow.Statement .wireReadRam := rfl

theorem EncodingRow.wireWriteCurve : EncodingRow.Statement .wireWriteCurve := rfl

end Sys2Proof.Laws
end

