-- ==== Sys2Proof/Laws/Step.lean ====
section
/-! SUPPORT. What a step can do, said once: every invariant of the machine is derived from `step_cases`. -/

namespace Sys2Proof.Machine

open Sys2Proof.Safety

/-- The instruction FE's own move would run in a state, if it runs one (the state without its schedule). -/
def feInstr (s : State) : Option Instr :=
  match s.rxst with
  | .idle =>
    match s.caller with
    | [] => none
    | op :: _ => (decode (.opw op.opw op.text)).toOption
  | .body => if bodyQueued s then frameCommand s else none
  | .huntA => none
  | .huntB => none
  | .len => none

theorem nextInstr_eq (s : State) : nextInstr s = if feMoves s then feInstr s else none := by
  unfold nextInstr feInstr
  split <;> rfl

/-- The meaning of the wire command at the head of a queued body is the body step (rule R92). -/
theorem frameCommand_exec {s : State} {i : Instr} (hr : s.rxst = .body) (hq : bodyQueued s = true)
    (hf : frameCommand s = some i) : exec i s = rxBody s := by
  unfold frameCommand at hf
  by_cases hl : s.rxlen = 0
  · simp [hl] at hf
  · simp only [hl, if_false] at hf
    cases hx : s.rxq with
    | nil => simp [hx] at hf
    | cons b q =>
      simp only [hx, decode, decodeWire] at hf
      have hled : frameLedBy b s = true := by
        rw [frameLedBy_iff]; exact ⟨hr, (bodyQueued_iff s).1 hq, hl, by simp [hx]⟩
      have key : takeFrame b s = rxBody s := by simp [takeFrame, hled]
      split_ifs at hf with h1 h2 h3 h4 h5 <;> cases hf <;> subst_vars <;> exact key

/-- The instruction at the head of a queued body is a wire command (rule R91). -/
theorem frameCommand_wire {s : State} {i : Instr} (hf : frameCommand s = some i) :
    ∃ c, wireCommandOf i = some c := by
  unfold frameCommand at hf
  by_cases hl : s.rxlen = 0
  · simp [hl] at hf
  · simp only [hl, if_false] at hf
    cases hx : s.rxq with
    | nil => simp [hx] at hf
    | cons b q =>
      simp only [hx, decode, decodeWire] at hf
      split_ifs at hf <;> cases hf <;> exact ⟨_, rfl⟩

/-- What FE's own move can do: wait, run an instruction, complete an undecodable word with ILLEGAL_OP, take one step of
the header hunt or of the length, or the body step for a frame with no named command. -/
theorem feTurn_cases (s : State) :
    (feInstr s = none ∧ feTurn s = .next s) ∨
    (s.rxst = .idle ∧ ∃ op rest i, s.caller = op :: rest ∧ decode (.opw op.opw op.text) = .ok i ∧
      feInstr s = some i ∧ feTurn s = exec i { s with caller := rest }) ∨
    (s.rxst = .idle ∧ feInstr s = none ∧ ∃ op rest, s.caller = op :: rest ∧
      feTurn s = .next (raise .illegalOp { s with caller := rest })) ∨
    (s.rxst = .huntA ∧ feInstr s = none ∧ feTurn s = .next (huntAStep s)) ∨
    (s.rxst = .huntB ∧ feInstr s = none ∧ feTurn s = .next (huntBStep s)) ∨
    (s.rxst = .len ∧ feInstr s = none ∧ feTurn s = .next (lenStep s)) ∨
    (s.rxst = .body ∧ s.rxlen.toNat ≤ s.rxq.length ∧ (∀ i, feInstr s = some i → ∃ c, wireCommandOf i = some c) ∧
      feTurn s = rxBody s) := by
  have hall : s.rxst = .idle ∨ s.rxst = .huntA ∨ s.rxst = .huntB ∨ s.rxst = .len ∨ s.rxst = .body := by
    cases s.rxst <;> simp
  rcases hall with hr | hr | hr | hr | hr
  · have hf : feTurn s = acceptOp s := by simp only [feTurn, hr]
    rcases hc : s.caller with _ | ⟨op, rest⟩
    · exact .inl ⟨by simp only [feInstr, hr, hc], by rw [hf]; simp only [acceptOp, hc]⟩
    · rcases hd : decode (.opw op.opw op.text) with e | i
      · refine .inr (.inr (.inl ⟨hr, ?_, op, rest, rfl, ?_⟩))
        · simp only [feInstr, hr, hc, hd]; rfl
        · rw [hf]; simp only [acceptOp, hc, runCode, hd]
      · refine .inr (.inl ⟨hr, op, rest, i, rfl, hd, ?_, ?_⟩)
        · simp only [feInstr, hr, hc, hd]; rfl
        · rw [hf]; simp only [acceptOp, hc, runCode, hd]
  · exact .inr (.inr (.inr (.inl ⟨hr, by simp only [feInstr, hr], by simp only [feTurn, hr]⟩)))
  · exact .inr (.inr (.inr (.inr (.inl ⟨hr, by simp only [feInstr, hr], by simp only [feTurn, hr]⟩))))
  · exact .inr (.inr (.inr (.inr (.inr (.inl ⟨hr, by simp only [feInstr, hr], by simp only [feTurn, hr]⟩)))))
  · by_cases hq : bodyQueued s = true
    · refine .inr (.inr (.inr (.inr (.inr (.inr ⟨hr, (bodyQueued_iff s).1 hq, ?_, ?_⟩)))))
      · intro i hi
        simp only [feInstr, hr, hq, if_true] at hi
        exact frameCommand_wire hi
      simp only [feTurn, hr, bodyTurn, hq, if_true]
      cases hf : frameCommand s with
      | none => rfl
      | some i => exact frameCommand_exec hr hq hf
    · exact .inl ⟨by simp [feInstr, hr, hq], by simp [feTurn, hr, bodyTurn, hq]⟩

/-- FE's move on a queued body is the body step, whatever command leads it (rule R92). -/
theorem feTurn_body {s : State} (hr : s.rxst = .body) (hq : s.rxlen.toNat ≤ s.rxq.length) :
    feTurn s = rxBody s := by
  have hq' := (bodyQueued_iff s).2 hq
  simp only [feTurn, hr, bodyTurn, hq', if_true]
  cases hf : frameCommand s with
  | none => rfl
  | some i => exact frameCommand_exec hr hq' hf

/-- What a step can do: use up a turn, and then FE's move, the timeout, a presented operation, arriving bytes or a block
reset. -/
theorem step_cases (s : State) :
    (feMoves s = true ∧ step s = feTurn { s with script := s.script.tail }) ∨
    (timeoutEnabled s = true ∧ s.script = [] ∧ feMoves s = false ∧ step s = .next (rxFail .timeout s)) ∨
    (∃ ts, s.script = .timeout :: ts ∧ feMoves s = false ∧
      step s = .next (timeoutStep { s with script := ts })) ∨
    (∃ op ts, s.script = .present op :: ts ∧ feMoves s = false ∧
      step s = .next { s with script := ts, caller := s.caller ++ [op] }) ∨
    (∃ bs ts, s.script = .arrive bs :: ts ∧ feMoves s = false ∧
      step s = .next { s with script := ts, rxq := s.rxq ++ bs }) ∨
    (∃ ts, s.script = .blockReset :: ts ∧ feMoves s = false ∧ step s = .next (blockReset { s with script := ts })) := by
  unfold step nextMove feMoves
  cases hs : s.script with
  | nil =>
    cases ht : timeoutEnabled s
    · refine .inl ⟨by simp, ?_⟩
      have : s = { s with script := [] } := by rw [← hs]
      simp only [List.tail_nil, ← this]; rfl
    · exact .inr (.inl ⟨rfl, rfl, by simp, by simp [timeoutStep, ht]⟩)
  | cons t ts =>
    cases t with
    | fe => exact .inl ⟨rfl, rfl⟩
    | timeout => exact .inr (.inr (.inl ⟨ts, rfl, rfl, rfl⟩))
    | present op => exact .inr (.inr (.inr (.inl ⟨op, ts, rfl, rfl, rfl⟩)))
    | arrive bs => exact .inr (.inr (.inr (.inr (.inl ⟨bs, ts, rfl, rfl, rfl⟩))))
    | blockReset => exact .inr (.inr (.inr (.inr (.inr ⟨ts, rfl, rfl, rfl⟩))))

/-- A run of several steps takes its first step and runs on. -/
theorem core_run_next {k : Nat} {s t : State} (h : step s = .next t) :
    Host.Core.run core (k + 1) s = Host.Core.run core k t := by
  have h' : core.step s = .next t := h
  exact (Host.Core.run.eq_2 core s k).trans (by rw [h'])

end Sys2Proof.Machine
end

