-- ==== Sys2Proof/Tests/Slice0.lean ====
section
/-! SUPPORT. Tests: the well-formedness checks, one word of every row decoded, single steps from the vectors of
95_test_vectors.md, and a witness of the hypotheses of every statement that has some. -/

namespace Sys2Proof.Tests

open Sys2Proof.Machine Sys2Proof.Safety

/-! ## Well-formedness -/

/-- Rule R84: the check refuses a text of 256 bytes. -/
theorem test_long_text_refused : (Instr.appendText (List.replicate 256 0x20)).wf = false := by
  rw [Instr.wf, textFits, List.length_replicate]; decide

/-- Rule R84: the check refuses a truncated text of 256 bytes, whatever the budget. -/
theorem test_long_truncated_text_refused : (Instr.appendTrunc 2 (List.replicate 256 0x20)).wf = false := by
  rw [Instr.wf, textFits, List.length_replicate]; decide

/-- Rule R84: a text of 255 bytes can be presented. -/
theorem test_longest_text_admitted : (Instr.appendText (List.replicate 255 0x20)).wf = true := by
  rw [Instr.wf, textFits, List.length_replicate]; decide

/-! ## Decoding: words written out from rules R82, R83, R86, and command bytes of rule R91 -/

theorem test_decode_reset : decode (.opw 0x01000000#32 []) = .ok .reset := by decide
theorem test_decode_reset_cmd : decode (.opw 0x020000A7#32 []) = .ok (.resetCmd 0xA7) := by decide
theorem test_decode_append_u8 : decode (.opw 0x100000C1#32 []) = .ok (.appendU8 0xC1) := by decide
theorem test_decode_append_u16 : decode (.opw 0x11123400#32 []) = .ok (.appendU16 0x1234) := by decide
theorem test_decode_append_text : decode (.opw 0x12000000#32 [0x41, 0x42]) = .ok (.appendText [0x41, 0x42]) := by decide
theorem test_decode_append_trunc : decode (.opw 0x13000004#32 [0x48]) = .ok (.appendTrunc 4 [0x48]) := by decide
theorem test_decode_append_page : decode (.opw 0x14000007#32 []) = .ok (.appendPage 7) := by decide
theorem test_decode_append_reg : decode (.opw 0x15000003#32 []) = .ok (.appendReg 3) := by decide
theorem test_decode_append_var : decode (.opw 0x16100200#32 []) = .ok (.appendVar 0x1002) := by decide
theorem test_decode_send : decode (.opw 0x20000000#32 []) = .ok (.send false) := by decide
theorem test_decode_send_log : decode (.opw 0x20000001#32 []) = .ok (.send true) := by decide
theorem test_decode_available : decode (.opw 0x21000003#32 []) = .ok (.available 3) := by decide
theorem test_decode_receive : decode (.opw 0x22000000#32 []) = .ok .receive := by decide
theorem test_decode_extract_u8 : decode (.opw 0x30000000#32 []) = .ok .extractU8 := by decide
theorem test_decode_extract_u16 : decode (.opw 0x31000000#32 []) = .ok .extractU16 := by decide
theorem test_decode_extract_action : decode (.opw 0x32000000#32 []) = .ok .extractAction := by decide
theorem test_decode_extract_cmd : decode (.opw 0x33000000#32 []) = .ok .extractCmd := by decide
theorem test_decode_extract_reg : decode (.opw 0x34000000#32 []) = .ok .extractReg := by decide
theorem test_decode_extract_var : decode (.opw 0x35000000#32 []) = .ok .extractVar := by decide
theorem test_decode_wreg_req : decode (.opw 0x40000003#32 []) = .ok (.wregReq 3) := by decide
theorem test_decode_rreg_req : decode (.opw 0x41000203#32 []) = .ok (.rregReq 3 2) := by decide
theorem test_decode_rreg_resp : decode (.opw 0x42000203#32 []) = .ok (.rregResp 3 2) := by decide
theorem test_decode_rreg_resp_match : decode (.opw 0x43000000#32 []) = .ok .rregRespMatch := by decide
theorem test_decode_wram_req : decode (.opw 0x44200100#32 []) = .ok (.wramReq 0x2001) := by decide
theorem test_decode_rram_req : decode (.opw 0x45100102#32 []) = .ok (.rramReq 0x1001 2) := by decide
theorem test_decode_rram_resp : decode (.opw 0x46100102#32 []) = .ok (.rramResp 0x1001 2) := by decide
theorem test_decode_rram_resp_match : decode (.opw 0x47000000#32 []) = .ok .rramRespMatch := by decide
theorem test_decode_wcurve_req : decode (.opw 0x48000001#32 []) = .ok (.wcurveReq 1) := by decide
theorem test_decode_wire_write_register : decode (.wire 0b10000000#8) = .ok .wireWriteRegister := by decide
theorem test_decode_wire_read_register : decode (.wire 0b10000001#8) = .ok .wireReadRegister := by decide
theorem test_decode_wire_write_ram : decode (.wire 0b10000010#8) = .ok .wireWriteRam := by decide
theorem test_decode_wire_read_ram : decode (.wire 0b10000011#8) = .ok .wireReadRam := by decide
theorem test_decode_wire_write_curve : decode (.wire 0b10000100#8) = .ok .wireWriteCurve := by decide

/-- Vectors V40-3, V41-4, V42-9, V44-4, V60-1 to V60-3: reserved bits and reserved opcodes are refused by name. -/
theorem test_decode_reserved :
    decode (.opw 0x01000001#32 []) = .error .reservedBits ∧ decode (.opw 0x11123401#32 []) = .error .reservedBits ∧
    decode (.opw 0x20000002#32 []) = .error .reservedBits ∧ decode (.opw 0x41010203#32 []) = .error .reservedBits ∧
    decode (.opw 0x00000000#32 []) = .error .reservedOpcode ∧ decode (.opw 0xFF000000#32 []) = .error .reservedOpcode ∧
    decode (.opw 0x49000000#32 []) = .error .reservedOpcode ∧ decode (.wire 0x85#8) = .error .unnamedCommand := by
  decide

/-! ## Small states -/

/-- After `RESET_CMD c`. -/
def opened (c : Byte) : State :=
  { State.reset with buf := [(0, 0x5A), (1, 0xA5), (2, 1), (3, c)], pos := 4, mode := .tx }

/-- A received frame `5A A5 05 83 10 00 02 7F`, the cursor at offset `p`. -/
def received (p : Byte) : State :=
  { State.reset with
    buf := [(0, 0x5A), (1, 0xA5), (2, 5), (3, 0x83), (4, 0x10), (5, 0), (6, 2), (7, 0x7F)],
    pos := p, fend := 8, mode := .rx }

/-- In R_BODY with a body of `l` bytes awaited, a response check pending and bytes queued. -/
def awaiting (l : Byte) (chk : RxCheck) (q : List Byte) : State :=
  { State.reset with
    buf := [(0, 0x5A), (1, 0xA5), (2, l)], mode := .rx, rxst := .body, rxlen := l, rchk := chk, rxq := q }

/-- In another receive state, with bytes queued. -/
def hunting (r : RxState) (q : List Byte) : State :=
  { State.reset with buf := [(0, 0x5A), (1, 0xA5)], mode := .rx, rxst := r, rxq := q }

/-- The request latch holding a request. -/
def latched (k : ReqKind) (a : Half) (c : Byte) : State :=
  { State.reset with reqValid := true, reqKind := k, reqAddr := a, reqCnt := c }

/-- Whether an answer is a next state with a property. -/
def answers (r : Result) (p : State → Bool) : Bool :=
  match r with
  | .next s => p s
  | .fault _ => false
  | .refused _ => false

/-! ## One step of each instruction, from the vectors -/

/-- Vector V40-2. -/
theorem test_reset_keeps_latch : answers (exec .reset { received 7 with
    err := true, ecode := .responseMismatch, reqValid := true, reqKind := .ram, reqAddr := 0x1000, reqCnt := 2 })
    (fun t => flags t = 0x0180 ∧ t.pos = 0 ∧ t.fend = 0 ∧ t.buf = (received 7).buf) = true := by decide

/-- Vector V40-4. -/
theorem test_reset_cmd : answers (exec (.resetCmd 0x80) State.reset)
    (fun t => t.buf = [(0, 0x5A), (1, 0xA5), (2, 1), (3, 0x80)] ∧ t.pos = 4 ∧ flags t = 1) = true := by decide

/-- Vector V40-7. -/
theorem test_reset_cmd_clears_error : answers (exec (.resetCmd 0x82) { opened 0x80 with
    err := true, ecode := .bufferOverflow }) (fun t => t.err = false ∧ t.pos = 4) = true := by decide

/-- Vector V41-2 in a frame of four bytes: the byte, the cursor and the length. -/
theorem test_append_u8 : answers (exec (.appendU8 0x01) (opened 0x80))
    (fun t => bufByte t 4 = 1 ∧ t.pos = 5 ∧ bufByte t 2 = 2) = true := by decide

/-- Vector V41-10: the buffer is full. -/
theorem test_append_u8_full : answers (exec (.appendU8 0x00) { opened 0x82 with pos := 255 })
    (fun t => flags t = 0x000D ∧ t.pos = 255 ∧ t.buf = (opened 0x82).buf) = true := by decide

/-- Vector V41-3: the high byte first. -/
theorem test_append_u16 : answers (exec (.appendU16 0x1234) (opened 0x82))
    (fun t => bufByte t 4 = 0x12 ∧ bufByte t 5 = 0x34 ∧ t.pos = 6 ∧ bufByte t 2 = 3) = true := by decide

/-- Vector V41-12: no partial write at the end of the buffer. -/
theorem test_append_u16_no_room : answers (exec (.appendU16 0xABCD) { opened 0x82 with pos := 254 })
    (fun t => t.buf = (opened 0x82).buf ∧ t.pos = 254 ∧ t.status = .bufferOverflow) = true := by decide

/-- Vector V41-7, right after the command. -/
theorem test_append_text : answers (exec (.appendText [0x41, 0x42]) (opened 0x82))
    (fun t => bufByte t 4 = 0x41 ∧ bufByte t 5 = 0x42 ∧ bufByte t 2 = 3) = true := by decide

/-- Vector V41-8. -/
theorem test_append_empty_text : answers (exec (.appendText []) (opened 0x82))
    (fun t => t.pos = 4 ∧ bufByte t 2 = 1 ∧ t.status = .ok) = true := by decide

/-- Vector of S5: three of seven bytes. -/
theorem test_append_trunc : answers (exec (.appendTrunc 3 [0x41, 0x42, 0x43, 0x44, 0x45, 0x46, 0x47]) (opened 0x82))
    (fun t => t.pos = 7 ∧ bufByte t 6 = 0x43 ∧ isWritten t 7 = false) = true := by decide

/-- Vector V45-5: two bytes of room for five. -/
theorem test_append_trunc_no_room : answers (exec (.appendTrunc 5 [0x41, 0x42, 0x43, 0x44, 0x45, 0x46, 0x47])
    { opened 0x82 with pos := 253 }) (fun t => t.status = .bufferOverflow ∧ t.pos = 253) = true := by decide

/-- Vector V41-6, right after the command. -/
theorem test_append_page : answers (exec (.appendPage 0x07) (opened 0x80))
    (fun t => bufByte t 4 = 7 ∧ t.pos = 5 ∧ bufByte t 2 = 2) = true := by decide

/-- Vector V41-1. -/
theorem test_append_reg : answers (exec (.appendReg 0x03) (opened 0x80))
    (fun t => bufByte t 4 = 3 ∧ t.pos = 5 ∧ bufByte t 2 = 2) = true := by decide

/-- Vector V41-5. -/
theorem test_append_var : answers (exec (.appendVar 0x1000) (opened 0x83))
    (fun t => bufByte t 4 = 0x10 ∧ bufByte t 5 = 0 ∧ t.pos = 6) = true := by decide

/-- Vector V42-2. -/
theorem test_send : answers (exec (.send false) (opened 0x80))
    (fun t => t.txs = [0x5A, 0xA5, 1, 0x80] ∧ t.logs = [] ∧ t.pos = 4 ∧ t.mode = .tx) = true := by decide

/-- Vectors V42-5 and V42-5b: the log takes the same bytes when it is present. -/
theorem test_send_log : answers (exec (.send true) (opened 0x80)) (fun t => t.logs = [0x5A, 0xA5, 1, 0x80]) = true ∧
    answers (exec (.send true) { opened 0x80 with par := { State.reset.par with logPresent := false } })
      (fun t => t.txs = [0x5A, 0xA5, 1, 0x80] ∧ t.logs = []) = true := by decide

/-- Vector V42-11. -/
theorem test_available : answers (exec (.available 3) { State.reset with rxq := [0x5A, 0xA5] })
    (fun t => t.data = 0 ∧ t.rxq = [0x5A, 0xA5]) = true ∧
    answers (exec (.available 2) { State.reset with rxq := [0x5A, 0xA5] }) (fun t => t.data = 1) = true := by decide

/-- Rule R146: a receive starts by discarding the frame. -/
theorem test_receive : answers (exec .receive { opened 0x80 with err := true, ecode := .bufferOverflow })
    (fun t => t.mode = .rx ∧ t.pos = 0 ∧ t.err = false ∧ busy t ∧ t.rchk = .none) = true := by decide

/-- Vector V43-3. -/
theorem test_extract_u8 : answers (exec .extractU8 (received 6)) (fun t => t.data = 2 ∧ t.pos = 7) = true := by decide

/-- Vector V43-6: the end of the frame. -/
theorem test_extract_u8_end : answers (exec .extractU8 (received 8))
    (fun t => t.data = 0 ∧ t.pos = 8 ∧ flags t = 0x0036) = true := by decide

/-- Vector V43-4: the high byte first. -/
theorem test_extract_u16 : answers (exec .extractU16 (received 6)) (fun t => t.data = 0x027F ∧ t.pos = 8) = true := by
  decide

/-- Vector V43-8: one byte is left of two. -/
theorem test_extract_u16_end : answers (exec .extractU16 (received 7))
    (fun t => t.data = 0 ∧ t.pos = 7 ∧ t.status = .extractUnderrun) = true := by decide

/-- Vector V43-15, at offset 4. -/
theorem test_extract_action : answers (exec .extractAction (received 4)) (fun t => t.data = 0x1000 ∧ t.pos = 6) = true := by
  decide

/-- Vector V43-1. -/
theorem test_extract_cmd : answers (exec .extractCmd (received 3)) (fun t => t.data = 0x83 ∧ t.pos = 4) = true := by decide

/-- Vector V43-10: one byte, zero-extended. -/
theorem test_extract_reg : answers (exec .extractReg (received 7)) (fun t => t.data = 0x7F ∧ t.pos = 8) = true := by decide

/-- Vector V43-2. -/
theorem test_extract_var : answers (exec .extractVar (received 4)) (fun t => t.data = 0x1000 ∧ t.pos = 6) = true := by
  decide

/-- Vector V44-1. -/
theorem test_wreg_req : answers (exec (.wregReq 3) State.reset)
    (fun t => t.buf = [(0, 0x5A), (1, 0xA5), (2, 2), (3, 0x80), (4, 3)] ∧ t.pos = 5 ∧ flags t = 1) = true := by decide

/-- Vector V44-3. -/
theorem test_rreg_req : answers (exec (.rregReq 3 2) State.reset)
    (fun t => t.buf = [(0, 0x5A), (1, 0xA5), (2, 3), (3, 0x81), (4, 3), (5, 2)] ∧ flags t = 0x0081 ∧
      t.reqAddr = 3 ∧ t.reqCnt = 2) = true := by decide

/-- Rule R12: the count is two bytes on the wire when `COUNT_BYTES` is 2. -/
theorem test_rreg_req_wide_count : answers (exec (.rregReq 3 2)
    { State.reset with par := { State.reset.par with countBytes := .two } })
    (fun t => bufByte t 5 = 0 ∧ bufByte t 6 = 2 ∧ bufByte t 2 = 4) = true := by decide

/-- Vector V44-6, its start: the latch is not read. -/
theorem test_rreg_resp : answers (exec (.rregResp 3 2) State.reset) (fun t => t.rchk = .reg 3 2 ∧ busy t) = true := by
  decide

/-- Vectors V44-5 (its start) and V44-13. -/
theorem test_rreg_resp_match : answers (exec .rregRespMatch (latched .reg 3 2)) (fun t => t.rchk = .reg 3 2 ∧ busy t) = true ∧
    answers (exec .rregRespMatch (latched .ram 3 2)) (fun t => t.status = .illegalOp ∧ !busy t) = true := by decide

/-- Vector V44-15. -/
theorem test_wram_req : answers (exec (.wramReq 0x2010) State.reset)
    (fun t => t.buf = [(0, 0x5A), (1, 0xA5), (2, 3), (3, 0x82), (4, 0x20), (5, 0x10)] ∧ t.pos = 6) = true := by decide

/-- Vector V44-16. -/
theorem test_rram_req : answers (exec (.rramReq 0x1000 2) State.reset)
    (fun t => t.buf = [(0, 0x5A), (1, 0xA5), (2, 4), (3, 0x83), (4, 0x10), (5, 0), (6, 2)] ∧ flags t = 0x0181) = true := by
  decide

/-- Vector V44-23: one latch for both kinds. -/
theorem test_rram_req_replaces : answers (exec (.rramReq 0x0020 1) (latched .reg 3 2))
    (fun t => t.reqKind = .ram ∧ t.reqAddr = 0x20 ∧ t.reqCnt = 1) = true := by decide

/-- Vector V44-17, its start. -/
theorem test_rram_resp : answers (exec (.rramResp 0x1000 2) State.reset) (fun t => t.rchk = .ram 0x1000 2) = true := by
  decide

/-- Program P2's match (its start), and vector V44-12 for a RAM read. -/
theorem test_rram_resp_match : answers (exec .rramRespMatch (latched .ram 0x1000 2)) (fun t => t.rchk = .ram 0x1000 2) = true ∧
    answers (exec .rramRespMatch State.reset) (fun t => t.status = .illegalOp ∧ t.mode = .idle) = true := by decide

/-- Vector V44-22, its first operation. -/
theorem test_wcurve_req : answers (exec (.wcurveReq 1) State.reset)
    (fun t => t.buf = [(0, 0x5A), (1, 0xA5), (2, 2), (3, 0x84), (4, 1)] ∧ t.pos = 5) = true := by decide

/-- The last step of vector V42-14 with command 0x80: the body goes to offset 3 on, and no byte after it is popped. -/
theorem test_wire_write_register : answers (exec .wireWriteRegister (awaiting 2 .none [0x80, 7, 9]))
    (fun t => bufByte t 3 = 0x80 ∧ bufByte t 4 = 7 ∧ t.rxq = [9] ∧ t.fend = 5 ∧ t.pos = 3 ∧ flags t = 2) = true := by decide

/-- The last step of vectors V44-5 and V44-7: a matching register response, and one of another register. -/
theorem test_wire_read_register :
    answers (exec .wireReadRegister (awaiting 5 (.reg 3 2) [0x81, 3, 2, 0x11, 0x22]))
      (fun t => t.pos = 6 ∧ t.fend = 8 ∧ t.status = .ok) = true ∧
    answers (exec .wireReadRegister (awaiting 5 (.reg 3 2) [0x81, 4, 2, 0x11, 0x22]))
      (fun t => t.pos = 3 ∧ t.fend = 8 ∧ t.status = .responseMismatch ∧ t.rxq = []) = true := by decide

/-- Rule R152 with a check: a write-ram frame is no response. -/
theorem test_wire_write_ram : answers (exec .wireWriteRam (awaiting 1 (.ram 0 0) [0x82]))
    (fun t => t.status = .responseMismatch ∧ t.err ∧ bufByte t 3 = 0x82) = true := by decide

/-- The last step of vectors V44-17 and V44-20: a whole RAM response, and one with a byte missing. -/
theorem test_wire_read_ram :
    answers (exec .wireReadRam (awaiting 8 (.ram 0x1000 2) [0x83, 0x10, 0, 2, 0, 0x41, 0, 0x42]))
      (fun t => t.pos = 7 ∧ t.fend = 11 ∧ t.status = .ok) = true ∧
    answers (exec .wireReadRam (awaiting 7 (.ram 0x1000 2) [0x83, 0x10, 0, 2, 0, 0x41, 0]))
      (fun t => t.status = .responseMismatch) = true := by decide

/-- The last step of vector V42-14, and the same byte with no body awaited. -/
theorem test_wire_write_curve :
    answers (exec .wireWriteCurve (awaiting 2 .none [0x84, 7])) (fun t => t.fend = 5 ∧ t.pos = 3 ∧ t.rxq = []) = true ∧
    answers (exec .wireWriteCurve State.reset) (fun t => t.status = .illegalOp) = true := by decide

/-- Vector V42-22, its last step: the length byte 0xFD is stored, and the body stays queued. -/
theorem test_length_exceeded : answers (step (hunting .len [0xFD, 1, 2]))
    (fun t => bufByte t 2 = 0xFD ∧ t.rxq = [1, 2] ∧ flags t = 0x002E) = true := by decide

/-- Vector V42-24, its last step: the body is not popped. -/
theorem test_timeout : answers (step { awaiting 4 .none [0x81, 3] with script := [.timeout] })
    (fun t => t.rxq = [0x81, 3] ∧ flags t = 0x001E) = true := by decide

/-- Vector V70-1. -/
theorem test_block_reset : answers (step { awaiting 4 .none [0x81, 3] with script := [.blockReset], txs := [1] })
    (fun t => t.rxq = [0x81, 3] ∧ t.txs = [1] ∧ flags t = 0 ∧ t.status = .ok) = true := by decide

/-! ## Witnesses: states and operands that meet the hypotheses of the statements, clause by clause -/

/-- Witness for `DecodeEncodeRoundTrip`: an operation with operands at the ends of their ranges. -/
theorem test_witness_DecodeEncodeRoundTrip : (Instr.rramReq 0xFFFF 0xFF).wf = true ∧ (Instr.appendTrunc 255 [0]).wf = true := by
  decide

/-- Witness for `EachCodeHasOneMeaning`: a text operation, another operation with a text, and a wire command. -/
theorem test_witness_EachCodeHasOneMeaning :
    decode (.opw 0x13000000#32 [1]) = .ok (.appendTrunc 0 [1]) ∧ opcOf 0x13000000#32 = 0x13 ∧
    decode (.opw 0x4100FFFF#32 [1]) = .ok (.rregReq 0xFF 0xFF) ∧ decode (.wire 0x84) = .ok .wireWriteCurve := by decide

/-- Witness for `DecodingFollowsTheTable`: a row that holds and one that does not; two rows of one word, of which one
holds; a decoded word; a word of no row on the port. -/
theorem test_witness_DecodingFollowsTheTable :
    (∃ r ∈ opwRows, r.holds 0x020000FF#32 = true ∧ r.mnemonic = "RESET_CMD") ∧
    (∃ r ∈ opwRows, r.holds 0x020000FF#32 = false) ∧ ([] : List Byte).length ≤ 255 ∧
    decode (.opw 0x020000FF#32 []) = .ok (.resetCmd 0xFF) ∧
    (∀ r ∈ opwRows, r.holds 0x01000001#32 = false) ∧ State.reset.rxst = .idle := by decide

/-- A state with an operation on the port, FE's turn or nothing scheduled. -/
def presented (w : OpWord) (ts : List Turn) : State := { opened 0x80 with caller := [⟨w, []⟩], script := ts }

/-- Witness for `StepRunsThePresentedOperation`, both clauses, and for the last clause of `DecodingFollowsTheTable`. -/
theorem test_witness_StepRunsThePresentedOperation :
    (presented 0x100000FF [.fe]).rxst = .idle ∧ (presented 0x100000FF [.fe]).caller = [⟨0x100000FF, []⟩] ∧
    decode (.opw 0x100000FF#32 []) = .ok (.appendU8 0xFF) ∧ (presented 0x100000FF [.fe]).script = [.fe] ∧
    (presented 0x100000FF []).script = [] ∧
    answers (step (presented 0x100000FF [])) (fun t => bufByte t 4 = 0xFF ∧ t.caller = []) = true ∧
    answers (step (presented 0x01000001 [.fe])) (fun t => t.status = .illegalOp ∧ t.caller = []) = true := by decide

/-- Witness for `StepRunsTheWireCommand`, both clauses: the smallest body, and one with a byte after it. -/
theorem test_witness_StepRunsTheWireCommand :
    (awaiting 1 .none [0x80]).rxst = .body ∧ (awaiting 1 .none [0x80]).rxlen.toNat = 1 ∧
    (awaiting 2 .none [0x81, 7, 9]).rxlen.toNat ≤ (awaiting 2 .none [0x81, 7, 9]).rxq.length ∧
    decode (.wire 0x81) = .ok .wireReadRegister ∧
    answers (step { awaiting 2 .none [0x81, 7, 9] with script := [.fe] }) (fun t => t.rxq = [9] ∧ t.script = []) = true := by
  decide

/-- Witness for `PlacedInstructionRuns`: a word of each format. -/
theorem test_witness_PlacedInstructionRuns :
    decodeTableWord 32 0x100000FF = some (.appendU8 0xFF) ∧ decodeTableWord 8 0x84 = some .wireWriteCurve ∧
    answers (step (State.reset.withFetchWord 32 0x100000FF)) (fun t => bufByte t 0 = 0xFF ∧ t.caller = []) = true ∧
    answers (step (State.reset.withFetchWord 8 0x84)) (fun t => bufByte t 3 = 0x84 ∧ t.status = .ok) = true := by decide

/-- Witness for `PortAcceptsOnlyWhenNotBusy`, its three clauses. -/
theorem test_witness_PortAcceptsOnlyWhenNotBusy :
    busy { hunting .huntA [] with caller := [⟨0x01000000, []⟩] } = true ∧
    answers (step { hunting .huntA [] with caller := [⟨0x01000000, []⟩] }) (fun t => t.caller = [⟨0x01000000, []⟩]) = true ∧
    busy State.reset = false ∧ isReceive .reset = false ∧ isReceive .receive = true ∧
    answers (exec .reset State.reset) (fun _ => true) = true ∧ answers (exec .receive State.reset) busy = true ∧
    illegalHere State.reset .rregRespMatch = true := by decide

/-- Witness for `BlockResetEffect`. -/
theorem test_witness_BlockResetEffect : ({ received 5 with script := [.blockReset] } : State).script = .blockReset :: [] := rfl

/-- A frame of the builder meets the invariant, in mode TX. -/
theorem test_witness_FrameInv_tx : FrameInv (opened 0x80) :=
  ⟨by decide, by decide, by decide, by decide, by decide, by decide, by decide, by decide, by decide, by decide,
    by decide, by decide, by decide⟩

/-- A received frame meets the invariant, the cursor at its end, also when an extract has failed in it. -/
theorem test_witness_FrameInv_rx :
    FrameInv (received 8) ∧ FrameInv { received 8 with err := true, ecode := .extractUnderrun } :=
  ⟨⟨by decide, by decide, by decide, by decide, by decide, by decide, by decide, by decide, by decide, by decide,
    by decide, by decide, by decide⟩,
   ⟨by decide, by decide, by decide, by decide, by decide, by decide, by decide, by decide, by decide, by decide,
    by decide, by decide, by decide⟩⟩

/-- A receive awaiting a body of the largest length meets the invariant. -/
theorem test_witness_FrameInv_body : FrameInv (awaiting 252 (.reg 1 2) [0x81]) :=
  ⟨by decide, by decide, by decide, by decide, by decide, by decide, by decide, by decide, by decide, by decide,
    by decide, by decide, by decide⟩

/-- Witness for `StepKeepsFrameInv` and `InvariantStatesNeverStop`: a state with the invariant and its next state. -/
theorem test_witness_StepKeepsFrameInv : FrameInv (opened 0x80) ∧ step (opened 0x80) = .next (opened 0x80) :=
  ⟨test_witness_FrameInv_tx, rfl⟩

/-- Witness for `ReachableStatesSatisfyTheInvariants`: reset, and a state in mode RX one step later. -/
theorem test_witness_Reachable : ∃ s, Reachable s ∧ s.mode = .rx ∧ busy s = true :=
  ⟨rxStart .none { State.reset with script := [], caller := [] },
    .step (.start [] [⟨0x22000000, []⟩] [] State.reset.par) rfl, rfl, rfl⟩

/-- Witness for `AppendWritesItsBytes`: the last byte of the buffer, an append over offset 2, and one below it. -/
theorem test_witness_AppendWritesItsBytes :
    appendBytesOf (.appendU8 9) = some [9] ∧ (Instr.appendU8 9).wf = true ∧ (opened 0x80).mode ≠ .rx ∧
    (opened 0x80).err = false ∧ ({ opened 0x80 with pos := 254 } : State).pos.toNat + [(9 : Byte)].length = 255 ∧
    answers (exec (.appendU16 0x0102) { State.reset with pos := 1 })
      (fun t => bufByte t 1 = 1 ∧ bufByte t 2 = 0 ∧ t.pos = 3) = true ∧
    answers (exec (.appendU8 9) { State.reset with pos := 1 }) (fun t => bufByte t 1 = 9 ∧ !isWritten t 2) = true := by
  decide

/-- Witness for `AppendFailures`, its three clauses, the last one byte past the capacity. -/
theorem test_witness_AppendFailures :
    appendBytesOf (.appendPage 9) = some [9] ∧ (Instr.appendPage 9).wf = true ∧ (received 3).mode = .rx ∧
    ({ opened 0x80 with err := true } : State).mode ≠ .rx ∧ (opened 0x80).err = false ∧
    ({ opened 0x80 with pos := 255 } : State).pos.toNat + [(9 : Byte)].length = 256 := by decide

/-- Witness for `LongTextIsIllegal`: the shortest text that is too long. -/
theorem test_witness_LongTextIsIllegal : 255 < (List.replicate 256 (0x20 : Byte)).length := by
  rw [List.length_replicate]; decide

/-- Witness for `TruncationLength`: a text one byte over the budget, one of the budget, and a full buffer. -/
theorem test_witness_TruncationLength :
    [(1 : Byte), 2, 3].length ≤ 255 ∧ (opened 0x80).mode ≠ .rx ∧ (opened 0x80).err = false ∧
    ({ opened 0x80 with pos := 253 } : State).pos.toNat + min (2 : Byte).toNat [(1 : Byte), 2, 3].length = 255 ∧
    (2 : Byte).toNat < [(1 : Byte), 2, 3].length ∧ [(1 : Byte), 2, 3].length ≤ (3 : Byte).toNat := by decide

/-- Witness for `SendPushesTheFrame`: the shortest frame that can be sent. -/
theorem test_witness_SendPushesTheFrame :
    (opened 0x80).mode = .tx ∧ (opened 0x80).err = false ∧ (opened 0x80).pos.toNat = 4 := by decide

/-- Witness for `SendFailures`, its three clauses. -/
theorem test_witness_SendFailures :
    State.reset.mode ≠ .tx ∧ ({ opened 0x80 with err := true } : State).mode = .tx ∧
    ({ opened 0x80 with pos := 3 } : State).pos.toNat < 4 ∧ (opened 0x80).err = false := by decide

/-- Witness for `LoggingMirrorsTheSend`: sends of one frame with and without logging, and a failed one. -/
theorem test_witness_LoggingMirrorsTheSend :
    answers (exec (.send true) (opened 0x80)) (fun t => t.logs.length = 4 ∧ t.txs.length = 4) = true ∧
    answers (exec (.send false) (opened 0x80)) (fun t => t.logs = [] ∧ t.txs.length = 4) = true ∧
    answers (exec (.send true) State.reset) (fun t => t.status ≠ .ok ∧ t.txs = []) = true := by decide

/-- Witness for `MatchingReceives`, its four clauses. -/
theorem test_witness_MatchingReceives :
    (latched .reg 3 2).reqValid = true ∧ (latched .reg 3 2).reqKind = .reg ∧ (latched .ram 3 2).reqKind = .ram ∧
    (latched .ram 3 2).reqKind ≠ .reg ∧ State.reset.reqValid = false := by decide

/-- Witness for `HuntForHeaderA`: header byte A, another byte, no byte, and the timeout's turn. -/
theorem test_witness_HuntForHeaderA :
    (hunting .huntA [0x5A]).rxst = .huntA ∧
    answers (step { hunting .huntA [0x5A] with script := [.fe] }) (fun t => t.rxst = .huntB ∧ t.rxq = []) = true ∧
    answers (step { hunting .huntA [0xA5] with script := [.fe] }) (fun t => t.rxst = .huntA ∧ t.rxq = []) = true ∧
    answers (step { hunting .huntA [] with script := [.timeout] }) (fun t => t.rxst = .huntA ∧ t.status = .ok) = true := by
  decide

/-- Witness for `HuntForHeaderB`: header byte B, header byte A, another byte, and no byte. -/
theorem test_witness_HuntForHeaderB :
    (hunting .huntB [0xA5]).rxst = .huntB ∧
    answers (step { hunting .huntB [0xA5] with buf := [], script := [.fe] })
      (fun t => t.rxst = .len ∧ t.buf = [(0, 0x5A), (1, 0xA5)]) = true ∧
    answers (step { hunting .huntB [0x5A] with script := [.fe] }) (fun t => t.rxst = .huntB ∧ t.rxq = []) = true ∧
    answers (step { hunting .huntB [0x17] with script := [.fe] }) (fun t => t.rxst = .huntA ∧ t.rxq = []) = true ∧
    answers (step (hunting .huntB [])) (fun t => t.rxst = .huntB) = true := by decide

/-- Witness for `LengthStep`: the largest legal length and the smallest illegal one. -/
theorem test_witness_LengthStep :
    (hunting .len [0xFC]).rxst = .len ∧ (0xFC : Byte).toNat = 252 ∧ (0xFD : Byte).toNat = 253 ∧
    answers (step { hunting .len [0xFC] with script := [.fe] }) (fun t => t.rxst = .body ∧ t.rxlen = 0xFC) = true := by
  decide

/-- Witness for `BodyStep` and `BodyStepWhateverTheCommand`: an empty body, and a body with an unnamed command. -/
theorem test_witness_BodyStep :
    (awaiting 0 .none []).rxst = .body ∧ (awaiting 0 .none []).rchk = .none ∧
    answers (step { awaiting 0 .none [] with script := [.fe] }) (fun t => t.fend = 3 ∧ t.pos = 3 ∧ t.status = .ok) = true ∧
    answers (step { awaiting 2 .none [0x17, 5] with script := [.fe] }) (fun t => bufByte t 4 = 5 ∧ t.fend = 5) = true := by
  decide

/-- Witness for `TimeoutStep` and `UnsatisfiedWaitTimesOut`: a missing length byte, a body with one byte missing, and a
whole body. -/
theorem test_witness_TimeoutStep :
    (hunting .len []).rxst = .len ∧ (hunting .len []).rxq = [] ∧
    (awaiting 2 .none [0x80]).rxq.length < (awaiting 2 .none [0x80]).rxlen.toNat ∧
    answers (step (awaiting 2 .none [0x80])) (fun t => t.status = .timeout ∧ t.rxq = [0x80]) = true ∧
    answers (step { awaiting 2 .none [0x80] with script := [.fe] }) (fun t => t.rxst = .body) = true ∧
    answers (step { awaiting 1 .none [0x80] with script := [.timeout] }) (fun t => t.rxst = .body) = true := by decide

/-- Witness for `RegisterResponseCheck`, both clauses: a response without data at the end of the frame, one byte too few,
and a count width of two. -/
theorem test_witness_RegisterResponseCheck :
    (awaiting 3 (.reg 3 0) [0x81, 3, 0]).rchk = .reg 3 0 ∧ (awaiting 3 (.reg 3 0) [0x81, 3, 0]).rxlen.toNat ≤ 252 ∧
    answers (step { awaiting 3 (.reg 3 0) [0x81, 3, 0] with script := [.fe] }) (fun t => t.status = .ok ∧ t.pos = 6) = true ∧
    answers (step { awaiting 3 (.reg 3 1) [0x81, 3, 1] with script := [.fe] }) (fun t => t.status = .responseMismatch) = true ∧
    answers (step { awaiting 5 (.reg 3 1) [0x81, 3, 0, 1, 9] with
      script := [.fe], par := { State.reset.par with countBytes := .two } }) (fun t => t.status = .ok ∧ t.pos = 7) = true := by
  decide

/-- Witness for `RamResponseCheck`, both clauses: a response with one word, and one with an extra byte and a wrong
count. -/
theorem test_witness_RamResponseCheck :
    (awaiting 6 (.ram 0x1000 1) [0x83, 0x10, 0, 1, 0, 9]).rchk = .ram 0x1000 1 ∧
    answers (step { awaiting 6 (.ram 0x1000 1) [0x83, 0x10, 0, 1, 0, 9] with script := [.fe] })
      (fun t => t.status = .ok ∧ t.pos = 7 ∧ t.fend = 9) = true ∧
    answers (step { awaiting 6 (.ram 0x1000 2) [0x83, 0x10, 0, 1, 0, 9] with script := [.fe] })
      (fun t => t.status = .responseMismatch) = true := by decide

/-- Witness for `ReceiveFindsTheFrame`: a stray byte and a stray header byte A before the frame of vector V42-17, and a
byte after it. -/
theorem test_witness_ReceiveFindsTheFrame :
    (hunting .huntA [0x17, 0x5A, 0x5A, 0xA5, 1, 0x81, 9]).script = [] ∧
    (hunting .huntA [0x17, 0x5A, 0x5A, 0xA5, 1, 0x81, 9]).rchk = .none ∧
    (hunting .huntA [0x17, 0x5A, 0x5A, 0xA5, 1, 0x81, 9]).rxq = [0x17, 0x5A] ++ [0x5A, 0xA5, 1] ++ [0x81] ++ [9] ∧
    ¬([0x5A, 0xA5] <:+: [(0x17 : Byte), 0x5A]) ∧ [(0x81 : Byte)].length = (1 : Byte).toNat := by decide

/-- Witness for `AppendedValueComesBack`: two bytes at the end of the buffer, and a frame with its header. -/
theorem test_witness_AppendedValueComesBack :
    appendBytesOf (.appendVar 0xBEEF) = some [0xBE, 0xEF] ∧ (Instr.appendVar 0xBEEF).wf = true ∧
    extractWidthOf .extractAction = some 2 ∧ (opened 0x82).mode ≠ .rx ∧ (opened 0x82).err = false ∧
    ({ opened 0x82 with pos := 253 } : State).pos.toNat + 2 = 255 ∧ (opened 0x82).pos.toNat = 4 ∧
    bufByte (opened 0x82) 0 = 0x5A ∧ bufByte (opened 0x82) 1 = 0xA5 ∧ State.reset.script = [] ∧
    State.reset.rxst = .idle := by decide

/-- Witness for `WireCommandTakesTheFrameIn`, with and without a pending check. -/
theorem test_witness_WireCommandTakesTheFrameIn :
    wireCommandOf .wireWriteRam = some 0x82 ∧ (awaiting 1 .none [0x82]).rxst = .body ∧
    (awaiting 1 .none [0x82]).rxq.head? = some 0x82 ∧ (awaiting 1 .none [0x82]).rxlen.toNat = 1 ∧
    (awaiting 1 .none [0x82]).rchk = .none := by decide

/-- Witness for `WireCommandIsNoOperationWord`: a busy FE, an idle one, and a decoded word. -/
theorem test_witness_WireCommandIsNoOperationWord :
    wireCommandOf .wireReadRam = some 0x83 ∧ frameLedBy 0x83 (hunting .huntA [0x83]) = false ∧
    busy (hunting .huntA [0x83]) = true ∧ frameLedBy 0x83 State.reset = false ∧ busy State.reset = false ∧
    decode (.opw 0x22000000#32 []) = .ok .receive := by decide

/-- Witness for `ExtractReadsTheField`: both widths, at the end of the frame. -/
theorem test_witness_ExtractReadsTheField :
    extractWidthOf .extractReg = some 1 ∧ extractWidthOf .extractVar = some 2 ∧ (received 7).mode = .rx ∧
    (received 7).err = false ∧ (received 7).pos.toNat + 1 = (received 7).fend.toNat ∧
    (received 6).pos.toNat + 2 = (received 6).fend.toNat := by decide

/-- Witness for `ExtractFailures`, its three clauses, the last one byte past the end. -/
theorem test_witness_ExtractFailures :
    extractWidthOf .extractU16 = some 2 ∧ State.reset.mode ≠ .rx ∧ ({ received 7 with err := true } : State).mode = .rx ∧
    (received 7).err = false ∧ (received 7).fend.toNat + 1 = (received 7).pos.toNat + 2 := by decide

/-- Witness for `RequestBuilders` and `BuiltRequestOnTheWire`: a builder that latches and one that does not. -/
theorem test_witness_RequestBuilders :
    requestOf (.wcurveReq 1) = some (.writeCurveRequest 1 []) ∧ latchOf (.wcurveReq 1) = none ∧
    requestOf (.rramReq 0x1000 2) = some (.readRamRequest 0x1000 2) ∧
    latchOf (.rramReq 0x1000 2) = some (.ram, 0x1000, 2) ∧
    shapeFrame .one (.readRamRequest 0x1000 2) = [0x5A, 0xA5, 4, 0x83, 0x10, 0, 2] := by decide

/-- Witness for `LatchWrittenOnlyByReadRequests`, both clauses. -/
theorem test_witness_LatchWrittenOnlyByReadRequests :
    resetMoves (presented 0x01000000 []) = false ∧ nextInstr (presented 0x01000000 []) = some .reset ∧
    latchOf .reset = none ∧ answers (step (presented 0x01000000 [])) (fun _ => true) = true ∧
    nextInstr (presented 0x41000203 []) = some (.rregReq 3 2) ∧ latchOf (.rregReq 3 2) = some (.reg, 3, 2) ∧
    answers (step (presented 0x41000203 [])) (fun t => t.reqValid) = true := by decide

/-- Witness for `LatchReadOnlyByMatchingReceives`. -/
theorem test_witness_LatchReadOnlyByMatchingReceives :
    Instr.send true ≠ .rregRespMatch ∧ Instr.send true ≠ .rramRespMatch ∧ latchOf (.send true) = none := by decide

/-- Witness for `ErrorClearedOnlyByANewFrame`. -/
theorem test_witness_ErrorClearedOnlyByANewFrame :
    ({ presented 0x01000000 [] with err := true } : State).err = true ∧
    answers (step { presented 0x01000000 [] with err := true }) (fun t => t.err = false) = true := by decide

/-- Witness for `FirstFailureIsKept`: a failed extract, and another extract. -/
theorem test_witness_FirstFailureIsKept :
    FrameInv { received 8 with err := true, ecode := .extractUnderrun } ∧
    answers (step { received 8 with err := true, ecode := .extractUnderrun, caller := [⟨0x30000000, []⟩] })
      (fun t => t.err ∧ t.ecode = .extractUnderrun ∧ t.status = .frameUnusable) = true :=
  ⟨test_witness_FrameInv_rx.2, by decide⟩

/-- Witness for `HeaderMismatchNeverReported`, `StreamsOnlyGrow`, `OnlySendTransmits` and `ParametersNeverChange`: a step
that discards a byte, one that sends, one in which bytes arrive, one in which the caller presents an operation. -/
theorem test_witness_steps :
    answers (step (hunting .huntA [0x17])) (fun t => t.status ≠ .headerMismatch ∧ t.ecode ≠ .headerMismatch) = true ∧
    (hunting .huntA [0x17]).status ≠ .headerMismatch ∧ (hunting .huntA [0x17]).ecode ≠ .headerMismatch ∧
    answers (step (presented 0x20000001 [])) (fun t => t.txs ≠ [] ∧ t.logs ≠ []) = true ∧
    nextInstr (presented 0x20000001 []) = some (.send true) ∧
    answers (step { State.reset with script := [.arrive [1, 2]], rxq := [9] }) (fun t => t.rxq = [9, 1, 2]) = true ∧
    answers (step { State.reset with script := [.present ⟨0x01000000, []⟩] })
      (fun t => t.caller = [⟨0x01000000, []⟩] ∧ t.script = []) = true := by decide

/-- Witness for `IllegalOpChangesNothingElse`. -/
theorem test_witness_IllegalOpChangesNothingElse :
    State.reset.status ≠ .illegalOp ∧ answers (exec .extractU8 State.reset) (fun t => t.status = .illegalOp) = true ∧
    decode (.opw 0x22000001#32 []) = .error .reservedBits := by decide

/-- Witness for `UnusableFrameIsRefused`, each of its cases. -/
theorem test_witness_UnusableFrameIsRefused :
    ({ opened 0x80 with err := true } : State).err = true ∧ appendBytesOf (.appendU8 1) = some [1] ∧
    (Instr.appendU8 1).wf = true ∧ ({ opened 0x80 with err := true } : State).mode = .tx ∧
    extractWidthOf .extractU8 = some 1 ∧ ({ received 3 with err := true } : State).mode = .rx ∧
    startsFrame .receive = true ∧ illegalHere { received 3 with err := true } .receive = false := by decide

/-- Witness for `ModeTable`: an operation that is illegal in one mode and legal in another. -/
theorem test_witness_ModeTable :
    (Instr.send false).wf = true ∧ wireCommandOf (.send false) = none ∧ State.reset.status ≠ .illegalOp ∧
    illegalHere State.reset (.send false) = true ∧ illegalHere (opened 0x80) (.send false) = false ∧
    appendBytesOf (.appendU8 1) = some [1] ∧ State.reset.mode = .idle ∧ State.reset.err = false := by decide

/-- Witness for `FailuresArePrecise`: a failed append, send and extract. -/
theorem test_witness_FailuresArePrecise :
    answers (exec (.appendU8 1) { State.reset with pos := 255 }) (fun t => t.status ≠ .ok ∧ t.mode = .tx) = true ∧
    answers (exec (.send false) State.reset) (fun t => t.status ≠ .ok) = true ∧
    answers (exec .extractU8 (received 8)) (fun t => t.status ≠ .ok) = true := by decide

/-- Witness for `DebugPortReads`: the last offset, address 255, no debug port, and a byte not written. -/
theorem test_witness_DebugPortReads :
    State.reset.par.debugAccess = true ∧ (254 : Byte).toNat ≤ 254 ∧ debugPort State.reset 255 = some 0 ∧
    debugPort (received 3) 4 = some 0x10 ∧ isWritten State.reset 254 = false ∧
    debugPort { State.reset with par := { State.reset.par with debugAccess := false } } 4 = none := by decide

/-- Witness for `AssemblerLines`: a line of R96, numbers just inside and just outside their fields in lines of one number,
of two and of many, and a long text. -/
theorem test_witness_AssemblerLines :
    asmLineOf (.rramReq 0xFFFF 0xFF) = some (.rramReq 65535 255) ∧ (Instr.rramReq 0xFFFF 0xFF).wf = true ∧
    literalsOf (.rramReq 65535 256) = [(65535, 65535), (256, 255)] ∧
    literalsOf (.wregWrite 255 [0, -1]) = [(255, 255), (0, 255), (-1, 255)] ∧
    literalsOf (.rramRead 65535 255) = [(65535, 65535), (255, 255)] ∧
    255 < (asmText (.appendText (List.replicate 256 0x20))).length := by
  refine ⟨by decide, by decide, by decide, by decide, by decide, ?_⟩
  simp only [asmText, List.length_replicate]; omega

/-- Rule R97: numbers just inside and just outside their fields, and the pseudo-operations. -/
theorem test_assemble :
    assemble (.appendU8 255) = some [.appendU8 0xFF] ∧ assemble (.appendU8 256) = none ∧ assemble (.appendU8 (-1)) = none ∧
    assemble (.appendU16 65535) = some [.appendU16 0xFFFF] ∧ assemble (.appendU16 65536) = none ∧
    assemble (.rramReq 65535 256) = none ∧ assemble (.wregWrite 255 [0, -1]) = none ∧
    assemble (.wregWrite 3 [1]) = some [.wregReq 3, .appendU8 1, .send false] ∧
    assemble (.rramRead 65535 255) = some [.rramReq 0xFFFF 0xFF, .send false, .rramRespMatch] := by decide

end Sys2Proof.Tests
end

/-! The statements of file 00_scope.md: the implementation parameters (rule R8) and the multi-byte helpers (rule R12). -/

namespace Sys2Proof.Machine

open Sys2Proof.Safety

/-! ## No shared operation writes the parameters -/

@[simp] theorem appendBytes_par (bs : List Byte) (s : State) : (appendBytes bs s).par = s.par := by
  rcases appendBytes_cases bs s with ⟨_, h⟩ | ⟨_, _, h⟩ | ⟨_, _, _, h⟩ | ⟨_, _, _, h⟩ <;> simp [h]

@[simp] theorem extract_par (w : Nat) (s : State) : (extract w s).par = s.par := by
  rcases extract_cases w s with ⟨_, h⟩ | ⟨_, _, h⟩ | ⟨_, _, _, h⟩ | ⟨_, _, _, h⟩ <;> rw [h] <;> rfl

@[simp] theorem sendFrame_par (log : Bool) (s : State) : (sendFrame log s).par = s.par := by
  rw [sendFrame_frame]

@[simp] theorem builtRequest_par (i : Instr) (s : State) : (builtRequest i s).par = s.par := by
  unfold builtRequest
  split <;> simp

@[simp] theorem rxComplete_par (s : State) : (rxComplete s).par = s.par := by
  rw [rxComplete_frame]

@[simp] theorem huntAStep_par (s : State) : (huntAStep s).par = s.par := by
  unfold huntAStep
  split <;> rfl

@[simp] theorem huntBStep_par (s : State) : (huntBStep s).par = s.par := by
  unfold huntBStep
  split
  · rfl
  · split_ifs <;> rfl

@[simp] theorem lenStep_par (s : State) : (lenStep s).par = s.par := by
  unfold lenStep
  split
  · rfl
  · dsimp only
    split_ifs <;> rfl

@[simp] theorem timeoutStep_par (s : State) : (timeoutStep s).par = s.par := by
  unfold timeoutStep
  split <;> rfl

/-! ## No instruction, no move of FE and no step writes them -/

theorem rxBody_par {s t : State} (h : rxBody s = .next t) : t.par = s.par := by
  obtain ⟨_, rfl⟩ := rxBody_next h
  exact rxComplete_par (bodyTaken s)

theorem execSend_par {log : Bool} {s t : State} (h : execSend log s = .next t) : t.par = s.par := by
  rcases execSend_cases log s with ⟨_, e⟩ | ⟨_, _, e⟩ | ⟨_, _, _, e⟩ | ⟨_, _, _, e⟩ <;>
    cases e.symm.trans h <;> simp

theorem takeFrame_par {c : Byte} {s t : State} (h : takeFrame c s = .next t) : t.par = s.par := by
  rcases takeFrame_cases c s with ⟨_, e⟩ | ⟨_, _, e⟩ | ⟨_, _, e⟩
  · exact rxBody_par (e.symm.trans h)
  · cases e.symm.trans h; rfl
  · cases e.symm.trans h; rfl

/-- No instruction writes the parameters: each is one of the shared operations above. -/
theorem exec_par {i : Instr} {s t : State} (h : exec i s = .next t) : t.par = s.par := by
  have hs := exec_shape i s
  rw [h] at hs
  generalize hr : Host.Outcome.next t = r at hs
  cases hs with
  | send log => exact execSend_par hr.symm
  | wire c hc => exact takeFrame_par hr.symm
  | available n => cases hr; rfl
  | reset => cases hr; rfl
  | resetCmd c => cases hr; simp
  | append bs => cases hr; simp
  | longText bs => cases hr; simp
  | receive chk => cases hr; simp
  | noRequest => cases hr; simp
  | extract w => cases hr; simp
  | request f => cases hr; simp

/-- FE's own move does not write the parameters. -/
theorem feTurn_par {s t : State} (h : feTurn s = .next t) : t.par = s.par := by
  rcases feTurn_cases s with ⟨_, e⟩ | ⟨_, op, rest, i, _, _, _, e⟩ | ⟨_, _, op, rest, _, e⟩ | ⟨_, _, e⟩ | ⟨_, _, e⟩ |
    ⟨_, _, e⟩ | ⟨_, _, _, e⟩ <;> have ht := e.symm.trans h
  · cases ht; rfl
  · rw [exec_par ht]
  · cases ht; rfl
  · cases ht; exact huntAStep_par s
  · cases ht; exact huntBStep_par s
  · cases ht; exact lenStep_par s
  · exact rxBody_par ht

/-- Settles O51: FE's move keeps the parameters, and every other agent's turn writes other fields. -/
theorem parametersNeverChange : Obligations.ParametersNeverChange := by
  intro s t h
  rcases step_cases s with ⟨_, e⟩ | ⟨_, _, _, e⟩ | ⟨ts, _, _, e⟩ | ⟨op, ts, _, _, e⟩ | ⟨bs, ts, _, _, e⟩ | ⟨ts, _, _, e⟩ <;>
    have ht := e.symm.trans h
  · rw [feTurn_par ht]
  · cases ht; rfl
  · cases ht; exact timeoutStep_par _
  · cases ht; rfl
  · cases ht; rfl
  · cases ht; rfl

/-! ## The multi-byte helpers -/

/-- `from_be16(hi, lo)` as a number (rule R12). -/
theorem fromBe16_toNat (hi lo : Byte) : (fromBe16 hi lo).toNat = hi.toNat * 256 + lo.toNat := by
  have hlo : lo.toNat < 2 ^ 8 := lo.isLt
  rw [fromBe16, BitVec.toNat_append, ← Nat.shiftLeft_add_eq_or_of_lt hlo, Nat.shiftLeft_eq]

theorem decCnt_one (b : Byte) : decCnt [b] = b.toNat := by simp [decCnt]

theorem decCnt_two (hi lo : Byte) : decCnt [hi, lo] = hi.toNat * 256 + lo.toNat := by simp [decCnt]

/-- Settles O58: the two writers are their definitions, and the two readers are the positional value of their bytes. -/
theorem bigEndianHelpers : Obligations.BigEndianHelpers :=
  ⟨fun _ => rfl, fromBe16_toNat, fromBe16_be16, fun _ => ⟨rfl, rfl⟩, decCnt_one, decCnt_two⟩

end Sys2Proof.Machine

/-! The statements of file 10_state.md: the invariant of rule R45 (its section 7), and with it what may write the
error, the latch and the streams (rules R36 to R38, R44). -/

namespace Sys2Proof.Machine

open Sys2Proof.Safety

/-! ## The invariant, mode by mode, and what it does not speak of -/

/-- An idle FE in mode IDLE: what of the invariant is left to show. -/
theorem frameInv_of_idle {s : State} (hm : s.mode = .idle) (hr : s.rxst = .idle) (hwf : Memory.wf s.buf = true)
    (hp : s.pos = 0) (hf : s.fend = 0) (he : s.err = false) (hc : s.ecode = .ok) (hk : s.rchk = .none) :
    FrameInv s where
  memory := hwf
  idleFresh _ := ⟨hp, hf, he⟩
  txNoEnd ht := nomatch hm.symm.trans ht
  txLength ht := nomatch hm.symm.trans ht
  rxCursor hx := nomatch hm.symm.trans hx
  errCode := ⟨fun _ => hc, fun _ => he⟩
  busyRx hb := absurd hr hb
  txWritten ht := nomatch hm.symm.trans ht
  rxWritten hx := nomatch hm.symm.trans hx
  busyCleared hb := absurd hr hb
  lenWritten hl := nomatch hr.symm.trans hl
  bodyWritten hb := nomatch hr.symm.trans hb
  checkPending _ := hk

/-- An FE in mode TX, which is never busy: what of the invariant is left to show. -/
theorem frameInv_of_tx {s : State} (hm : s.mode = .tx) (hr : s.rxst = .idle) (hwf : Memory.wf s.buf = true)
    (hf : s.fend = 0) (hec : s.err = false ↔ s.ecode = .ok) (hk : s.rchk = .none)
    (hlen : 3 ≤ s.pos.toNat → bufByte s 2 = lengthByte s.pos.toNat)
    (hw : ∀ a, a < s.pos.toNat → isWritten s a = true) : FrameInv s where
  memory := hwf
  idleFresh hi := nomatch hm.symm.trans hi
  txNoEnd _ := hf
  txLength _ := hlen
  rxCursor hx := nomatch hm.symm.trans hx
  errCode := hec
  busyRx hb := absurd hr hb
  txWritten _ := hw
  rxWritten hx := nomatch hm.symm.trans hx
  busyCleared hb := absurd hr hb
  lenWritten hl := nomatch hr.symm.trans hl
  bodyWritten hb := nomatch hr.symm.trans hb
  checkPending _ := hk

/-- An FE in mode RX whose receive is over: what of the invariant is left to show. -/
theorem frameInv_of_rx {s : State} (hm : s.mode = .rx) (hr : s.rxst = .idle) (hwf : Memory.wf s.buf = true)
    (hp : s.pos.toNat ≤ s.fend.toNat) (hec : s.err = false ↔ s.ecode = .ok) (hk : s.rchk = .none)
    (hw : s.err = false → ∀ a, a < s.fend.toNat → isWritten s a = true) : FrameInv s where
  memory := hwf
  idleFresh hi := nomatch hm.symm.trans hi
  txNoEnd ht := nomatch hm.symm.trans ht
  txLength ht := nomatch hm.symm.trans ht
  rxCursor _ := hp
  errCode := hec
  busyRx hb := absurd hr hb
  txWritten ht := nomatch hm.symm.trans ht
  rxWritten _ := hw
  busyCleared hb := absurd hr hb
  lenWritten hl := nomatch hr.symm.trans hl
  bodyWritten hb := nomatch hr.symm.trans hb
  checkPending _ := hk

/-- Settles O11: nothing is written, FE is idle and the frame is empty, whatever stands in the other fields. -/
theorem frameInvAtReset : Obligations.FrameInvAtReset :=
  fun _ _ _ _ => frameInv_of_idle rfl rfl reset_memory_wf rfl rfl rfl rfl rfl

/-- The invariant does not speak of the latch, the result, the streams and the other agents. -/
theorem frameInv_of_agree {s t : State} (h : FrameInv s)
    (e : t = { s with
      reqValid := t.reqValid, reqKind := t.reqKind, reqAddr := t.reqAddr, reqCnt := t.reqCnt, status := t.status,
      data := t.data, rxq := t.rxq, txs := t.txs, logs := t.logs, caller := t.caller, script := t.script,
      par := t.par }) : FrameInv t := by
  rw [e]
  exact
    { memory := h.memory
      idleFresh := h.idleFresh
      txNoEnd := h.txNoEnd
      txLength := h.txLength
      rxCursor := h.rxCursor
      errCode := h.errCode
      busyRx := h.busyRx
      txWritten := h.txWritten
      rxWritten := h.rxWritten
      busyCleared := h.busyCleared
      lenWritten := h.lenWritten
      bodyWritten := h.bodyWritten
      checkPending := h.checkPending }

theorem frameInv_raise {s : State} (c : Status) (h : FrameInv s) : FrameInv (raise c s) := frameInv_of_agree h rfl

theorem frameInv_returnOk {s : State} (d : Half) (h : FrameInv s) : FrameInv (returnOk d s) := frameInv_of_agree h rfl

theorem frameInv_latchRequest {s : State} (k : ReqKind) (a : Half) (c : Byte) (h : FrameInv s) :
    FrameInv (latchRequest k a c s) := frameInv_of_agree h rfl

/-- A receive in progress is in mode RX (R45 part 6), so no other mode is busy. -/
theorem not_busy_of_mode_ne_rx {s : State} (h : FrameInv s) (hm : s.mode ≠ .rx) : s.rxst = .idle :=
  Decidable.byContradiction fun hb => hm (h.busyRx hb)

/-! ## Failures -/

/-- A failure of an idle FE in mode TX or RX keeps the invariant: the error it sets has its code (R45 part 5). -/
theorem frameInv_failFrame {s : State} {c : Status} (h : FrameInv s) (hc : c ≠ .ok) (hm : s.mode ≠ .idle)
    (hr : s.rxst = .idle) : FrameInv (failFrame c s) where
  memory := h.memory
  idleFresh hi := absurd hi hm
  txNoEnd := h.txNoEnd
  txLength := h.txLength
  rxCursor := h.rxCursor
  errCode := ⟨nofun, fun he => absurd he hc⟩
  busyRx hb := absurd hr hb
  txWritten := h.txWritten
  rxWritten _ he := nomatch he
  busyCleared hb := absurd hr hb
  lenWritten hl := nomatch hr.symm.trans hl
  bodyWritten hb := nomatch hr.symm.trans hb
  checkPending := h.checkPending

/-- A failed receive keeps the invariant: cursor and end are 0, and no receive is pending any more (rule R150). -/
theorem frameInv_rxFail {s : State} {c : Status} (h : FrameInv s) (hc : c ≠ .ok) (hm : s.mode = .rx) :
    FrameInv (rxFail c s) :=
  frameInv_of_rx hm rfl h.memory (Nat.le_refl _) ⟨nofun, fun he => absurd he hc⟩ rfl nofun

/-! ## Appending and building -/

/-- Entering mode TX from IDLE, where the cursor is 0, or staying in it. -/
theorem frameInv_enterTx {s : State} (h : FrameInv s) (hm : s.mode ≠ .rx) : FrameInv { s with mode := .tx } := by
  have hr := not_busy_of_mode_ne_rx h hm
  cases hs : s.mode with
  | rx => exact absurd hs hm
  | tx => rw [← hs]; exact h
  | idle =>
    obtain ⟨hp, hf, he⟩ := h.idleFresh hs
    exact frameInv_of_tx rfl hr h.memory hf h.errCode (h.checkPending hr) (fun h3 => absurd h3 (by simp [hp]))
      fun a ha => absurd ha (by simp [hp])

/-- An append that fits in mode TX: the bytes below the new cursor are the old ones and the appended ones, and the length
byte is patched (R45 parts 3 and 7). -/
theorem frameInv_appended_tx {s : State} {bs : List Byte} (h : FrameInv s) (hm : s.mode = .tx)
    (hl : s.pos.toNat + bs.length ≤ 255) : FrameInv (appended bs s) := by
  have hr : s.rxst = .idle := not_busy_of_mode_ne_rx h (by simp [hm])
  have hp := appended_pos_toNat hl
  have hframe := appended_frame bs s
  refine frameInv_of_tx (by simp) ?_ (appended_wf hl h.memory) ?_ ?_ ?_ ?_ ?_
  · rw [hframe]; exact hr
  · rw [hframe]; exact h.txNoEnd hm
  · rw [hframe]; exact h.errCode
  · rw [hframe]; exact h.checkPending hr
  · intro h3
    rw [hp] at h3 ⊢
    exact appended_byte_two hl h3
  · intro a ha
    rw [hp] at ha
    rw [appended_written hl]
    by_cases hlow : a < s.pos.toNat
    · simp [h.txWritten hm a hlow]
    · simp [ha, Nat.le_of_not_lt hlow]

theorem frameInv_appendBytes {s : State} (bs : List Byte) (h : FrameInv s) : FrameInv (appendBytes bs s) := by
  rcases appendBytes_cases bs s with ⟨_, e⟩ | ⟨_, _, e⟩ | ⟨hm, _, _, e⟩ | ⟨hm, _, hl, e⟩ <;> rw [e]
  · exact frameInv_raise _ h
  · exact frameInv_raise _ h
  · have hr := not_busy_of_mode_ne_rx h hm
    exact frameInv_failFrame (frameInv_enterTx h hm) nofun nofun hr
  · exact frameInv_appended_tx (s := { s with mode := .tx }) (frameInv_enterTx h hm) rfl hl

/-- An opened frame: header, length byte 1 and command are written, the cursor is after them (rule R111). -/
theorem frameInv_openFrame {s : State} (c : Byte) (h : FrameInv s) (hr : s.rxst = .idle) :
    FrameInv (openFrame c s) := by
  refine frameInv_of_tx rfl hr (openFrame_wf h.memory) rfl ⟨fun _ => rfl, fun _ => rfl⟩ (h.checkPending hr) ?_ ?_
  · intro _
    rw [openFrame_byte, openFrame_pos]
    rfl
  · intro a ha
    have h4 : a < 4 := ha
    simp [openFrame_written, h4]

theorem frameInv_resetFrame {s : State} (h : FrameInv s) (hr : s.rxst = .idle) : FrameInv (resetFrame s) :=
  frameInv_of_idle rfl hr h.memory rfl rfl rfl rfl (h.checkPending hr)

/-- A request builder opens a frame, appends to it and perhaps writes the latch; each keeps the invariant. -/
theorem frameInv_builtRequest {s : State} (i : Instr) (h : FrameInv s) (hr : s.rxst = .idle) :
    FrameInv (builtRequest i s) := by
  have hopen (c : Byte) : FrameInv (openFrame c s) := frameInv_openFrame c h hr
  unfold builtRequest
  split
  · exact frameInv_appendBytes _ (hopen _)
  · exact frameInv_latchRequest _ _ _ (frameInv_appendBytes _ (frameInv_appendBytes _ (hopen _)))
  · exact frameInv_appendBytes _ (hopen _)
  · exact frameInv_latchRequest _ _ _ (frameInv_appendBytes _ (frameInv_appendBytes _ (hopen _)))
  · exact frameInv_appendBytes _ (hopen _)
  · exact h

/-! ## Sending and extracting -/

/-- A send writes the length byte that is there already (R45 part 3). -/
theorem frameInv_sendFrame {s : State} (log : Bool) (h : FrameInv s) (hm : s.mode = .tx) :
    FrameInv (sendFrame log s) := by
  have hr : s.rxst = .idle := not_busy_of_mode_ne_rx h (by simp [hm])
  have hbyte : bufByte (memWrite 2 [lengthByte s.pos.toNat] s) 2 = lengthByte s.pos.toNat :=
    bufByte_memWrite_inside (s := s) (a := 2) (k := 0) (bs := [lengthByte s.pos.toNat]) (by simp)
  have hinv : FrameInv (memWrite 2 [lengthByte s.pos.toNat] s) :=
    frameInv_of_tx hm hr (memWrite_wf (by simp) h.memory) (h.txNoEnd hm) h.errCode (h.checkPending hr) (fun _ => hbyte)
      fun a ha => by simp [isWritten_memWrite, h.txWritten hm a ha]
  rw [sendFrame_frame]
  exact frameInv_of_agree hinv rfl

theorem frameInv_execSend {s t : State} {log : Bool} (h : FrameInv s) (e : execSend log s = .next t) : FrameInv t := by
  rcases execSend_cases log s with ⟨_, e'⟩ | ⟨_, _, e'⟩ | ⟨_, _, _, e'⟩ | ⟨hm, _, _, e'⟩ <;> cases e'.symm.trans e
  · exact frameInv_raise _ h
  · exact frameInv_raise _ h
  · exact frameInv_raise _ h
  · exact frameInv_sendFrame log h hm

/-- Moving the cursor of an idle FE inside a received frame (R45 part 4). -/
theorem frameInv_moveCursor {s : State} {p : Byte} (h : FrameInv s) (hm : s.mode = .rx) (hr : s.rxst = .idle)
    (hp : p.toNat ≤ s.fend.toNat) : FrameInv { s with pos := p } :=
  frameInv_of_rx hm hr h.memory hp h.errCode (h.checkPending hr) (h.rxWritten hm)

theorem frameInv_extract {s : State} (w : Nat) (h : FrameInv s) (hr : s.rxst = .idle) : FrameInv (extract w s) := by
  rcases extract_cases w s with ⟨_, e⟩ | ⟨_, _, e⟩ | ⟨hm, _, _, e⟩ | ⟨hm, _, hl, e⟩ <;> rw [e]
  · exact frameInv_raise _ h
  · exact frameInv_raise _ h
  · exact frameInv_failFrame h nofun (by simp [hm]) hr
  · have hp : (BitVec.ofNat 8 (s.pos.toNat + w)).toNat ≤ s.fend.toNat := by
      rw [byte_ofNat_toNat (by omega)]; exact hl
    exact frameInv_returnOk _ (frameInv_moveCursor h hm hr hp)

/-! ## Receiving -/

/-- Every receive starts with an empty frame and no error (rule R146). -/
theorem frameInv_rxStart {s : State} (chk : RxCheck) (h : FrameInv s) : FrameInv (rxStart chk s) where
  memory := h.memory
  idleFresh := nofun
  txNoEnd := nofun
  txLength := nofun
  rxCursor _ := Nat.le_refl _
  errCode := ⟨fun _ => rfl, fun _ => rfl⟩
  busyRx _ := rfl
  txWritten := nofun
  rxWritten _ _ a ha := absurd ha (by simp)
  busyCleared _ := ⟨rfl, rfl, rfl⟩
  lenWritten := nofun
  bodyWritten := nofun
  checkPending := nofun

/-- Writing bytes inside the buffer of a receive in progress. -/
theorem frameInv_memWrite_busy {s : State} {a : Nat} {bs : List Byte} (h : FrameInv s) (hb : s.rxst ≠ .idle)
    (hl : a + bs.length ≤ 255) : FrameInv (memWrite a bs s) := by
  have hm := h.busyRx hb
  have hkept (x : Nat) (hx : isWritten s x = true) : isWritten (memWrite a bs s) x = true := by
    simp [isWritten_memWrite, hx]
  exact
    { memory := memWrite_wf hl h.memory
      idleFresh := h.idleFresh
      txNoEnd := h.txNoEnd
      txLength := fun ht => nomatch hm.symm.trans ht
      rxCursor := h.rxCursor
      errCode := h.errCode
      busyRx := h.busyRx
      txWritten := fun ht => nomatch hm.symm.trans ht
      rxWritten := fun hx he x hlt => hkept x (h.rxWritten hx he x hlt)
      busyCleared := h.busyCleared
      lenWritten := fun hx => (h.lenWritten hx).imp (hkept 0) (hkept 1)
      bodyWritten := fun hx => by
        obtain ⟨h0, h1, h2, hlen⟩ := h.bodyWritten hx
        exact ⟨hkept 0 h0, hkept 1 h1, hkept 2 h2, hlen⟩
      checkPending := h.checkPending }

/-- A receive in progress goes to another of its states, where the bytes this state asks for are written. -/
theorem frameInv_advance {s : State} {x : RxState} {l : Byte} (h : FrameInv s) (hb : s.rxst ≠ .idle) (hx : x ≠ .idle)
    (hlen : x = .len → isWritten s 0 = true ∧ isWritten s 1 = true)
    (hbody : x = .body → isWritten s 0 = true ∧ isWritten s 1 = true ∧ isWritten s 2 = true ∧ l.toNat ≤ 252) :
    FrameInv { s with rxst := x, rxlen := l } where
  memory := h.memory
  idleFresh := h.idleFresh
  txNoEnd := h.txNoEnd
  txLength := h.txLength
  rxCursor := h.rxCursor
  errCode := h.errCode
  busyRx _ := h.busyRx hb
  txWritten := h.txWritten
  rxWritten := h.rxWritten
  busyCleared _ := h.busyCleared hb
  lenWritten := hlen
  bodyWritten := hbody
  checkPending hi := absurd hi hx

/-- Popping bytes from `RXQ` alone. -/
theorem frameInv_rxq {s : State} (q : List Byte) (h : FrameInv s) : FrameInv { s with rxq := q } :=
  frameInv_of_agree h rfl

/-- Going back to the hunt, or on in it, asks for no byte. -/
theorem frameInv_hunt {s : State} {x : RxState} {q : List Byte} (h : FrameInv s) (hb : s.rxst ≠ .idle)
    (hx : x = .huntA ∨ x = .huntB) : FrameInv { s with rxq := q, rxst := x } := by
  rcases hx with rfl | rfl <;>
    exact frameInv_advance (s := { s with rxq := q }) (l := s.rxlen) (frameInv_rxq q h) hb nofun nofun nofun

theorem frameInv_huntAStep {s : State} (h : FrameInv s) (hr : s.rxst = .huntA) : FrameInv (huntAStep s) := by
  unfold huntAStep
  split
  · exact h
  · exact frameInv_hunt h (by simp [hr]) (by split_ifs <;> simp)

theorem frameInv_huntBStep {s : State} (h : FrameInv s) (hr : s.rxst = .huntB) : FrameInv (huntBStep s) := by
  have hb : s.rxst ≠ .idle := by simp [hr]
  unfold huntBStep
  split
  · exact h
  next b q _ =>
    split_ifs
    · have hw := frameInv_memWrite_busy (bs := [Config.hdrA, Config.hdrB]) (a := 0) (frameInv_rxq q h) hb (by simp)
      exact frameInv_advance (x := .len) (l := s.rxlen) hw hb nofun
        (fun _ => by simp [isWritten_memWrite]) nofun
    · exact frameInv_hunt h hb (.inr rfl)
    · exact frameInv_hunt h hb (.inl rfl)

theorem frameInv_lenStep {s : State} (h : FrameInv s) (hr : s.rxst = .len) : FrameInv (lenStep s) := by
  have hb : s.rxst ≠ .idle := by simp [hr]
  unfold lenStep
  split
  · exact h
  next l q _ =>
    have hw : FrameInv (memWrite Config.lenOff [l] { s with rxq := q }) :=
      frameInv_memWrite_busy (frameInv_rxq q h) hb (by simp)
    dsimp only
    split_ifs with hl
    · exact frameInv_rxFail hw nofun (h.busyRx hb)
    · obtain ⟨h0, h1⟩ := hw.lenWritten hr
      refine frameInv_advance (x := .body) hw hb nofun nofun fun _ => ⟨h0, h1, ?_, ?_⟩
      · simp [isWritten_memWrite]
      · simpa using hl

/-- A frame just taken in, with the receive over and no check left: every byte below `END` is written, the three of the
header and the length before the body (R45 part 7). -/
theorem frameInv_bodyTaken {s : State} (h : FrameInv s) (hr : s.rxst = .body) (hq : s.rxlen.toNat ≤ s.rxq.length) :
    FrameInv { bodyTaken s with rxst := .idle, rchk := .none } := by
  have hb : s.rxst ≠ .idle := by simp [hr]
  have hm : (bodyTaken s).mode = .rx := h.busyRx hb
  obtain ⟨h0, h1, h2, hlen⟩ := h.bodyWritten hr
  have hend : (bodyTaken s).fend.toNat = 3 + s.rxlen.toNat := byte_ofNat_toNat (by omega)
  have hcursor : 3 ≤ (bodyTaken s).fend.toNat := by omega
  refine frameInv_of_rx hm rfl (bodyTaken_wf hlen h.memory) hcursor h.errCode rfl fun _ a ha => ?_
  have ha' : a < (bodyTaken s).fend.toNat := ha
  refine (bodyTaken_written hq).trans ?_
  by_cases h3 : a < 3
  · have hold : isWritten s a = true := by
      obtain rfl | rfl | rfl : a = 0 ∨ a = 1 ∨ a = 2 := by omega
      exacts [h0, h1, h2]
    simp [hold]
  · have hin : 3 ≤ a ∧ a < 3 + s.rxlen.toNat := by omega
    simp [hin]

/-- Taking a frame in and completing the receive, with or without a check (rule R152). -/
theorem frameInv_rxBody {s t : State} (h : FrameInv s) (hr : s.rxst = .body) (hq : s.rxlen.toNat ≤ s.rxq.length)
    (e : rxBody s = .next t) : FrameInv t := by
  obtain ⟨hlen, rfl⟩ := rxBody_next e
  have hm : (bodyTaken s).mode = .rx := h.busyRx (by simp [hr])
  have hin := frameInv_bodyTaken h hr hq
  rcases rxComplete_cases (bodyTaken s) with ⟨_, e'⟩ | ⟨_, p, _, hp, e'⟩ | ⟨_, e'⟩ <;> rw [e']
  · exact frameInv_of_agree hin rfl
  · have hpos : (BitVec.ofNat 8 p).toNat ≤ (bodyTaken s).fend.toNat := by
      rw [byte_ofNat_toNat (by omega)]; exact hp
    exact frameInv_of_agree (frameInv_moveCursor hin hm rfl hpos) rfl
  · exact frameInv_failFrame (c := .responseMismatch) hin nofun (by simp [hm]) rfl

/-! ## Instructions, moves and steps -/

/-- Every instruction that an idle FE runs keeps the invariant, group by group. -/
theorem frameInv_exec {i : Instr} {s t : State} (h : FrameInv s) (hr : s.rxst = .idle) (e : exec i s = .next t) :
    FrameInv t := by
  have hs := exec_shape i s
  rw [e] at hs
  generalize he : Host.Outcome.next t = r at hs
  cases hs with
  | reset => cases he; exact frameInv_returnOk _ (frameInv_resetFrame h hr)
  | resetCmd c => cases he; exact frameInv_returnOk _ (frameInv_openFrame c h hr)
  | append bs => cases he; exact frameInv_appendBytes bs h
  | longText bs => cases he; exact frameInv_raise _ h
  | send log => exact frameInv_execSend h he.symm
  | available n => cases he; exact frameInv_returnOk _ h
  | receive chk => cases he; exact frameInv_rxStart chk h
  | noRequest => cases he; exact frameInv_raise _ h
  | extract w => cases he; exact frameInv_extract w h hr
  | request f => cases he; exact frameInv_returnOk _ (frameInv_builtRequest i h hr)
  | wire c =>
    rcases takeFrame_cases c s with ⟨hled, _⟩ | ⟨_, _, e'⟩ | ⟨_, _, e'⟩
    · obtain ⟨hbody, -⟩ := (frameLedBy_iff c s).1 hled
      exact nomatch hr.symm.trans hbody
    · cases e'.symm.trans he.symm; exact h
    · cases e'.symm.trans he.symm; exact frameInv_raise _ h

theorem frameInv_feTurn {s t : State} (h : FrameInv s) (e : feTurn s = .next t) : FrameInv t := by
  rcases feTurn_cases s with ⟨_, e'⟩ | ⟨hr, op, rest, i, _, _, _, e'⟩ | ⟨_, _, op, rest, _, e'⟩ | ⟨hr, _, e'⟩ |
    ⟨hr, _, e'⟩ | ⟨hr, _, e'⟩ | ⟨hr, hq, _, e'⟩ <;> have ht := e'.symm.trans e
  · cases ht; exact h
  · exact frameInv_exec (s := { s with caller := rest }) (frameInv_of_agree h rfl) hr ht
  · cases ht; exact frameInv_of_agree h rfl
  · cases ht; exact frameInv_huntAStep h hr
  · cases ht; exact frameInv_huntBStep h hr
  · cases ht; exact frameInv_lenStep h hr
  · exact frameInv_rxBody h hr hq ht

/-- Only a receive in progress can time out (rule R151). -/
theorem busy_of_timeoutEnabled {s : State} (h : timeoutEnabled s = true) : s.rxst ≠ .idle := by
  rcases (timeoutEnabled_iff s).1 h with ⟨hr, _⟩ | ⟨hr, _⟩ <;> simp [hr]

theorem frameInv_timeoutStep {s : State} (h : FrameInv s) : FrameInv (timeoutStep s) := by
  unfold timeoutStep
  split_ifs with ht
  · exact frameInv_rxFail h nofun (h.busyRx (busy_of_timeoutEnabled ht))
  · exact h

/-- A block reset reaches the invariant from any state: it leaves what reset has (rule R240). -/
theorem frameInv_blockReset (s : State) : FrameInv (blockReset s) :=
  frameInv_of_idle rfl rfl reset_memory_wf rfl rfl rfl rfl rfl

/-- Settles O12: FE's move keeps the invariant, a timeout and a block reset reach it, and the other turns write no field
it speaks of. -/
theorem stepKeepsFrameInv : Obligations.StepKeepsFrameInv := by
  intro s t h e
  rcases step_cases s with ⟨_, e'⟩ | ⟨hto, _, _, e'⟩ | ⟨ts, _, _, e'⟩ | ⟨op, ts, _, _, e'⟩ | ⟨bs, ts, _, _, e'⟩ |
    ⟨ts, _, _, e'⟩ <;> have ht := e'.symm.trans e
  · exact frameInv_feTurn (s := { s with script := s.script.tail }) (frameInv_of_agree h rfl) ht
  · cases ht; exact frameInv_rxFail h nofun (h.busyRx (busy_of_timeoutEnabled hto))
  · cases ht; exact frameInv_timeoutStep (s := { s with script := ts }) (frameInv_of_agree h rfl)
  · cases ht; exact frameInv_of_agree h rfl
  · cases ht; exact frameInv_of_agree h rfl
  · cases ht; exact frameInv_blockReset _

/-- The invariant of rule R45 holds along every run from reset. -/
theorem frameInv_of_reachable {s : State} (h : Reachable s) : FrameInv s := by
  induction h with
  | start script caller rxq par => exact frameInvAtReset script caller rxq par
  | step _ e ih => exact stepKeepsFrameInv _ _ ih e

/-- Settles O13: the seven parts are parts of the invariant, or hold by the width of `POS` and `END`. -/
theorem reachableStatesSatisfyTheInvariants : Obligations.ReachableStatesSatisfyTheInvariants := by
  intro s hs
  have h := frameInv_of_reachable hs
  have hpos : s.pos.toNat ≤ 255 := Nat.le_of_lt_succ s.pos.isLt
  have hfend : s.fend.toNat ≤ 255 := Nat.le_of_lt_succ s.fend.isLt
  have hlength (hm : s.mode = .tx) (h3 : 3 ≤ s.pos.toNat) : (bufByte s 2).toNat = s.pos.toNat - 3 := by
    rw [h.txLength hm h3, byte_ofNat_toNat (by omega)]
  have hbusy (hb : busy s = true) : s.mode = .rx := h.busyRx (of_decide_eq_true hb)
  exact ⟨hpos, h.idleFresh, fun hm => ⟨h.txNoEnd hm, hlength hm⟩, fun hm => ⟨h.rxCursor hm, hfend⟩, h.errCode, hbusy,
    h.txWritten, h.rxWritten⟩

end Sys2Proof.Machine

/-! The statements of file 10_state.md that follow one field through a step: the streams (rule R44), the request latch
(rule R38), the error and its code (rules R36, R37); and the ports (rules R41, R42). -/

namespace Sys2Proof.Machine

open Sys2Proof.Safety

/-! ## What lies outside the frame: the latch and the streams -/

/-- The state with the frame, the receive in progress, the result, the caller and the schedule blanked: what is left is
the latch, the streams, the parameters and the number of block resets. -/
def outsideFrame (s : State) : State :=
  { s with
    buf := [], pos := 0, fend := 0, mode := .idle, err := false, ecode := .ok, rxst := .idle, rxlen := 0, rchk := .none,
    status := .ok, data := 0, caller := [], script := [] }

@[simp] theorem outsideFrame_raise (c : Status) (s : State) : outsideFrame (raise c s) = outsideFrame s := rfl
@[simp] theorem outsideFrame_returnOk (d : Half) (s : State) : outsideFrame (returnOk d s) = outsideFrame s := rfl
@[simp] theorem outsideFrame_resetFrame (s : State) : outsideFrame (resetFrame s) = outsideFrame s := rfl
@[simp] theorem outsideFrame_openFrame (c : Byte) (s : State) : outsideFrame (openFrame c s) = outsideFrame s := rfl
@[simp] theorem outsideFrame_rxStart (k : RxCheck) (s : State) : outsideFrame (rxStart k s) = outsideFrame s := rfl

@[simp] theorem outsideFrame_latchRequest (k : ReqKind) (a : Half) (c : Byte) (s : State) :
    outsideFrame (latchRequest k a c s) = latchRequest k a c (outsideFrame s) := rfl

@[simp] theorem outsideFrame_appendBytes (bs : List Byte) (s : State) :
    outsideFrame (appendBytes bs s) = outsideFrame s := by
  rcases appendBytes_cases bs s with ⟨_, h⟩ | ⟨_, _, h⟩ | ⟨_, _, _, h⟩ | ⟨_, _, _, h⟩ <;> rw [h]
  · rfl
  · rfl
  · rfl
  · rw [appended_frame]; rfl

@[simp] theorem outsideFrame_extract (w : Nat) (s : State) : outsideFrame (extract w s) = outsideFrame s := by
  rcases extract_cases w s with ⟨_, h⟩ | ⟨_, _, h⟩ | ⟨_, _, _, h⟩ | ⟨_, _, _, h⟩ <;> rw [h] <;> rfl

/-- The state after a write of the latch, or as it was without one. -/
def latched (w : Option (ReqKind × Half × Byte)) (s : State) : State :=
  match w with
  | none => s
  | some (k, a, c) => latchRequest k a c s

/-- A request builder writes the frame, and the latch as `latchOf` says. -/
@[simp] theorem outsideFrame_builtRequest (i : Instr) (s : State) :
    outsideFrame (builtRequest i s) = outsideFrame (latched (latchOf i) s) := by
  cases i
  case rregReq r c => simp [builtRequest, latchOf, latched, zext16]
  all_goals simp [builtRequest, latchOf, latched]

/-! ## The streams (rule R44) -/

/-- Outside the frame, `t` is `s` with bytes popped from `RXQ` and bytes pushed to `TXS` and `LOGS`. -/
def StreamsMove (s t : State) : Prop :=
  ∃ n sent mirrored, outsideFrame t =
    { outsideFrame s with rxq := s.rxq.drop n, txs := s.txs ++ sent, logs := s.logs ++ mirrored }

theorem streamsMove_of_outsideFrame {s t : State} (h : outsideFrame t = outsideFrame s) : StreamsMove s t :=
  ⟨0, [], [], by rw [h]; simp [outsideFrame]⟩

theorem streamsMove_of_pop {s t : State} (n : Nat) (h : outsideFrame t = { outsideFrame s with rxq := s.rxq.drop n }) :
    StreamsMove s t :=
  ⟨n, [], [], by rw [h]; simp [outsideFrame]⟩

theorem streamsMove_execSend {log : Bool} {s t : State} (h : execSend log s = .next t) : StreamsMove s t := by
  rcases execSend_cases log s with ⟨_, e⟩ | ⟨_, _, e⟩ | ⟨_, _, _, e⟩ | ⟨_, _, _, e⟩ <;> cases e.symm.trans h
  · exact streamsMove_of_outsideFrame rfl
  · exact streamsMove_of_outsideFrame rfl
  · exact streamsMove_of_outsideFrame rfl
  · refine ⟨0, sentBytes s, if log && s.par.logPresent then sentBytes s else [], ?_⟩
    rw [sendFrame_frame]
    split_ifs <;> simp [outsideFrame]

theorem streamsMove_huntAStep (s : State) : StreamsMove s (huntAStep s) := by
  unfold huntAStep
  split
  · exact streamsMove_of_outsideFrame rfl
  next hq => exact streamsMove_of_pop 1 (by rw [hq]; rfl)

theorem streamsMove_huntBStep (s : State) : StreamsMove s (huntBStep s) := by
  unfold huntBStep
  split
  · exact streamsMove_of_outsideFrame rfl
  next hq => exact streamsMove_of_pop 1 (by rw [hq]; split_ifs <;> rfl)

theorem streamsMove_lenStep (s : State) : StreamsMove s (lenStep s) := by
  unfold lenStep
  split
  · exact streamsMove_of_outsideFrame rfl
  next hq => exact streamsMove_of_pop 1 (by rw [hq]; dsimp only; split_ifs <;> rfl)

theorem streamsMove_rxBody {s t : State} (h : rxBody s = .next t) : StreamsMove s t := by
  obtain ⟨_, rfl⟩ := rxBody_next h
  exact streamsMove_of_pop s.rxlen.toNat (by rw [rxComplete_frame]; rfl)

theorem streamsMove_takeFrame {c : Byte} {s t : State} (h : takeFrame c s = .next t) : StreamsMove s t := by
  rcases takeFrame_cases c s with ⟨_, e⟩ | ⟨_, _, e⟩ | ⟨_, _, e⟩ <;> have ht := e.symm.trans h
  · exact streamsMove_rxBody ht
  · cases ht; exact streamsMove_of_outsideFrame rfl
  · cases ht; exact streamsMove_of_outsideFrame rfl

theorem streamsMove_timeoutStep (s : State) : StreamsMove s (timeoutStep s) := by
  unfold timeoutStep
  split_ifs <;> exact streamsMove_of_outsideFrame rfl

/-- The two instructions that write the latch are request builders. -/
theorem exec_of_latchOf {i : Instr} {w : ReqKind × Half × Byte} (hl : latchOf i = some w) (s : State) :
    exec i s = .next (returnOk 0 (builtRequest i s)) := by
  cases i <;> cases hl <;> rfl

/-- Outside the frame an instruction writes its latch, and pops and pushes. -/
theorem streamsMove_exec {i : Instr} {s t : State} (h : exec i s = .next t) :
    StreamsMove (latched (latchOf i) s) t := by
  cases hl : latchOf i with
  | some w =>
    rw [exec_of_latchOf hl] at h
    cases h
    exact streamsMove_of_outsideFrame (by simp [hl])
  | none =>
    have hs := exec_shape i s
    rw [h] at hs
    generalize hr : Host.Outcome.next t = r at hs
    cases hs with
    | send log => exact streamsMove_execSend hr.symm
    | wire c hc => exact streamsMove_takeFrame hr.symm
    | request f => cases hr; exact streamsMove_of_outsideFrame (by simp [hl])
    | available n => cases hr; exact streamsMove_of_outsideFrame rfl
    | reset => cases hr; exact streamsMove_of_outsideFrame (by simp [latched])
    | resetCmd c => cases hr; exact streamsMove_of_outsideFrame (by simp [latched])
    | append bs => cases hr; exact streamsMove_of_outsideFrame (by simp [latched])
    | longText bs => cases hr; exact streamsMove_of_outsideFrame (by simp [latched])
    | receive chk => cases hr; exact streamsMove_of_outsideFrame (by simp [latched])
    | noRequest => cases hr; exact streamsMove_of_outsideFrame (by simp [latched])
    | extract w => cases hr; exact streamsMove_of_outsideFrame (by simp [latched])

theorem latchOf_of_wire {i : Instr} {c : Byte} (h : wireCommandOf i = some c) : latchOf i = none := by
  cases i <;> cases h <;> rfl

theorem streamsMove_feTurn {s t : State} (h : feTurn s = .next t) :
    StreamsMove (latched ((feInstr s).bind latchOf) s) t := by
  rcases feTurn_cases s with ⟨hi, e⟩ | ⟨_, op, rest, i, _, _, hi, e⟩ | ⟨_, hi, op, rest, _, e⟩ | ⟨_, hi, e⟩ |
    ⟨_, hi, e⟩ | ⟨_, hi, e⟩ | ⟨_, _, hw, e⟩ <;> have ht := e.symm.trans h
  · rw [hi]; cases ht; exact streamsMove_of_outsideFrame rfl
  · rw [hi]
    obtain ⟨n, sent, mirrored, hout⟩ := streamsMove_exec ht
    refine ⟨n, sent, mirrored, hout.trans ?_⟩
    rw [Option.bind_some]
    cases latchOf i <;> rfl
  · rw [hi]; cases ht; exact streamsMove_of_outsideFrame rfl
  · rw [hi]; cases ht; exact streamsMove_huntAStep s
  · rw [hi]; cases ht; exact streamsMove_huntBStep s
  · rw [hi]; cases ht; exact streamsMove_lenStep s
  · have hnone : (feInstr s).bind latchOf = none := by
      rw [Option.bind_eq_none_iff]
      intro i hi
      obtain ⟨c, hc⟩ := hw i hi
      exact latchOf_of_wire hc
    rw [hnone]
    exact streamsMove_rxBody ht

/-- The instruction FE's move runs does not depend on the schedule. -/
theorem nextInstr_of_feMoves {s : State} (h : feMoves s = true) :
    nextInstr s = feInstr { s with script := s.script.tail } := by
  rw [nextInstr_eq, if_pos h]; rfl

theorem nextInstr_of_not_feMoves {s : State} (h : feMoves s = false) : nextInstr s = none := by
  rw [nextInstr_eq]; simp [h]

/-- Outside the frame a step writes the latch of the instruction it runs, and pops and pushes; or bytes arrive, or a block
reset comes. -/
theorem step_streams {s t : State} (h : step s = .next t) :
    StreamsMove (latched ((nextInstr s).bind latchOf) s) t ∨
    (nextInstr s = none ∧ ∃ bs ts, s.script = .arrive bs :: ts ∧ t = { s with script := ts, rxq := s.rxq ++ bs }) ∨
    (∃ ts, s.script = .blockReset :: ts ∧ t = blockReset { s with script := ts }) := by
  rcases step_cases s with ⟨hfe, e⟩ | ⟨_, _, hfe, e⟩ | ⟨ts, _, hfe, e⟩ | ⟨op, ts, _, hfe, e⟩ | ⟨bs, ts, hs, hfe, e⟩ |
    ⟨ts, hs, _, e⟩ <;> have ht := e.symm.trans h
  · rw [nextInstr_of_feMoves hfe]
    obtain ⟨n, sent, mirrored, hout⟩ := streamsMove_feTurn ht
    refine .inl ⟨n, sent, mirrored, hout.trans ?_⟩
    cases (feInstr { s with script := s.script.tail }).bind latchOf <;> rfl
  · rw [nextInstr_of_not_feMoves hfe]; cases ht; exact .inl (streamsMove_of_outsideFrame rfl)
  · rw [nextInstr_of_not_feMoves hfe]; cases ht; exact .inl (streamsMove_timeoutStep { s with script := ts })
  · rw [nextInstr_of_not_feMoves hfe]; cases ht; exact .inl (streamsMove_of_outsideFrame rfl)
  · cases ht; exact .inr (.inl ⟨nextInstr_of_not_feMoves hfe, bs, ts, hs, rfl⟩)
  · cases ht; exact .inr (.inr ⟨ts, hs, rfl⟩)

/-- What moving streams means for each of them. -/
theorem StreamsMove.streams {s t : State} (h : StreamsMove s t) :
    s.txs <+: t.txs ∧ s.logs <+: t.logs ∧ ∃ n, t.rxq = s.rxq.drop n := by
  obtain ⟨n, sent, mirrored, hout⟩ := h
  have htx : t.txs = s.txs ++ sent := (congrArg State.txs hout :)
  have hlogs : t.logs = s.logs ++ mirrored := (congrArg State.logs hout :)
  have hrxq : t.rxq = s.rxq.drop n := (congrArg State.rxq hout :)
  exact ⟨⟨sent, htx.symm⟩, ⟨mirrored, hlogs.symm⟩, n, hrxq⟩

@[simp] theorem latched_txs (w : Option (ReqKind × Half × Byte)) (s : State) : (latched w s).txs = s.txs := by
  cases w <;> rfl
@[simp] theorem latched_logs (w : Option (ReqKind × Half × Byte)) (s : State) : (latched w s).logs = s.logs := by
  cases w <;> rfl
@[simp] theorem latched_rxq (w : Option (ReqKind × Half × Byte)) (s : State) : (latched w s).rxq = s.rxq := by
  cases w <;> rfl

/-- Settles O49: FE only pops and pushes, the two other agents' turns are read off the step, and a block reset keeps the
streams. -/
theorem streamsOnlyGrow : Obligations.StreamsOnlyGrow := by
  refine ⟨fun s t h => ?_, fun s bs ts hs => ?_, fun s op ts hs => ?_⟩
  · rcases step_streams h with hmove | ⟨_, bs, ts, hs, rfl⟩ | ⟨ts, _, rfl⟩
    · obtain ⟨htx, hlogs, n, hrxq⟩ := hmove.streams
      rw [latched_txs] at htx
      rw [latched_logs] at hlogs
      rw [latched_rxq] at hrxq
      exact ⟨htx, hlogs, .inl ⟨n, hrxq⟩⟩
    · exact ⟨List.prefix_rfl, List.prefix_rfl, .inr ⟨bs, ts, hs, rfl⟩⟩
    · exact ⟨List.prefix_rfl, List.prefix_rfl, .inl ⟨0, rfl⟩⟩
  · simp only [step, nextMove, hs, agentTurn]
  · simp only [step, nextMove, hs, agentTurn]

/-! ## The request latch (rule R38) -/

/-- The four elements of the request latch. -/
def latch (s : State) : Bool × ReqKind × Half × Byte := (s.reqValid, s.reqKind, s.reqAddr, s.reqCnt)

theorem StreamsMove.latch_eq {s t : State} (h : StreamsMove s t) : latch t = latch s := by
  obtain ⟨n, sent, mirrored, hout⟩ := h
  exact (congrArg latch hout :)

/-- A step that is no block reset leaves in the latch what its instruction writes there. -/
theorem step_latch {s t : State} (h : step s = .next t) (hr : resetMoves s = false) :
    latch t = latch (latched ((nextInstr s).bind latchOf) s) := by
  rcases step_streams h with hmove | ⟨hi, bs, ts, _, rfl⟩ | ⟨ts, hs, _⟩
  · exact hmove.latch_eq
  · rw [hi]; rfl
  · simp [resetMoves, hs] at hr

/-- Settles O44: the latch after the step is what the step's instruction writes there, or what it was. -/
theorem latchWrittenOnlyByReadRequests : Obligations.LatchWrittenOnlyByReadRequests := by
  intro s t h hr
  have hlatch := step_latch h hr
  constructor
  · intro hnone
    rw [Option.bind_eq_none_iff.2 hnone] at hlatch
    simpa [latch, latched] using hlatch
  · intro i k a c hi hw
    rw [hi, Option.bind_some, hw] at hlatch
    simpa [latch, latched] using hlatch

/-! ## Reading the latch (rule R38) -/

section
variable {v : Bool} {k : ReqKind} {a : Half} {c : Byte}

theorem memRead_withLatch (s : State) (x n : Nat) : memRead (withLatch v k a c s) x n = memRead s x n :=
  memRead_congr (s := s) (t := withLatch v k a c s) (fun _ => rfl) x n

theorem patchLen_withLatch (s : State) : patchLen (withLatch v k a c s) = withLatch v k a c (patchLen s) := by
  unfold patchLen
  rw [apply_ite (withLatch v k a c)]
  rfl

theorem appended_withLatch (bs : List Byte) (s : State) :
    appended bs (withLatch v k a c s) = withLatch v k a c (appended bs s) :=
  congrArg (returnOk 0) (patchLen_withLatch
    (memWrite s.pos.toNat bs { s with mode := .tx, pos := BitVec.ofNat 8 (s.pos.toNat + bs.length) }))

theorem appendBytes_withLatch (bs : List Byte) (s : State) :
    appendBytes bs (withLatch v k a c s) = withLatch v k a c (appendBytes bs s) := by
  unfold appendBytes
  rw [appended_withLatch]
  simp only [apply_ite (withLatch v k a c)]
  rfl

theorem extracted_withLatch (w : Nat) (s : State) :
    extracted w (withLatch v k a c s) = withLatch v k a c (extracted w s) := by
  unfold extracted
  rw [memRead_withLatch]
  rfl

theorem extract_withLatch (w : Nat) (s : State) :
    extract w (withLatch v k a c s) = withLatch v k a c (extract w s) := by
  unfold extract
  rw [extracted_withLatch]
  simp only [apply_ite (withLatch v k a c)]
  rfl

theorem sendFrame_withLatch (log : Bool) (s : State) :
    sendFrame log (withLatch v k a c s) = withLatch v k a c (sendFrame log s) := by
  have hsent : sentBytes (withLatch v k a c s) = sentBytes s :=
    memRead_withLatch (memWrite Config.lenOff [lengthByte s.pos.toNat] s) 0 s.pos.toNat
  rw [sendFrame_frame, sendFrame_frame, hsent]
  rfl

theorem execSend_withLatch (log : Bool) (s : State) :
    execSend log (withLatch v k a c s) = mapNext (withLatch v k a c) (execSend log s) := by
  unfold execSend mapNext
  rw [sendFrame_withLatch]
  simp only [apply_ite (withLatch v k a c)]
  rfl

theorem checkReg_withLatch (r n : Byte) (s : State) :
    checkReg r n (withLatch v k a c s) = withLatch v k a c (checkReg r n s) := by
  have hok : regResponseOk r n (withLatch v k a c s) = regResponseOk r n s := by
    unfold regResponseOk
    dsimp only
    rw [memRead_withLatch]
    rfl
  unfold checkReg
  rw [hok, apply_ite (withLatch v k a c)]
  rfl

theorem checkRam_withLatch (x : Half) (n : Byte) (s : State) :
    checkRam x n (withLatch v k a c s) = withLatch v k a c (checkRam x n s) := by
  have hok : ramResponseOk x n (withLatch v k a c s) = ramResponseOk x n s := by
    unfold ramResponseOk
    dsimp only
    rw [memRead_withLatch]
    rfl
  unfold checkRam
  rw [hok, apply_ite (withLatch v k a c)]
  rfl

theorem rxComplete_withLatch (s : State) :
    rxComplete (withLatch v k a c s) = withLatch v k a c (rxComplete s) := by
  unfold rxComplete
  rw [show (withLatch v k a c s).rchk = s.rchk from rfl]
  cases s.rchk with
  | none => rfl
  | reg r n => exact checkReg_withLatch r n { s with rxst := .idle, rchk := .none }
  | ram x n => exact checkRam_withLatch x n { s with rxst := .idle, rchk := .none }

theorem rxBody_withLatch (s : State) :
    rxBody (withLatch v k a c s) = mapNext (withLatch v k a c) (rxBody s) := by
  unfold rxBody
  rw [show bodyTaken (withLatch v k a c s) = withLatch v k a c (bodyTaken s) from rfl, rxComplete_withLatch,
    apply_ite (mapNext (withLatch v k a c))]
  rfl

theorem takeFrame_withLatch (x : Byte) (s : State) :
    takeFrame x (withLatch v k a c s) = mapNext (withLatch v k a c) (takeFrame x s) := by
  unfold takeFrame
  rw [rxBody_withLatch]
  simp only [apply_ite (mapNext (withLatch v k a c))]
  rfl

/-- A request that writes no latch. -/
theorem request_withLatch (bs : List Byte) (x : Byte) (s : State) :
    returnOk 0 (appendBytes bs (openFrame x (withLatch v k a c s))) =
      withLatch v k a c (returnOk 0 (appendBytes bs (openFrame x s))) :=
  congrArg (returnOk 0) (appendBytes_withLatch bs (openFrame x s))

/-- A text operation, whether the text fits or not. -/
theorem text_withLatch (p : Prop) [Decidable p] (bs : List Byte) (s : State) :
    (if p then appendBytes bs (withLatch v k a c s) else raise .illegalOp (withLatch v k a c s)) =
      withLatch v k a c (if p then appendBytes bs s else raise .illegalOp s) := by
  rw [apply_ite (withLatch v k a c), appendBytes_withLatch]
  rfl

end

/-- Settles O45: each shared operation commutes with changing the latch, so each instruction that is one of them does. -/
theorem latchReadOnlyByMatchingReceives : Obligations.LatchReadOnlyByMatchingReceives := by
  intro i s v k a c hreg hram hl
  cases i
  case rregRespMatch => exact absurd rfl hreg
  case rramRespMatch => exact absurd rfl hram
  case rregReq | rramReq => cases hl
  case reset | resetCmd | available | receive | rregResp | rramResp => rfl
  case appendU8 | appendU16 | appendPage | appendReg | appendVar =>
    exact congrArg Host.Outcome.next (appendBytes_withLatch _ s)
  case appendText | appendTrunc => exact congrArg Host.Outcome.next (text_withLatch _ _ s)
  case send log => exact execSend_withLatch log s
  case extractU8 | extractU16 | extractAction | extractCmd | extractReg | extractVar =>
    exact congrArg Host.Outcome.next (extract_withLatch _ s)
  case wregReq | wramReq | wcurveReq => exact congrArg Host.Outcome.next (request_withLatch _ _ s)
  case wireWriteRegister | wireReadRegister | wireWriteRam | wireReadRam | wireWriteCurve =>
    exact takeFrame_withLatch _ s

/-! ## The error and its code (rules R36, R37) -/

/-- What may become of an error: `t` still has it, and its code too unless a receive in progress has failed. -/
def KeepsError (s t : State) : Prop := t.err = true ∧ (s.rxst = .idle → t.ecode = s.ecode)

theorem keepsError_of_eq {s t : State} (he : s.err = true) (h : t.err = s.err ∧ t.ecode = s.ecode) : KeepsError s t :=
  ⟨h.1.trans he, fun _ => h.2⟩

theorem keepsError_rxBody {s t : State} (he : s.err = true) (hr : s.rxst ≠ .idle) (h : rxBody s = .next t) :
    KeepsError s t := by
  obtain ⟨_, rfl⟩ := rxBody_next h
  refine ⟨?_, fun hi => absurd hi hr⟩
  rcases rxComplete_cases (bodyTaken s) with ⟨_, e⟩ | ⟨_, p, _, _, e⟩ | ⟨_, e⟩ <;> rw [e]
  · exact he
  · exact he

/-- While `ERR` is 1 an append is refused (rule R213). -/
theorem keepsError_appendBytes {s : State} (bs : List Byte) (he : s.err = true) : KeepsError s (appendBytes bs s) := by
  rcases appendBytes_cases bs s with ⟨_, e⟩ | ⟨_, _, e⟩ | ⟨_, he', _⟩ | ⟨_, he', _⟩
  · rw [e]; exact keepsError_of_eq he ⟨rfl, rfl⟩
  · rw [e]; exact keepsError_of_eq he ⟨rfl, rfl⟩
  · simp [he] at he'
  · simp [he] at he'

/-- While `ERR` is 1 an extract is refused (rule R213). -/
theorem keepsError_extract {s : State} (w : Nat) (he : s.err = true) : KeepsError s (extract w s) := by
  rcases extract_cases w s with ⟨_, e⟩ | ⟨_, _, e⟩ | ⟨_, he', _⟩ | ⟨_, he', _⟩
  · rw [e]; exact keepsError_of_eq he ⟨rfl, rfl⟩
  · rw [e]; exact keepsError_of_eq he ⟨rfl, rfl⟩
  · simp [he] at he'
  · simp [he] at he'

/-- A send writes neither the error nor its code (rule R140). -/
theorem keepsError_execSend {s t : State} {log : Bool} (he : s.err = true) (h : execSend log s = .next t) :
    KeepsError s t := by
  rcases execSend_cases log s with ⟨_, e⟩ | ⟨_, _, e⟩ | ⟨_, _, _, e⟩ | ⟨_, _, _, e⟩ <;> cases e.symm.trans h
  · exact keepsError_of_eq he ⟨rfl, rfl⟩
  · exact keepsError_of_eq he ⟨rfl, rfl⟩
  · exact keepsError_of_eq he ⟨rfl, rfl⟩
  · exact keepsError_of_eq he (by rw [sendFrame_frame]; exact ⟨rfl, rfl⟩)

theorem keepsError_takeFrame {s t : State} {c : Byte} (he : s.err = true) (h : takeFrame c s = .next t) :
    KeepsError s t := by
  rcases takeFrame_cases c s with ⟨hled, e⟩ | ⟨_, _, e⟩ | ⟨_, _, e⟩ <;> have ht := e.symm.trans h
  · obtain ⟨hr, -⟩ := (frameLedBy_iff c s).1 hled
    exact keepsError_rxBody he (by simp [hr]) ht
  · cases ht; exact keepsError_of_eq he ⟨rfl, rfl⟩
  · cases ht; exact keepsError_of_eq he ⟨rfl, rfl⟩

theorem startsFrame_of_requestOf {i : Instr} {f : FrameShape} (h : requestOf i = some f) : startsFrame i = true := by
  cases i <;> cases h <;> rfl

theorem startsFrame_of_isReceive {i : Instr} (h : isReceive i = true) : startsFrame i = true := by
  cases i <;> cases h <;> rfl

theorem appendBytes_openFrame_err (bs : List Byte) (c : Byte) (s : State) (h : bs.length ≤ 251) :
    (appendBytes bs (openFrame c s)).err = false := by
  rw [appendBytes_openFrame c s h, appended_err, openFrame_err]

/-- The two appends of a read request fit. -/
theorem appendBytes_twice_openFrame_err (bs cs : List Byte) (c : Byte) (s : State) (h : bs.length + cs.length ≤ 251) :
    (appendBytes cs (appendBytes bs (openFrame c s))).err = false := by
  have hpos : (appended bs (openFrame c s)).pos.toNat = 4 + bs.length :=
    appended_pos_toNat (by rw [openFrame_pos]; exact (by omega : 4 + bs.length ≤ 255))
  rw [appendBytes_openFrame c s (by omega), appendBytes_fits (by simp) (by simp) (by omega)]
  simp

/-- A request builder starts a frame without error (rules R181, R218). -/
theorem builtRequest_err {i : Instr} {f : FrameShape} (s : State) (h : requestOf i = some f) :
    (builtRequest i s).err = false := by
  have hcount (c : Byte) : (encCnt s.par.countBytes c).length ≤ 2 := by
    rw [encCnt_length]; cases s.par.countBytes <;> decide
  cases i <;> cases h
  case wregReq | wramReq | wcurveReq => exact appendBytes_openFrame_err _ _ _ (by simp)
  case rregReq r c =>
    have := hcount c
    exact appendBytes_twice_openFrame_err _ _ _ _ (by simp; omega)
  case rramReq v c =>
    have := hcount c
    exact appendBytes_twice_openFrame_err _ _ _ _ (by simp; omega)

/-- An error survives every instruction but those that start a frame (rules R36, R213, R218). -/
theorem exec_of_err {i : Instr} {s t : State} (he : s.err = true) (h : exec i s = .next t) :
    startsFrame i = true ∧ t.err = false ∨ KeepsError s t := by
  have hs := exec_shape i s
  rw [h] at hs
  generalize hr : Host.Outcome.next t = r at hs
  cases hs with
  | reset => cases hr; exact .inl ⟨rfl, rfl⟩
  | resetCmd c => cases hr; exact .inl ⟨rfl, rfl⟩
  | append bs => cases hr; exact .inr (keepsError_appendBytes bs he)
  | longText bs => cases hr; exact .inr (keepsError_of_eq he ⟨rfl, rfl⟩)
  | send log => exact .inr (keepsError_execSend he hr.symm)
  | available n => cases hr; exact .inr (keepsError_of_eq he ⟨rfl, rfl⟩)
  | receive chk hrec => cases hr; exact .inl ⟨startsFrame_of_isReceive hrec, rfl⟩
  | noRequest => cases hr; exact .inr (keepsError_of_eq he ⟨rfl, rfl⟩)
  | extract w => cases hr; exact .inr (keepsError_extract w he)
  | request f hf => cases hr; exact .inl ⟨startsFrame_of_requestOf hf, builtRequest_err s hf⟩
  | wire c hc => exact .inr (keepsError_takeFrame he hr.symm)

theorem keepsError_huntAStep {s : State} (he : s.err = true) (hr : s.rxst = .huntA) : KeepsError s (huntAStep s) := by
  refine ⟨?_, fun hi => nomatch hr.symm.trans hi⟩
  unfold huntAStep
  split <;> exact he

theorem keepsError_huntBStep {s : State} (he : s.err = true) (hr : s.rxst = .huntB) : KeepsError s (huntBStep s) := by
  refine ⟨?_, fun hi => nomatch hr.symm.trans hi⟩
  unfold huntBStep
  split
  · exact he
  · split_ifs <;> exact he

theorem keepsError_lenStep {s : State} (he : s.err = true) (hr : s.rxst = .len) : KeepsError s (lenStep s) := by
  refine ⟨?_, fun hi => nomatch hr.symm.trans hi⟩
  unfold lenStep
  split
  · exact he
  · dsimp only
    split_ifs
    · rfl
    · exact he

/-- An error survives FE's move, unless it runs an instruction that starts a frame. -/
theorem feTurn_of_err {s t : State} (he : s.err = true) (h : feTurn s = .next t) :
    (∃ i, feInstr s = some i ∧ startsFrame i = true ∧ t.err = false) ∨ KeepsError s t := by
  rcases feTurn_cases s with ⟨_, e⟩ | ⟨_, op, rest, i, _, _, hi, e⟩ | ⟨_, _, op, rest, _, e⟩ | ⟨hr, _, e⟩ |
    ⟨hr, _, e⟩ | ⟨hr, _, e⟩ | ⟨hr, _, _, e⟩ <;> have ht := e.symm.trans h
  · cases ht; exact .inr (keepsError_of_eq he ⟨rfl, rfl⟩)
  · exact (exec_of_err (s := { s with caller := rest }) he ht).imp_left fun ⟨hs, hclear⟩ => ⟨i, hi, hs, hclear⟩
  · cases ht; exact .inr (keepsError_of_eq he ⟨rfl, rfl⟩)
  · cases ht; exact .inr (keepsError_huntAStep he hr)
  · cases ht; exact .inr (keepsError_huntBStep he hr)
  · cases ht; exact .inr (keepsError_lenStep he hr)
  · exact .inr (keepsError_rxBody he (by simp [hr]) ht)

theorem keepsError_rxFail {s : State} (c : Status) (hr : s.rxst ≠ .idle) : KeepsError s (rxFail c s) :=
  ⟨rfl, fun hi => absurd hi hr⟩

theorem keepsError_timeoutStep {s : State} (he : s.err = true) : KeepsError s (timeoutStep s) := by
  unfold timeoutStep
  split_ifs with hto
  · exact keepsError_rxFail _ (busy_of_timeoutEnabled hto)
  · exact keepsError_of_eq he ⟨rfl, rfl⟩

/-- An error survives a step, unless it is a block reset or runs an instruction that starts a frame (rule R36). -/
theorem step_of_err {s t : State} (he : s.err = true) (h : step s = .next t) :
    (t.err = false ∧ (resetMoves s = true ∨ ∃ i, nextInstr s = some i ∧ startsFrame i = true)) ∨ KeepsError s t := by
  rcases step_cases s with ⟨hfe, e⟩ | ⟨hto, _, _, e⟩ | ⟨ts, _, _, e⟩ | ⟨op, ts, _, _, e⟩ | ⟨bs, ts, _, _, e⟩ |
    ⟨ts, hs, _, e⟩ <;> have ht := e.symm.trans h
  · rw [nextInstr_of_feMoves hfe]
    exact (feTurn_of_err (s := { s with script := s.script.tail }) he ht).imp_left
      fun ⟨i, hi, hstart, hclear⟩ => ⟨hclear, .inr ⟨i, hi, hstart⟩⟩
  · cases ht; exact .inr (keepsError_rxFail _ (busy_of_timeoutEnabled hto))
  · cases ht; exact .inr (keepsError_timeoutStep (s := { s with script := ts }) he)
  · cases ht; exact .inr (keepsError_of_eq he ⟨rfl, rfl⟩)
  · cases ht; exact .inr (keepsError_of_eq he ⟨rfl, rfl⟩)
  · cases ht; exact .inl ⟨rfl, .inl (by simp [resetMoves, hs])⟩

/-- Settles O46: a step that is neither keeps the error. -/
theorem errorClearedOnlyByANewFrame : Obligations.ErrorClearedOnlyByANewFrame := by
  intro s t h he hclear
  rcases step_of_err he h with ⟨_, hcause⟩ | ⟨hkept, _⟩
  · exact hcause
  · simp [hclear] at hkept

/-- Settles O47: a receive in progress has no error (the invariant), and elsewhere a step that keeps the error keeps its
code. -/
theorem firstFailureIsKept : Obligations.FirstFailureIsKept := by
  intro s t hinv h he hkept
  have hidle : s.rxst = .idle := Decidable.byContradiction fun hb => by
    obtain ⟨_, _, hno⟩ := hinv.busyCleared hb
    simp [he] at hno
  rcases step_of_err he h with ⟨hclear, _⟩ | ⟨_, hcode⟩
  · simp [hkept] at hclear
  · exact hcode hidle

/-! ## The ports (rules R41, R42) -/

theorem flags_mode (s : State) : (flags s).extractLsb' 0 2 = modeBits s.mode := by
  unfold flags
  rw [BitVec.extractLsb'_append_eq_of_add_le (by decide)]
  simp

theorem flags_ecode (s : State) : (flags s).extractLsb' 3 4 = statusCode s.ecode := by
  unfold flags
  rw [BitVec.extractLsb'_append_eq_of_le (by decide), BitVec.extractLsb'_append_eq_of_le (by decide),
    BitVec.extractLsb'_append_eq_of_add_le (by decide)]
  simp

theorem flags_reserved (s : State) : (flags s).extractLsb' 10 6 = 0 := by
  unfold flags
  iterate 6 rw [BitVec.extractLsb'_append_eq_of_le (by decide)]
  simp

/-- The flags of one bit stand where rule R41 has them. -/
theorem flags_bits (s : State) :
    (flags s).getLsbD 2 = s.err ∧ (flags s).getLsbD 7 = s.reqValid ∧ (flags s).getLsbD 8 = reqKindBit s ∧
      (flags s).getLsbD 9 = busy s := by
  simp only [flags, BitVec.getLsbD_append]
  simp

theorem statusCode_eq (c : Status) :
    statusCode c = (match c with
      | .ok => 0 | .bufferOverflow => 1 | .headerMismatch => 2 | .timeout => 3 | .responseMismatch => 4
      | .lengthExceeded => 5 | .extractUnderrun => 6 | .incompleteFrame => 7 | .illegalOp => 8 | .frameUnusable => 9) := by
  cases c <;> rfl

theorem modeBits_eq (m : Mode) : modeBits m = (match m with | .idle => 0 | .tx => 1 | .rx => 2) := by
  cases m <;> rfl

/-- Settles O56: each field of `FLAGS` is its part of the concatenation, and each code is that of its name. -/
theorem flagsLayout : Obligations.FlagsLayout := by
  intro s
  obtain ⟨herr, hvalid, hkind, hbusy⟩ := flags_bits s
  exact ⟨(flags_mode s).trans (modeBits_eq _), herr, (flags_ecode s).trans (statusCode_eq _), hvalid, hkind, hbusy,
    flags_reserved s, rfl, rfl, statusCode_eq _, rfl⟩

/-- Settles O57: each clause is a branch of the port, or of the reading of a byte. -/
theorem debugPortReads : Obligations.DebugPortReads := by
  intro s a
  refine ⟨fun hd ha => ?_, fun hd ha => ?_, fun hd => ?_, fun hw => ?_⟩
  · have hin : a.toNat < 255 := by omega
    simp [debugPort, hd, hin]
  · subst ha
    simp [debugPort, hd]
  · simp [debugPort, hd]
  · have hnone : Memory.lookup s.buf a.toNat = none := by simpa [isWritten] using hw
    simp [bufByte, hnone]

end Sys2Proof.Machine

/-! The statements of file 20_memory.md: operations run one at a time in the order they are presented (rule R72), only
`SEND` pushes to the two outgoing streams (rules R60, R65), and the body of a frame is taken in in one step (rule R70). -/

namespace Sys2Proof.Machine

open Sys2Proof.Safety

/-! ## The step on FE's turn -/

/-- A scheduled turn of FE is used up by FE's own move. -/
theorem step_of_fe {s : State} {ts : List Turn} (h : s.script = .fe :: ts) : step s = feTurn { s with script := ts } := by
  simp only [step, nextMove, h, agentTurn]

/-- With no turn scheduled FE moves, unless a wait times out (logs 6 and 8). -/
theorem step_of_unscheduled {s : State} (h : s.script = []) (ht : timeoutEnabled s = false) : step s = feTurn s := by
  simp [step, nextMove, h, ht]

theorem timeoutEnabled_of_idle {s : State} (hr : s.rxst = .idle) : timeoutEnabled s = false := by
  simp only [timeoutEnabled, hr]

/-- FE, not busy, runs what the operation on the port decodes to (rules R80, R81). -/
theorem feTurn_of_presented {s : State} {op : Operation} {rest : List Operation} {i : Instr} (hr : s.rxst = .idle)
    (hc : s.caller = op :: rest) (hd : decode (.opw op.opw op.text) = .ok i) :
    feTurn s = exec i { s with caller := rest } := by
  simp only [feTurn, hr, acceptOp, hc, runCode, hd]

/-- Settles O5: the step is FE's move, with or without a turn scheduled for it, and that move runs the operation. -/
theorem stepRunsThePresentedOperation : Obligations.StepRunsThePresentedOperation := by
  intro s op rest i hr hc hd
  constructor
  · intro ts hs
    rw [step_of_fe hs, feTurn_of_presented (s := { s with script := ts }) hr hc hd]
  · intro hs
    rw [step_of_unscheduled hs (timeoutEnabled_of_idle hr), feTurn_of_presented hr hc hd]

/-! ## The outgoing streams (rules R60, R63, R65) -/

/-- The two streams FE pushes to. -/
def outgoing (s : State) : List Byte × List Byte := (s.txs, s.logs)

/-- What writes the frame alone pushes nothing. -/
theorem outgoing_of_outsideFrame {s t : State} (h : outsideFrame t = outsideFrame s) : outgoing t = outgoing s :=
  (congrArg outgoing h :)

@[simp] theorem outgoing_latched (w : Option (ReqKind × Half × Byte)) (s : State) :
    outgoing (latched w s) = outgoing s := by
  simp [outgoing]

theorem outgoing_builtRequest (i : Instr) (s : State) : outgoing (builtRequest i s) = outgoing s :=
  (congrArg outgoing (outsideFrame_builtRequest i s) :).trans (outgoing_latched (latchOf i) s)

theorem outgoing_huntAStep (s : State) : outgoing (huntAStep s) = outgoing s := by
  unfold huntAStep
  split <;> rfl

theorem outgoing_huntBStep (s : State) : outgoing (huntBStep s) = outgoing s := by
  unfold huntBStep
  split
  · rfl
  · split_ifs <;> rfl

theorem outgoing_lenStep (s : State) : outgoing (lenStep s) = outgoing s := by
  unfold lenStep
  split
  · rfl
  · dsimp only
    split_ifs <;> rfl

theorem outgoing_timeoutStep (s : State) : outgoing (timeoutStep s) = outgoing s := by
  unfold timeoutStep
  split_ifs <;> rfl

theorem outgoing_rxBody {s t : State} (h : rxBody s = .next t) : outgoing t = outgoing s := by
  obtain ⟨_, rfl⟩ := rxBody_next h
  rw [rxComplete_frame]
  rfl

theorem outgoing_takeFrame {c : Byte} {s t : State} (h : takeFrame c s = .next t) : outgoing t = outgoing s := by
  rcases takeFrame_cases c s with ⟨_, e⟩ | ⟨_, _, e⟩ | ⟨_, _, e⟩ <;> have ht := e.symm.trans h
  · exact outgoing_rxBody ht
  · cases ht; rfl
  · cases ht; rfl

/-- Of the groups of instructions only the send pushes. -/
theorem outgoing_exec {i : Instr} {s t : State} (h : exec i s = .next t) :
    (∃ log, i = .send log) ∨ outgoing t = outgoing s := by
  have hs := exec_shape i s
  rw [h] at hs
  generalize hr : Host.Outcome.next t = r at hs
  cases hs with
  | send log => exact .inl ⟨log, rfl⟩
  | wire c => exact .inr (outgoing_takeFrame hr.symm)
  | request f => cases hr; exact .inr (outgoing_builtRequest i s)
  | append bs => cases hr; exact .inr (outgoing_of_outsideFrame (outsideFrame_appendBytes bs s))
  | extract w => cases hr; exact .inr (outgoing_of_outsideFrame (outsideFrame_extract w s))
  | reset => cases hr; exact .inr rfl
  | resetCmd c => cases hr; exact .inr rfl
  | longText bs => cases hr; exact .inr rfl
  | available n => cases hr; exact .inr rfl
  | receive chk => cases hr; exact .inr rfl
  | noRequest => cases hr; exact .inr rfl

theorem outgoing_feTurn {s t : State} (h : feTurn s = .next t) :
    (∃ log, feInstr s = some (.send log)) ∨ outgoing t = outgoing s := by
  rcases feTurn_cases s with ⟨_, e⟩ | ⟨_, op, rest, i, _, _, hi, e⟩ | ⟨_, _, op, rest, _, e⟩ | ⟨_, _, e⟩ | ⟨_, _, e⟩ |
    ⟨_, _, e⟩ | ⟨_, _, _, e⟩ <;> have ht := e.symm.trans h
  · cases ht; exact .inr rfl
  · rcases outgoing_exec ht with ⟨log, rfl⟩ | hkept
    · exact .inl ⟨log, hi⟩
    · exact .inr hkept
  · cases ht; exact .inr rfl
  · cases ht; exact .inr (outgoing_huntAStep s)
  · cases ht; exact .inr (outgoing_huntBStep s)
  · cases ht; exact .inr (outgoing_lenStep s)
  · exact .inr (outgoing_rxBody ht)

/-- A step runs a send, or leaves the outgoing streams as they are. -/
theorem outgoing_step {s t : State} (h : step s = .next t) :
    (∃ log, nextInstr s = some (.send log)) ∨ outgoing t = outgoing s := by
  rcases step_cases s with ⟨hfe, e⟩ | ⟨_, _, _, e⟩ | ⟨ts, _, _, e⟩ | ⟨op, ts, _, _, e⟩ | ⟨bs, ts, _, _, e⟩ |
    ⟨ts, _, _, e⟩ <;> have ht := e.symm.trans h
  · rw [nextInstr_of_feMoves hfe]
    exact outgoing_feTurn ht
  · cases ht; exact .inr rfl
  · cases ht; exact .inr (outgoing_timeoutStep { s with script := ts })
  · cases ht; exact .inr rfl
  · cases ht; exact .inr rfl
  · cases ht; exact .inr rfl

/-- Settles O50: a step that runs no send leaves both streams as they are. -/
theorem onlySendTransmits : Obligations.OnlySendTransmits := by
  intro s t h hchanged
  rcases outgoing_step h with hsend | hkept
  · exact hsend
  · obtain ⟨htxs, hlogs⟩ := Prod.mk.inj hkept
    exact (hchanged.elim (· htxs) (· hlogs)).elim

/-! ## The body step (rules R70, R149) -/

/-- Without a pending check the receive completes with OK (rule R152). -/
theorem rxComplete_of_no_check {s : State} (hk : s.rchk = .none) :
    rxComplete s = { s with rxst := .idle, status := .ok, data := 0 } := by
  rcases rxComplete_cases s with ⟨_, e⟩ | ⟨hn, _⟩ | ⟨hn, _⟩
  · rw [e, ← hk]
  · exact absurd hk hn
  · exact absurd hk hn

/-- FE's turn on a queued body of legal length takes the frame in and completes the receive, whatever its command is
(rules R92, R149). -/
theorem step_of_queued_body {s : State} {ts : List Turn} (hs : s.script = .fe :: ts) (hr : s.rxst = .body)
    (hl : s.rxlen.toNat ≤ 252) (hq : s.rxlen.toNat ≤ s.rxq.length) :
    step s = .next (rxComplete (bodyTaken { s with script := ts })) := by
  rw [step_of_fe hs, feTurn_body (s := { s with script := ts }) hr hq, rxBody_of_le (s := { s with script := ts }) hl]

/-- Completion writes no byte of `BUF` (rule R152). -/
theorem rxComplete_byte (s : State) (a : Nat) : bufByte (rxComplete s) a = bufByte s a := by
  rw [rxComplete_frame]
  exact bufByte_congr rfl rfl a

/-- Settles O30: the bytes are those of the body just taken in, and completing without a check adds the result alone. -/
theorem bodyStep : Obligations.BodyStep := by
  intro s ts hs hr hk hl hq
  refine ⟨_, step_of_queued_body hs hr hl hq, fun k h hlt => ?_, fun a ha => ?_, ?_⟩
  · rw [rxComplete_byte]
    exact bodyTaken_byte_inside (s := { s with script := ts }) h hlt
  · rw [rxComplete_byte, bodyTaken_byte_outside (s := { s with script := ts }) ha]
    exact bufByte_congr rfl rfl a
  · rw [rxComplete_of_no_check (s := bodyTaken { s with script := ts }) hk]
    rfl

end Sys2Proof.Machine

/-! The statements of file 30_encoding.md on codes: the decoder is the inverse of the encoder (rules R82, R83, R86, R91), and
it follows the opcode table (rule R85). -/

namespace Sys2Proof

open Sys2Proof.Machine Sys2Proof.Safety

/-! ## The operand forms of rule R83, each as a condition on the fields -/

theorem packWord_eq_iff {o : Byte} {a : Half} {b : Byte} {w : OpWord} :
    packWord o a b = w ↔ opcOf w = o ∧ aOf w = a ∧ bOf w = b := by
  constructor
  · rintro rfl
    exact ⟨opcOf_packWord o a b, aOf_packWord o a b, bOf_packWord o a b⟩
  · rintro ⟨rfl, rfl, rfl⟩
    exact packWord_fields w

theorem ite_ok_error_eq_ok {p : Prop} [Decidable p] {i j : Instr} {e : DecodeError} :
    (if p then Except.ok i else .error e) = .ok j ↔ i = j ∧ p := by
  split_ifs with h <;> simp [h]

theorem withNone_eq_ok {w : OpWord} {i j : Instr} : withNone w i = .ok j ↔ i = j ∧ aOf w = 0 ∧ bOf w = 0 :=
  ite_ok_error_eq_ok

theorem withB_eq_ok {w : OpWord} {f : Byte → Instr} {j : Instr} :
    withB w f = .ok j ↔ f (bOf w) = j ∧ aOf w = 0 :=
  ite_ok_error_eq_ok

theorem withA_eq_ok {w : OpWord} {f : Half → Instr} {j : Instr} :
    withA w f = .ok j ↔ f (aOf w) = j ∧ bOf w = 0 :=
  ite_ok_error_eq_ok

/-- A 16-bit value whose high byte is 0 is its low byte, zero-extended. -/
theorem high_byte_eq_zero_iff (a : Half) : a.extractLsb' 8 8 = 0 ↔ a = (a.extractLsb' 0 8).setWidth 16 := by
  rw [← BitVec.toNat_inj, ← BitVec.toNat_inj]
  simp [BitVec.extractLsb'_toNat, Nat.shiftRight_eq_div_pow]
  omega

theorem withRegCount_eq_ok {w : OpWord} {f : Byte → Byte → Instr} {j : Instr} :
    withRegCount w f = .ok j ↔ f (bOf w) (regCountOf w) = j ∧ aOf w = (regCountOf w).setWidth 16 := by
  have hhigh : w.extractLsb' 16 8 = (0 : Byte) ↔ aOf w = (regCountOf w).setWidth 16 := by
    rw [reservedByte_eq, regCountOf_eq, high_byte_eq_zero_iff]
  rw [← hhigh]
  exact ite_ok_error_eq_ok

/-- Bits 7:1 of a byte are 0 exactly when the byte is its bit 0. -/
theorem byte_eq_bit_zero_iff : ∀ b : Byte, b.extractLsb' 1 7 = 0 ↔ b = if b.getLsbD 0 then 1 else 0 := by decide

/-- The reserved bits of `SEND` are `A` and the upper bits of `B` (rules R83, R140). -/
theorem sendReserved_eq (w : OpWord) : w.extractLsb' 1 23 = aOf w ++ (bOf w).extractLsb' 1 7 := by
  apply BitVec.eq_of_getLsbD_eq
  intro i hi
  simp only [aOf, bOf, BitVec.getLsbD_extractLsb', BitVec.getLsbD_append, hi, decide_true, Bool.true_and]
  by_cases h : i < 7
  · have h8 : 1 + i < 8 := by omega
    simp [h, h8]
  · have h16 : i - 7 < 16 := by omega
    have e : 8 + (i - 7) = 1 + i := by omega
    simp [h, h16, e]

theorem append_eq_zero_iff {n m : Nat} (x : BitVec n) (y : BitVec m) : x ++ y = 0 ↔ x = 0 ∧ y = 0 := by
  simp [← BitVec.toNat_inj]

theorem withLogBit_eq_ok {w : OpWord} {j : Instr} :
    withLogBit w = .ok j ↔
      .send ((bOf w).getLsbD 0) = j ∧ aOf w = 0 ∧ bOf w = if (bOf w).getLsbD 0 then 1 else 0 := by
  have hbit : (bOf w).getLsbD 0 = w.getLsbD 0 := by simp [bOf]
  have hres : w.extractLsb' 1 23 = (0 : BitVec 23) ↔ aOf w = 0 ∧ (bOf w).extractLsb' 1 7 = 0 := by
    rw [sendReserved_eq]
    exact append_eq_zero_iff _ _
  rw [← byte_eq_bit_zero_iff, ← hres, hbit]
  exact ite_ok_error_eq_ok

theorem withText_eq_ok {t : List Byte} {r : Except DecodeError Instr} {j : Instr} :
    withText t r = .ok j ↔ r = .ok j ∧ textFits t = true := by
  cases r with
  | ok i => simp only [withText, ite_ok_error_eq_ok, Except.ok.injEq]
  | error e => simp [withText]

/-! ## The decoder and the encoder are inverse to each other -/

/-- The word `w` with the text `t` is a code of `i`: `i` can be presented and `w` is its word, and where the operation reads
the text, `t` is its text (rules R80, R84). -/
def IsCodeOf (w : OpWord) (t : List Byte) (i : Instr) : Prop :=
  i.wf = true ∧ ∃ u, encode i = .opw w u ∧ (opcOf w = 0x12 ∨ opcOf w = 0x13 → u = t)

/-- A word with the fields of `i`'s word is a code of `i`. -/
theorem isCodeOf_of_fields {w : OpWord} {t u : List Byte} {i : Instr} {o : Byte} {a : Half} {b : Byte}
    (hopc : (opcOf w).toNat = o.toNat) (ha : aOf w = a) (hb : bOf w = b) (he : encode i = .opw (packWord o a b) u)
    (hwf : i.wf = true) (ht : ¬(o = 0x12 ∨ o = 0x13) ∨ u = t) : IsCodeOf w t i := by
  have ho : opcOf w = o := BitVec.eq_of_toNat_eq hopc
  have hw : packWord o a b = w := packWord_eq_iff.2 ⟨ho, ha, hb⟩
  exact ⟨hwf, u, by rw [he, hw], by rw [ho]; exact ht.neg_resolve_left⟩

/-- What the decoder accepts is a code of what it answers, operand form by operand form (rule R85). The cases `h_n` are the
rows of `decodeOpw` in their order; the last one is the reserved opcode. -/
theorem isCodeOf_of_decode {w : OpWord} {t : List Byte} {i : Instr} (h : decode (.opw w t) = .ok i) :
    IsCodeOf w t i := by
  simp only [decode, decodeOpw] at h
  split at h
  case h_28 => cases h
  case h_5 hopc =>
    rw [withText_eq_ok, withNone_eq_ok] at h
    obtain ⟨⟨rfl, ha, hb⟩, hfits⟩ := h
    exact isCodeOf_of_fields (o := 0x12) hopc ha hb rfl hfits (.inr rfl)
  case h_6 hopc =>
    rw [withText_eq_ok, withB_eq_ok] at h
    obtain ⟨⟨rfl, ha⟩, hfits⟩ := h
    exact isCodeOf_of_fields (o := 0x13) hopc ha rfl rfl hfits (.inr rfl)
  case h_10 hopc =>
    obtain ⟨rfl, ha, hb⟩ := withLogBit_eq_ok.1 h
    exact isCodeOf_of_fields (o := 0x20) hopc ha hb rfl rfl (.inl (by decide))
  case h_20 | h_21 =>
    obtain ⟨rfl, ha⟩ := withRegCount_eq_ok.1 h
    exact isCodeOf_of_fields ‹_› ha rfl rfl rfl (.inl (by decide))
  case h_24 | h_25 =>
    cases h
    exact isCodeOf_of_fields ‹_› rfl rfl rfl rfl (.inl (by decide))
  case h_4 | h_9 | h_23 =>
    obtain ⟨rfl, hb⟩ := withA_eq_ok.1 h
    exact isCodeOf_of_fields ‹_› rfl hb rfl rfl (.inl (by decide))
  case h_2 | h_3 | h_7 | h_8 | h_11 | h_19 | h_27 =>
    obtain ⟨rfl, ha⟩ := withB_eq_ok.1 h
    exact isCodeOf_of_fields ‹_› ha rfl rfl rfl (.inl (by decide))
  all_goals
    obtain ⟨rfl, ha, hb⟩ := withNone_eq_ok.1 h
    exact isCodeOf_of_fields ‹_› ha hb rfl rfl (.inl (by decide))

theorem regCountOf_packWord (o c b : Byte) : regCountOf (packWord o (c.setWidth 16) b) = c := by
  rw [regCountOf_eq, aOf_packWord]
  apply BitVec.eq_of_toNat_eq
  simp [BitVec.extractLsb'_toNat, Nat.mod_mod_of_dvd]
  exact c.isLt

/-- What an encoder's word decodes to, whatever text stands on the port unless the operation reads it. -/
theorem decode_of_isCodeOf {w : OpWord} {t : List Byte} {i : Instr} (h : IsCodeOf w t i) :
    decode (.opw w t) = .ok i := by
  obtain ⟨hwf, u, he, ht⟩ := h
  cases i <;> cases he
  all_goals simp only [decode, decodeOpw, opcOf_packWord]
  case appendText =>
    obtain rfl := ht (.inl (opcOf_packWord _ _ _))
    exact withText_eq_ok.2 ⟨withNone_eq_ok.2 ⟨rfl, aOf_packWord _ _ _, bOf_packWord _ _ _⟩, hwf⟩
  case appendTrunc =>
    obtain rfl := ht (.inr (opcOf_packWord _ _ _))
    exact withText_eq_ok.2 ⟨withB_eq_ok.2 ⟨by rw [bOf_packWord], aOf_packWord _ _ _⟩, hwf⟩
  case send log =>
    refine withLogBit_eq_ok.2 ⟨?_, aOf_packWord _ _ _, ?_⟩ <;> rw [bOf_packWord] <;> cases log <;> rfl
  case rregReq c | rregResp c =>
    exact withRegCount_eq_ok.2
      ⟨by rw [bOf_packWord, regCountOf_packWord], by rw [aOf_packWord, regCountOf_packWord]⟩
  case rramReq | rramResp => rw [aOf_packWord, bOf_packWord]; rfl
  case appendU16 | appendVar | wramReq => exact withA_eq_ok.2 ⟨by rw [aOf_packWord], bOf_packWord _ _ _⟩
  case resetCmd | appendU8 | appendPage | appendReg | available | wregReq | wcurveReq =>
    exact withB_eq_ok.2 ⟨by rw [bOf_packWord], aOf_packWord _ _ _⟩
  all_goals exact withNone_eq_ok.2 ⟨rfl, aOf_packWord _ _ _, bOf_packWord _ _ _⟩

theorem decode_opw_eq_ok {w : OpWord} {t : List Byte} {i : Instr} : decode (.opw w t) = .ok i ↔ IsCodeOf w t i :=
  ⟨isCodeOf_of_decode, decode_of_isCodeOf⟩

/-- Settles O1: an operation's own word and text are a code of it, and each wire command is read from its own byte. -/
theorem decodeEncodeRoundTrip : Obligations.DecodeEncodeRoundTrip := by
  intro i hwf
  cases he : encode i with
  | opw w t => exact decode_of_isCodeOf ⟨hwf, t, he, fun _ => rfl⟩
  | wire c => cases i <;> cases he <;> rfl

theorem encode_of_decode_wire {c : Byte} {i : Instr} (h : decode (.wire c) = .ok i) :
    i.wf = true ∧ encode i = .wire c := by
  simp only [decode, decodeWire] at h
  split_ifs at h <;> cases h <;> subst_vars <;> exact ⟨rfl, rfl⟩

/-- Settles O2: what the decoder accepts is a code of what it answers. -/
theorem eachCodeHasOneMeaning : Obligations.EachCodeHasOneMeaning :=
  ⟨fun _ _ _ => isCodeOf_of_decode, fun _ _ => encode_of_decode_wire⟩

/-! ## The rows of the opcode table (rule R85) -/

/-- What a mask of ones leaves is the field. -/
theorem eq_zero_of_and_allOnes {n : Nat} (x : BitVec n) (h : x &&& BitVec.allOnes n = 0) : x = 0 := by
  rwa [BitVec.and_allOnes] at h

/-- A field that the mask leaves out is free. -/
theorem eq_self_of_and_zero {n : Nat} (x : BitVec n) (_ : x &&& 0 = 0) : x = x := rfl

/-- Of a register read's `A` the mask leaves the high byte (rule R83). -/
theorem aOf_eq_of_and_high (w : OpWord) (h : aOf w &&& 0xFF00 = 0) : aOf w = (regCountOf w).setWidth 16 := by
  have hhigh : (aOf w).extractLsb' 8 8 = (aOf w &&& 0xFF00).extractLsb' 8 8 := by
    rw [BitVec.extractLsb'_and]
    exact BitVec.and_allOnes.symm
  rw [regCountOf_eq, ← high_byte_eq_zero_iff, hhigh, h]
  rfl

theorem byte_eq_bit_of_and : ∀ b : Byte, b &&& 0xFE = 0 → b = if b.getLsbD 0 then 1 else 0 := by decide

/-- What a row says of a word, the decoder answers: an instruction of the row's mnemonic. -/
def RowDecodes (w : OpWord) (t : List Byte) (r : OpwRow) : Prop :=
  r.holds w = true → ∃ i, IsCodeOf w t i ∧ mnemonicOf i = r.mnemonic

/-- A row whose masked fields are those of `i`'s word. -/
theorem rowDecodes {w v k : OpWord} {t u : List Byte} {o : Byte} {a av ak : Half} {b bv bk : Byte} (i : Instr)
    (he : encode i = .opw (packWord o a b) u) (ha : aOf w &&& ak = av → aOf w = a) (hb : bOf w &&& bk = bv → bOf w = b)
    (hk : k = packWord 0xFF ak bk) (hv : v = packWord o av bv) (hwf : i.wf = true)
    (ht : ¬(o = 0x12 ∨ o = 0x13) ∨ u = t) : RowDecodes w t ⟨mnemonicOf i, v, k⟩ := by
  intro h
  subst hk hv
  rw [OpwRow.holds, decide_eq_true_eq, ← packWord_fields w, packWord_and, packWord_inj] at h
  obtain ⟨ho, haw, hbw⟩ := h
  have hopc : opcOf w = o := by rw [← ho]; exact (BitVec.and_allOnes (x := opcOf w)).symm
  exact ⟨i, isCodeOf_of_fields (by rw [hopc]) (ha haw) (hb hbw) he hwf ht, rfl⟩

theorem rowDecodes_of_mem {w : OpWord} {t : List Byte} (hfits : t.length ≤ 255) :
    ∀ r ∈ opwRows, RowDecodes w t r := by
  have hall : textFits t = true := (textFits_iff t).2 hfits
  have hnone {n : Nat} := @eq_zero_of_and_allOnes n
  have hfree {n : Nat} := @eq_self_of_and_zero n
  simp only [opwRows, List.cons_append, List.nil_append, List.forall_mem_cons, List.not_mem_nil, false_implies,
    implies_true, and_true]
  exact
    ⟨rowDecodes .reset rfl (hnone _) (hnone _) rfl rfl rfl (.inl (by decide)),
      rowDecodes (.resetCmd (bOf w)) rfl (hnone _) (hfree _) rfl rfl rfl (.inl (by decide)),
      rowDecodes (.appendU8 (bOf w)) rfl (hnone _) (hfree _) rfl rfl rfl (.inl (by decide)),
      rowDecodes (.appendU16 (aOf w)) rfl (hfree _) (hnone _) rfl rfl rfl (.inl (by decide)),
      rowDecodes (.appendText t) rfl (hnone _) (hnone _) rfl rfl hall (.inr rfl),
      rowDecodes (.appendTrunc (bOf w) t) rfl (hnone _) (hfree _) rfl rfl hall (.inr rfl),
      rowDecodes (.appendPage (bOf w)) rfl (hnone _) (hfree _) rfl rfl rfl (.inl (by decide)),
      rowDecodes (.appendReg (bOf w)) rfl (hnone _) (hfree _) rfl rfl rfl (.inl (by decide)),
      rowDecodes (.appendVar (aOf w)) rfl (hfree _) (hnone _) rfl rfl rfl (.inl (by decide)),
      rowDecodes (.send ((bOf w).getLsbD 0)) rfl (hnone _) (byte_eq_bit_of_and _) rfl rfl rfl (.inl (by decide)),
      rowDecodes (.available (bOf w)) rfl (hnone _) (hfree _) rfl rfl rfl (.inl (by decide)),
      rowDecodes .receive rfl (hnone _) (hnone _) rfl rfl rfl (.inl (by decide)),
      rowDecodes .extractU8 rfl (hnone _) (hnone _) rfl rfl rfl (.inl (by decide)),
      rowDecodes .extractU16 rfl (hnone _) (hnone _) rfl rfl rfl (.inl (by decide)),
      rowDecodes .extractAction rfl (hnone _) (hnone _) rfl rfl rfl (.inl (by decide)),
      rowDecodes .extractCmd rfl (hnone _) (hnone _) rfl rfl rfl (.inl (by decide)),
      rowDecodes .extractReg rfl (hnone _) (hnone _) rfl rfl rfl (.inl (by decide)),
      rowDecodes .extractVar rfl (hnone _) (hnone _) rfl rfl rfl (.inl (by decide)),
      rowDecodes (.wregReq (bOf w)) rfl (hnone _) (hfree _) rfl rfl rfl (.inl (by decide)),
      rowDecodes (.rregReq (bOf w) (regCountOf w)) rfl (aOf_eq_of_and_high w) (hfree _) rfl rfl rfl (.inl (by decide)),
      rowDecodes (.rregResp (bOf w) (regCountOf w)) rfl (aOf_eq_of_and_high w) (hfree _) rfl rfl rfl (.inl (by decide)),
      rowDecodes .rregRespMatch rfl (hnone _) (hnone _) rfl rfl rfl (.inl (by decide)),
      rowDecodes (.wramReq (aOf w)) rfl (hfree _) (hnone _) rfl rfl rfl (.inl (by decide)),
      rowDecodes (.rramReq (aOf w) (bOf w)) rfl (hfree _) (hfree _) rfl rfl rfl (.inl (by decide)),
      rowDecodes (.rramResp (aOf w) (bOf w)) rfl (hfree _) (hfree _) rfl rfl rfl (.inl (by decide)),
      rowDecodes .rramRespMatch rfl (hnone _) (hnone _) rfl rfl rfl (.inl (by decide)),
      rowDecodes (.wcurveReq (bOf w)) rfl (hnone _) (hfree _) rfl rfl rfl (.inl (by decide))⟩

/-- The code of every instruction is in its row, or is its command byte (rules R85, R91). -/
theorem encodingRow (i : Instr) : Laws.EncodingRow.Statement i := by
  cases i
  case reset => exact Laws.EncodingRow.reset
  case resetCmd c => exact Laws.EncodingRow.resetCmd c
  case appendU8 v => exact Laws.EncodingRow.appendU8 v
  case appendU16 v => exact Laws.EncodingRow.appendU16 v
  case appendText t => exact Laws.EncodingRow.appendText t
  case appendTrunc b t => exact Laws.EncodingRow.appendTrunc b t
  case appendPage p => exact Laws.EncodingRow.appendPage p
  case appendReg r => exact Laws.EncodingRow.appendReg r
  case appendVar v => exact Laws.EncodingRow.appendVar v
  case send log => exact Laws.EncodingRow.send log
  case available n => exact Laws.EncodingRow.available n
  case receive => exact Laws.EncodingRow.receive
  case extractU8 => exact Laws.EncodingRow.extractU8
  case extractU16 => exact Laws.EncodingRow.extractU16
  case extractAction => exact Laws.EncodingRow.extractAction
  case extractCmd => exact Laws.EncodingRow.extractCmd
  case extractReg => exact Laws.EncodingRow.extractReg
  case extractVar => exact Laws.EncodingRow.extractVar
  case wregReq r => exact Laws.EncodingRow.wregReq r
  case rregReq r c => exact Laws.EncodingRow.rregReq r c
  case rregResp r c => exact Laws.EncodingRow.rregResp r c
  case rregRespMatch => exact Laws.EncodingRow.rregRespMatch
  case wramReq v => exact Laws.EncodingRow.wramReq v
  case rramReq v c => exact Laws.EncodingRow.rramReq v c
  case rramResp v c => exact Laws.EncodingRow.rramResp v c
  case rramRespMatch => exact Laws.EncodingRow.rramRespMatch
  case wcurveReq m => exact Laws.EncodingRow.wcurveReq m
  all_goals rfl

/-- No operation word decodes to a wire command (rule R85). -/
theorem wireCommandOf_of_decode_opw {w : OpWord} {t : List Byte} {i : Instr} (h : decode (.opw w t) = .ok i) :
    wireCommandOf i = none := by
  obtain ⟨_, u, he, _⟩ := isCodeOf_of_decode h
  cases hc : wireCommandOf i with
  | none => rfl
  | some c => cases i <;> cases hc <;> cases he

/-- A word that decodes is in the row of its instruction (rule R85). -/
theorem row_of_decode {w : OpWord} {t : List Byte} {i : Instr} (h : decode (.opw w t) = .ok i) :
    ∃ r ∈ opwRows, r.holds w = true ∧ mnemonicOf i = r.mnemonic := by
  obtain ⟨_, u, he, _⟩ := isCodeOf_of_decode h
  have hrow := encodingRow i
  rw [Laws.EncodingRow.Statement, wireCommandOf_of_decode_opw h] at hrow
  obtain ⟨w', u', he', r, hr, hm, hholds⟩ := hrow
  cases he.symm.trans he'
  exact ⟨r, hr, hholds, hm.symm⟩

theorem eq_of_mnemonic_eq : ∀ r ∈ opwRows, ∀ q ∈ opwRows, r.mnemonic = q.mnemonic → r = q := by decide

/-- A word in two rows would give both the same bits under both masks. -/
theorem not_both_hold {r q : OpwRow} {w : OpWord} (h : r.value &&& q.mask ≠ q.value &&& r.mask) :
    ¬(r.holds w = true ∧ q.holds w = true) := by
  rintro ⟨hr, hq⟩
  rw [OpwRow.holds, decide_eq_true_eq] at hr hq
  apply h
  rw [← hr, ← hq, BitVec.and_assoc, BitVec.and_assoc, BitVec.and_comm r.mask]

theorem opwRows_disjoint (w : OpWord) : opwRows.Pairwise fun r q => ¬(r.holds w = true ∧ q.holds w = true) := by
  have hbits : opwRows.Pairwise fun r q => r.value &&& q.mask ≠ q.value &&& r.mask := by decide
  exact hbits.imp not_both_hold

/-- A row holds of a word exactly when the word decodes to an instruction of its mnemonic (rule R85). -/
theorem row_holds_iff_decodes {w : OpWord} {t : List Byte} {r : OpwRow} (hr : r ∈ opwRows) (hfits : t.length ≤ 255) :
    r.holds w = true ↔ ∃ i, decode (.opw w t) = .ok i ∧ mnemonicOf i = r.mnemonic := by
  constructor
  · intro h
    obtain ⟨i, hi, hm⟩ := rowDecodes_of_mem hfits r hr h
    exact ⟨i, decode_of_isCodeOf hi, hm⟩
  · rintro ⟨i, hi, hm⟩
    obtain ⟨q, hq, hholds, hmq⟩ := row_of_decode hi
    rwa [eq_of_mnemonic_eq r hr q hq (hm.symm.trans hmq)]

/-- FE, not busy, answers a presented word that is no operation with ILLEGAL_OP (rules R85, R215). -/
theorem feTurn_of_undecoded {s : State} {op : Operation} {rest : List Operation} {e : DecodeError} (hr : s.rxst = .idle)
    (hc : s.caller = op :: rest) (hd : decode (.opw op.opw op.text) = .error e) :
    feTurn s = .next (raise .illegalOp { s with caller := rest }) := by
  simp only [feTurn, hr, acceptOp, hc, runCode, hd]

/-- Settles O3: the rows and the decoder agree on each word, no two rows share bits, and a word of no row is undecoded. -/
theorem decodingFollowsTheTable : Obligations.DecodingFollowsTheTable := by
  refine ⟨fun _ _ _ => row_holds_iff_decodes, opwRows_disjoint, fun _ _ _ => row_of_decode, ?_⟩
  intro s op rest ts hs hr hc hnone
  cases hd : decode (.opw op.opw op.text) with
  | error e => rw [step_of_fe hs, feTurn_of_undecoded (s := { s with script := ts }) hr hc hd]; rfl
  | ok i =>
    obtain ⟨r, hmem, hholds, _⟩ := row_of_decode hd
    exact absurd hholds (by simp [hnone r hmem])

/-- Settles O4: each word is evaluated. -/
theorem writtenOutWordsDecode : Obligations.WrittenOutWordsDecode := by
  unfold Obligations.WrittenOutWordsDecode
  decide

/-! ## A text over 255 bytes (rules R84, R125, R215) -/

/-- A word of a text operation is refused for its text alone. -/
theorem withText_of_long {t : List Byte} (h : textFits t = false) (i : Instr) :
    withText t (.ok i) = .error .textTooLong := by
  simp [withText, h]

/-- Settles O19: the text is looked at before everything else, in the two meanings and in the decoder. -/
theorem longTextIsIllegal : Obligations.LongTextIsIllegal := by
  intro t b s hlong
  have hfits : textFits t = false := by
    rw [Bool.eq_false_iff, Ne, textFits_iff]
    omega
  have hword : withB (packWord 0x13 0 b) (fun b => .appendTrunc b t) = .ok (.appendTrunc b t) :=
    withB_eq_ok.2 ⟨by rw [bOf_packWord], aOf_packWord _ _ _⟩
  refine ⟨?_, ?_, withText_of_long hfits _, ?_⟩
  · simp only [exec, execAppendText, hfits]; rfl
  · simp only [exec, execAppendTrunc, hfits]; rfl
  · simp only [encode, decode, decodeOpw, opcOf_packWord]
    exact (congrArg (withText t) hword).trans (withText_of_long hfits _)

end Sys2Proof

/-! The statements of file 30_encoding.md on the step: which instruction a step runs (rules R80, R91, R149), and that the port
accepts only while FE is not busy (rule R81). -/

namespace Sys2Proof.Machine

open Sys2Proof.Safety

/-! ## The instruction a step runs -/

/-- The named wire command at the head of a body (rule R91). -/
theorem frameCommand_of_decode {s : State} {c : Byte} {q : List Byte} {i : Instr} (hx : s.rxq = c :: q)
    (hl : s.rxlen ≠ 0) (hd : decode (.wire c) = .ok i) : frameCommand s = some i := by
  simp only [frameCommand, hl, if_false, hx, hd]

/-- FE's move on a queued body led by a named command is that command's meaning (rules R91, R149). -/
theorem feTurn_of_wireCommand {s : State} {c : Byte} {q : List Byte} {i : Instr} (hr : s.rxst = .body)
    (hx : s.rxq = c :: q) (h1 : 1 ≤ s.rxlen.toNat) (hq : s.rxlen.toNat ≤ s.rxq.length) (hd : decode (.wire c) = .ok i) :
    feTurn s = exec i s := by
  have hl : s.rxlen ≠ 0 := by
    intro h0
    simp [h0] at h1
  have hf := frameCommand_of_decode hx hl hd
  rw [feTurn_body hr hq, frameCommand_exec hr ((bodyQueued_iff s).2 hq) hf]

theorem timeoutEnabled_of_queued_body {s : State} (hr : s.rxst = .body) (hq : s.rxlen.toNat ≤ s.rxq.length) :
    timeoutEnabled s = false := by
  simp [timeoutEnabled, hr, bodyQueued, rxHas, hq]

/-- Settles O6: the step is FE's move, with or without a turn scheduled for it, and that move runs the command. -/
theorem stepRunsTheWireCommand : Obligations.StepRunsTheWireCommand := by
  intro s c q i hr hx h1 hq hd
  constructor
  · intro ts hs
    rw [step_of_fe hs, feTurn_of_wireCommand (s := { s with script := ts }) hr hx h1 hq hd]
  · intro hs
    rw [step_of_unscheduled hs (timeoutEnabled_of_queued_body hr hq), feTurn_of_wireCommand hr hx h1 hq hd]

/-- Settles O31: the step is FE's move, and that move is the body step whatever leads the body. -/
theorem bodyStepWhateverTheCommand : Obligations.BodyStepWhateverTheCommand := by
  intro s ts hs hr hq
  rw [step_of_fe hs, feTurn_body (s := { s with script := ts }) hr hq]

theorem decode_of_decodeTableWord {nbits w : Nat} {i : Instr} (h : decodeTableWord nbits w = some i) :
    decode (codeOfTableWord nbits w) = .ok i := by
  unfold decodeTableWord at h
  split at h
  · next j hj => cases h; exact hj
  · cases h

/-- An operation word stands first on the port of an FE that is not busy, and FE takes it. -/
theorem step_placed_word {w : OpWord} {t : List Byte} {i : Instr} (s : State) (hd : decode (.opw w t) = .ok i) :
    step (placeCode (.opw w t) s) = exec i { s with rxst := .idle } :=
  (step_of_fe (ts := s.script) rfl).trans
    (feTurn_of_presented (s := { s with rxst := .idle, caller := ⟨w, t⟩ :: s.caller }) rfl rfl hd)

/-- A command byte is the whole queued body of a receive, and FE takes it. -/
theorem step_placed_command {b : Byte} {i : Instr} (s : State) (hd : decode (.wire b) = .ok i) :
    step (placeCode (.wire b) s) = exec i { s with mode := .rx, rxst := .body, rxlen := 1, rxq := b :: s.rxq } := by
  have hqueued : 1 ≤ (b :: s.rxq).length := Nat.le_add_left 1 s.rxq.length
  exact (step_of_fe (ts := s.script) rfl).trans
    (feTurn_of_wireCommand (s := { s with mode := .rx, rxst := .body, rxlen := 1, rxq := b :: s.rxq }) rfl rfl
      (Nat.le_refl 1) hqueued hd)

/-- Settles O7: a row of more than 8 bits is placed as an operation word, any other as a command byte. -/
theorem placedInstructionRuns : Obligations.PlacedInstructionRuns := by
  intro s nbits w i h
  have hd := decode_of_decodeTableWord h
  unfold State.withFetchWord
  constructor
  · intro hlong
    have hcode : codeOfTableWord nbits w = .opw (BitVec.ofNat 32 w) [] := if_neg (Nat.not_le.2 hlong)
    rw [hcode] at hd ⊢
    exact step_placed_word s hd
  · intro hshort
    have hcode : codeOfTableWord nbits w = .wire (BitVec.ofNat 8 w) := if_pos hshort
    rw [hcode] at hd ⊢
    exact step_placed_command s hd

/-! ## The port while FE is busy (rule R81) -/

theorem huntAStep_caller (s : State) : (huntAStep s).caller = s.caller := by
  unfold huntAStep
  split <;> rfl

theorem huntBStep_caller (s : State) : (huntBStep s).caller = s.caller := by
  unfold huntBStep
  split
  · rfl
  · split_ifs <;> rfl

theorem lenStep_caller (s : State) : (lenStep s).caller = s.caller := by
  unfold lenStep
  split
  · rfl
  · dsimp only
    split_ifs <;> rfl

theorem timeoutStep_caller (s : State) : (timeoutStep s).caller = s.caller := by
  unfold timeoutStep
  split <;> rfl

theorem rxBody_caller {s t : State} (h : rxBody s = .next t) : t.caller = s.caller := by
  obtain ⟨_, rfl⟩ := rxBody_next h
  rw [rxComplete_frame]
  rfl

theorem busy_iff (s : State) : busy s = true ↔ s.rxst ≠ .idle := decide_eq_true_iff

theorem not_busy_iff (s : State) : busy s = false ↔ s.rxst = .idle := by
  rw [← Bool.not_eq_true, busy_iff, not_not]

/-- A busy FE takes no operation from the port. -/
theorem feTurn_caller {s t : State} (hb : s.rxst ≠ .idle) (h : feTurn s = .next t) : t.caller = s.caller := by
  rcases feTurn_cases s with ⟨_, e⟩ | ⟨hr, _⟩ | ⟨hr, _⟩ | ⟨_, _, e⟩ | ⟨_, _, e⟩ | ⟨_, _, e⟩ | ⟨_, _, _, e⟩
  · cases e.symm.trans h; rfl
  · exact absurd hr hb
  · exact absurd hr hb
  · cases e.symm.trans h; exact huntAStep_caller s
  · cases e.symm.trans h; exact huntBStep_caller s
  · cases e.symm.trans h; exact lenStep_caller s
  · exact rxBody_caller (e.symm.trans h)

/-- While FE is busy only the caller's own turn changes what stands on the port. -/
theorem step_caller_of_busy {s t : State} (hb : s.rxst ≠ .idle) (h : step s = .next t) :
    t.caller = s.caller ∨ ∃ op ts, s.script = .present op :: ts ∧ t.caller = s.caller ++ [op] := by
  rcases step_cases s with ⟨_, e⟩ | ⟨_, _, _, e⟩ | ⟨ts, _, _, e⟩ | ⟨op, ts, hs, _, e⟩ | ⟨bs, ts, _, _, e⟩ | ⟨ts, _, _, e⟩ <;>
    have ht := e.symm.trans h
  · exact .inl (feTurn_caller (s := { s with script := s.script.tail }) hb ht)
  · cases ht; exact .inl rfl
  · cases ht; exact .inl (timeoutStep_caller { s with script := ts })
  · cases ht; exact .inr ⟨op, ts, hs, rfl⟩
  · cases ht; exact .inl rfl
  · cases ht; exact .inl rfl

/-! ## Which operations stay busy (rule R81) -/

@[simp] theorem appendBytes_rxst (bs : List Byte) (s : State) : (appendBytes bs s).rxst = s.rxst := by
  rcases appendBytes_cases bs s with ⟨_, h⟩ | ⟨_, _, h⟩ | ⟨_, _, _, h⟩ | ⟨_, _, _, h⟩ <;> rw [h]
  · rfl
  · rfl
  · rfl
  · rw [appended_frame]

@[simp] theorem openFrame_rxst (c : Byte) (s : State) : (openFrame c s).rxst = s.rxst := rfl

theorem extract_rxst (w : Nat) (s : State) : (extract w s).rxst = s.rxst := by
  rcases extract_cases w s with ⟨_, h⟩ | ⟨_, _, h⟩ | ⟨_, _, _, h⟩ | ⟨_, _, _, h⟩ <;> rw [h] <;> rfl

theorem builtRequest_rxst (i : Instr) (s : State) : (builtRequest i s).rxst = s.rxst := by
  unfold builtRequest
  split <;> simp

theorem execSend_rxst {log : Bool} {s t : State} (h : execSend log s = .next t) : t.rxst = s.rxst := by
  rcases execSend_cases log s with ⟨_, e⟩ | ⟨_, _, e⟩ | ⟨_, _, _, e⟩ | ⟨_, _, _, e⟩ <;> cases e.symm.trans h
  · rfl
  · rfl
  · rfl
  · rw [sendFrame_frame]

/-- An idle FE takes no frame in. -/
theorem takeFrame_of_idle {s : State} (c : Byte) (hr : s.rxst = .idle) :
    takeFrame c s = .next (raise .illegalOp s) := by
  rcases takeFrame_cases c s with ⟨hled, _⟩ | ⟨_, hb, _⟩ | ⟨_, _, e⟩
  · obtain ⟨hbody, -⟩ := (frameLedBy_iff c s).1 hled
    exact nomatch hr.symm.trans hbody
  · exact absurd hr ((busy_iff s).1 hb)
  · exact e

/-- Every instruction but a receive leaves an idle FE idle, group by group. -/
theorem exec_idle {i : Instr} {s t : State} (hr : s.rxst = .idle) (hn : isReceive i = false) (h : exec i s = .next t) :
    t.rxst = .idle := by
  have hs := exec_shape i s
  rw [h] at hs
  generalize he : Host.Outcome.next t = r at hs
  cases hs with
  | receive chk hrec => exact absurd hrec (by simp [hn])
  | noRequest hrec => exact absurd hrec (by simp [hn])
  | append bs => cases he; exact (appendBytes_rxst bs s).trans hr
  | extract w => cases he; exact (extract_rxst w s).trans hr
  | request f => cases he; exact (builtRequest_rxst i s).trans hr
  | send log => exact (execSend_rxst he.symm).trans hr
  | wire c => cases (takeFrame_of_idle c hr).symm.trans he.symm; exact hr
  | reset => cases he; exact hr
  | resetCmd c => cases he; exact hr
  | longText bs => cases he; exact hr
  | available n => cases he; exact hr

/-- A receive starts, or is ILLEGAL_OP for want of a latched request (rules R146, R185, R191). -/
theorem exec_receive_cases {i : Instr} (s : State) (h : isReceive i = true) :
    (illegalHere s i = false ∧ ∃ chk, exec i s = .next (rxStart chk s)) ∨
    (illegalHere s i = true ∧ exec i s = .next (raise .illegalOp s)) := by
  have hs := exec_shape i s
  generalize exec i s = r at hs
  cases hs with
  | receive chk _ hl => exact .inl ⟨hl, chk, rfl⟩
  | noRequest _ hl => exact .inr ⟨hl, rfl⟩
  | append bs hb => cases i <;> cases hb <;> cases h
  | longText bs hb => cases i <;> cases hb <;> cases h
  | extract w hw => cases i <;> cases hw <;> cases h
  | request f hf => cases i <;> cases hf <;> cases h
  | wire c hc => cases i <;> cases hc <;> cases h
  | reset | resetCmd | send | available => cases h

/-- Settles O8: a busy FE takes nothing from the port, and of the groups of instructions only the receives set `RXST`. -/
theorem portAcceptsOnlyWhenNotBusy : Obligations.PortAcceptsOnlyWhenNotBusy := by
  refine ⟨fun s t hb h => step_caller_of_busy ((busy_iff s).1 hb) h, fun i s t hb hn h => ?_, fun i s t _ hrec h => ?_⟩
  · exact (not_busy_iff t).2 (exec_idle ((not_busy_iff s).1 hb) hn h)
  · rcases exec_receive_cases s hrec with ⟨_, chk, e⟩ | ⟨hill, e⟩ <;> cases e.symm.trans h
    · exact .inl ⟨rfl, rfl, rfl⟩
    · exact .inr ⟨hill, rfl⟩

end Sys2Proof.Machine

/-! The statements of file 30_encoding.md on the frame that comes in: the header hunt finds it (rules R94, R147 to R149), and
the wire command rows take it in (rules R91, R92; log 9). -/

namespace Sys2Proof.Machine

open Sys2Proof.Safety

/-! ## The header hunt (rules R147, R148, R154) -/

/-- The state behind the header: it is stored, `q` is still queued, and the length is awaited (rule R148). -/
def headerFound (q : List Byte) (s : State) : State := memWrite 0 [0x5A, 0xA5] { s with rxq := q, rxst := .len }

theorem headerFound_byte (q : List Byte) (s : State) (x : Nat) :
    bufByte (headerFound q s) x = if x = 0 then 0x5A else if x = 1 then 0xA5 else bufByte s x := by
  simp only [bufByte, headerFound, memWrite, Memory.insertAll, lookup_insert]
  split_ifs <;> simp_all

/-- What of the header a hunting FE has seen: nothing in R_HUNT_A, header byte A in R_HUNT_B. -/
inductive Hunting : RxState → List Byte → Prop where
  | forA : Hunting .huntA []
  | forB : Hunting .huntB [0x5A]

theorem Hunting.no_timeout {s : State} {seen : List Byte} (h : Hunting s.rxst seen) : timeoutEnabled s = false := by
  generalize hr : s.rxst = x at h
  cases h <;> simp only [timeoutEnabled, hr]

/-- A hunting FE discards a byte that brings it no header, and has seen header byte A when that byte is one
(rules R147, R148, R154). -/
theorem step_of_hunting {s : State} {seen q : List Byte} {b : Byte} (hs : s.script = []) (hh : Hunting s.rxst seen)
    (hx : s.rxq = b :: q) (hno : seen ++ [b] ≠ [0x5A, 0xA5]) :
    step s = .next { s with rxq := q, rxst := if b = 0x5A then .huntB else .huntA } := by
  rw [step_of_unscheduled hs hh.no_timeout]
  generalize hr : s.rxst = x at hh
  cases hh with
  | forA => simp only [feTurn, hr, huntAStep, hx]; rfl
  | forB =>
    have hb : b ≠ 0xA5 := fun e => hno (by rw [e]; rfl)
    have hb' : b ≠ Config.hdrB := hb
    simp only [feTurn, hr, huntBStep, hx, hb', if_false]
    change Host.Outcome.next (if b = 0x5A then _ else _) = _
    split_ifs <;> rfl

/-- What has been seen of a header after one more byte is the end of the bytes examined. -/
theorem Hunting.next (seen : List Byte) (b : Byte) :
    ∃ seen', Hunting (if b = 0x5A then .huntB else .huntA) seen' ∧ seen' <:+ seen ++ [b] := by
  split_ifs with h
  · exact ⟨[0x5A], .forB, h ▸ List.suffix_append seen [b]⟩
  · exact ⟨[], .forA, List.nil_suffix⟩

/-- Header byte B behind header byte A is the header (rule R148). -/
theorem step_of_header {s : State} {q : List Byte} (hs : s.script = []) (hr : s.rxst = .huntB) (hx : s.rxq = 0xA5 :: q) :
    step s = .next (headerFound q s) := by
  have hh : Hunting s.rxst [0x5A] := hr ▸ .forB
  rw [step_of_unscheduled hs hh.no_timeout]
  simp only [feTurn, hr, huntBStep, hx]
  rfl

/-- Stray bytes that hold no header, together with what has been seen of one, are discarded one by one, and the header
behind them is found (rules R94, R154). -/
theorem run_of_hunting {s : State} {seen stray q : List Byte} (k : Nat) (hs : s.script = [])
    (hh : Hunting s.rxst seen) (hx : s.rxq = stray ++ 0x5A :: 0xA5 :: q) (hno : ¬[0x5A, 0xA5] <:+: seen ++ stray) :
    Host.Core.run core (stray.length + 2 + k) s = Host.Core.run core k (headerFound q s) := by
  induction stray generalizing s seen with
  | nil =>
    have hA : seen ++ [0x5A] ≠ [0x5A, 0xA5] := fun e => by simpa using congrArg List.getLast? e
    have hfirst : step s = .next { s with rxq := 0xA5 :: q, rxst := .huntB } := step_of_hunting hs hh hx hA
    have hsecond := step_of_header (s := { s with rxq := 0xA5 :: q, rxst := .huntB }) hs rfl rfl
    rw [show ([] : List Byte).length + 2 + k = k + 1 + 1 by simp; omega, core_run_next hfirst, core_run_next hsecond]
    rfl
  | cons b stray ih =>
    have hb : seen ++ [b] ≠ [0x5A, 0xA5] := fun e => hno ⟨[], stray, by rw [← e]; simp⟩
    obtain ⟨seen', hh', p, hp⟩ := Hunting.next seen b
    have hno' : ¬[0x5A, 0xA5] <:+: seen' ++ stray := fun hin =>
      hno (hin.trans ⟨p, [], by rw [← List.append_assoc, hp]; simp⟩)
    rw [show (b :: stray).length + 2 + k = stray.length + 2 + k + 1 by simp; omega,
      core_run_next (step_of_hunting hs hh hx hb)]
    exact ih (s := { s with rxq := stray ++ 0x5A :: 0xA5 :: q, rxst := if b = 0x5A then .huntB else .huntA }) hs hh' rfl hno'

/-! ## The length and the body (rules R149, R152) -/

/-- The state behind the length byte: it is stored, and the body is awaited in `q` (rule R149). -/
def lengthStored (l : Byte) (q : List Byte) (s : State) : State :=
  memWrite 2 [l] { s with rxq := q, rxlen := l, rxst := .body }

theorem lengthStored_byte (l : Byte) (q : List Byte) (s : State) (x : Nat) :
    bufByte (lengthStored l q s) x = if x = 2 then l else bufByte s x := by
  simp only [bufByte, lengthStored, memWrite, Memory.insertAll, lookup_insert]
  split_ifs <;> simp

/-- A legal length byte is stored, and its body awaited (rule R149). -/
theorem step_of_length {s : State} {l : Byte} {q : List Byte} (hs : s.script = []) (hr : s.rxst = .len)
    (hx : s.rxq = l :: q) (hl : l.toNat ≤ 252) :
    step s = .next (lengthStored l q s) := by
  have hno : timeoutEnabled s = false := by simp [timeoutEnabled, hr, rxHas, hx]
  rw [step_of_unscheduled hs hno]
  have hlen : ¬252 < l.toNat := by omega
  simp only [feTurn, hr, lenStep, hx, config_maxLen, gt_iff_lt, hlen, if_false]
  rfl

/-- With nothing scheduled FE takes a queued body of legal length in (rule R149). -/
theorem step_of_body {s : State} (hs : s.script = []) (hr : s.rxst = .body) (hk : s.rchk = .none)
    (hl : s.rxlen.toNat ≤ 252) (hq : s.rxlen.toNat ≤ s.rxq.length) :
    step s = .next { bodyTaken s with rxst := .idle, status := .ok, data := 0 } := by
  rw [step_of_unscheduled hs (timeoutEnabled_of_queued_body hr hq), feTurn_body hr hq, rxBody_of_le hl, rxComplete_of_no_check (s := bodyTaken s) hk]

/-- The state in R_BODY after header and length, the body standing first in `q`. -/
def bodyAwaited (l : Byte) (q : List Byte) (s : State) : State := lengthStored l q (headerFound (l :: q) s)

theorem bodyAwaited_byte (l : Byte) (q : List Byte) (s : State) (x : Nat) :
    bufByte (bodyAwaited l q s) x =
      if x = 2 then l else if x = 0 then 0x5A else if x = 1 then 0xA5 else bufByte s x := by
  rw [bodyAwaited, lengthStored_byte, headerFound_byte]

/-- Behind the header, two steps take in a legal length and its body (rules R149, R152). -/
theorem run_of_headerFound {s : State} {l : Byte} {q : List Byte} (hs : s.script = []) (hk : s.rchk = .none)
    (hl : l.toNat ≤ 252) (hq : l.toNat ≤ q.length) :
    Host.Core.run core 2 (headerFound (l :: q) s) =
      .next { s with
        buf := (bodyTaken (bodyAwaited l q s)).buf, rxq := q.drop l.toNat, rxlen := l,
        fend := BitVec.ofNat 8 (3 + l.toNat), pos := 3, rxst := .idle, status := .ok, data := 0 } := by
  have hlength : step (headerFound (l :: q) s) = .next (bodyAwaited l q s) := step_of_length hs rfl rfl hl
  have hbody := step_of_body (s := bodyAwaited l q s) hs rfl hk hl hq
  rw [core_run_next hlength, core_run_next hbody]
  rfl

/-- Settles O36: the hunt reaches the header, and two more steps take in the length and the body. -/
theorem receiveFindsTheFrame : Obligations.ReceiveFindsTheFrame := by
  intro s stray body rest l hs hr hk hno hl hbody hx
  have hhunting : Hunting s.rxst [] := hr ▸ .forA
  have hqueue : s.rxq = stray ++ 0x5A :: 0xA5 :: l :: (body ++ rest) := by rw [hx]; simp
  have hqueued : l.toNat ≤ (body ++ rest).length := by rw [List.length_append]; omega
  have hrun := (run_of_hunting 2 hs hhunting hqueue hno).trans (run_of_headerFound hs hk hl hqueued)
  rw [← hbody, List.drop_left, hbody] at hrun
  have hout (a : Nat) (ha : a < 3 ∨ 3 + l.toNat ≤ a) :=
    (bodyTaken_byte_outside (s := bodyAwaited l (body ++ rest) s) ha).trans (bodyAwaited_byte l (body ++ rest) s a)
  refine ⟨_, hrun, hout 0 (.inl (by decide)), hout 1 (.inl (by decide)), hout 2 (.inl (by decide)), fun k hlt => ?_, fun a ha => ?_, rfl⟩
  · have hin : k < (body ++ rest).length := by rw [List.length_append]; omega
    exact (bodyTaken_byte_inside (s := bodyAwaited l (body ++ rest) s) hin (hbody ▸ hlt)).trans
      (List.getElem_append_left hlt)
  · refine (hout a (.inr ha)).trans ?_
    rw [if_neg (by omega), if_neg (by omega), if_neg (by omega)]

/-! ## The wire command rows (rules R91, R92; log 9) -/

/-- Each wire command row takes in a frame led by its command byte. -/
theorem exec_of_wireCommandOf {i : Instr} {c : Byte} (h : wireCommandOf i = some c) (s : State) :
    exec i s = takeFrame c s := by
  cases i <;> cases h <;> rfl

/-- How a receive that has taken its frame in ends (rule R152): with OK, at the command byte when no check is pending, or
with RESPONSE_MISMATCH where one is. -/
theorem rxComplete_result (s : State) :
    (s.rchk = .none → (rxComplete s).status = .ok ∧ (rxComplete s).pos = s.pos ∧ (rxComplete s).err = s.err ∧
      (rxComplete s).ecode = s.ecode) ∧
    ((rxComplete s).status = .ok ∧ (rxComplete s).err = s.err ∧ (rxComplete s).ecode = s.ecode ∨
      s.rchk ≠ .none ∧ (rxComplete s).status = .responseMismatch ∧ (rxComplete s).pos = s.pos ∧
        (rxComplete s).err = true ∧ (rxComplete s).ecode = .responseMismatch) := by
  rcases rxComplete_cases s with ⟨_, e⟩ | ⟨hk, p, _, _, e⟩ | ⟨hk, e⟩ <;> rw [e]
  · exact ⟨fun _ => ⟨rfl, rfl, rfl, rfl⟩, .inl ⟨rfl, rfl, rfl⟩⟩
  · exact ⟨fun hn => absurd hn hk, .inl ⟨rfl, rfl, rfl⟩⟩
  · exact ⟨fun hn => absurd hn hk, .inr ⟨hk, rfl, rfl, rfl, rfl⟩⟩

/-- Settles O38: the row's meaning is the body step, which takes the body in and completes the receive. -/
theorem wireCommandTakesTheFrameIn : Obligations.WireCommandTakesTheFrameIn := by
  intro i c s hc hr hhead h1 hl hq
  have hled : frameLedBy c s = true :=
    (frameLedBy_iff c s).2 ⟨hr, hq, fun h0 => by simp [h0] at h1, hhead⟩
  have hexec : exec i s = .next (rxComplete (bodyTaken s)) := by
    rw [exec_of_wireCommandOf hc, takeFrame, if_pos hled, rxBody_of_le hl]
  have hin (k : Nat) (h : k < s.rxq.length) (hk : k < s.rxlen.toNat) :
      bufByte (rxComplete (bodyTaken s)) (3 + k) = s.rxq[k] := by
    rw [rxComplete_byte, bodyTaken_byte_inside h hk]
  refine ⟨_, hexec, ?_, hin, fun a ha => ?_, ?_, rxComplete_result (bodyTaken s)⟩
  · have h0 : 0 < s.rxq.length := by omega
    have hfirst : s.rxq[0] = c := by
      rw [List.head?_eq_getElem?, List.getElem?_eq_getElem h0] at hhead
      exact Option.some.inj hhead
    rw [← hfirst]
    exact hin 0 h0 (by omega)
  · rw [rxComplete_byte, bodyTaken_byte_outside ha]
  · rw [rxComplete_frame]
    rfl

/-- Settles O39: without a frame to take in, the meaning waits or is ILLEGAL_OP, and no operation word has it. -/
theorem wireCommandIsNoOperationWord : Obligations.WireCommandIsNoOperationWord := by
  refine ⟨fun i c s hc hled => ⟨fun hb => ?_, fun hb => ?_⟩, fun _ _ _ => wireCommandOf_of_decode_opw⟩
  · simp only [exec_of_wireCommandOf hc, takeFrame, hled, hb]; rfl
  · simp only [exec_of_wireCommandOf hc, takeFrame, hled, hb]; rfl

end Sys2Proof.Machine

/-! The statements of file 30_encoding.md on the request builders (rules R93, R180 to R193) and on the mode table (rule
R87). -/

namespace Sys2Proof.Machine

open Sys2Proof.Safety

/-! ## A frame under construction (rules R62, R89, R122) -/

theorem wireFrame_length (c : Byte) (p : List Byte) : (wireFrame c p).length = 4 + p.length := by
  simp [wireFrame]; omega

/-- Longer payload bytes come after the frame, and the length byte counts them. -/
theorem wireFrame_append (c : Byte) (p bs : List Byte) :
    wireFrame c (p ++ bs) = (wireFrame c p).set 2 (BitVec.ofNat 8 (1 + (p ++ bs).length)) ++ bs := by
  simp [wireFrame]

/-- The buffer of `t` begins with the wire frame of command `c` and payload `p` and holds what `s` held behind it; the
cursor is behind the frame, the mode is TX without error, and nothing else but the latch and the result differs from `s`. -/
structure BuildsFrame (c : Byte) (p : List Byte) (s t : State) : Prop where
  cursor : t.pos.toNat = (wireFrame c p).length
  bytes  : ∀ (k : Nat) (h : k < (wireFrame c p).length), bufByte t k = (wireFrame c p)[k]
  behind : ∀ a, (wireFrame c p).length ≤ a → bufByte t a = bufByte s a
  others : t = { s with
    buf := t.buf, pos := t.pos, fend := 0, mode := .tx, err := false, ecode := .ok, reqValid := t.reqValid,
    reqKind := t.reqKind, reqAddr := t.reqAddr, reqCnt := t.reqCnt, status := t.status, data := t.data }

theorem BuildsFrame.mode {c : Byte} {p : List Byte} {s t : State} (h : BuildsFrame c p s t) : t.mode = .tx := by
  rw [h.others]

theorem BuildsFrame.err {c : Byte} {p : List Byte} {s t : State} (h : BuildsFrame c p s t) : t.err = false := by
  rw [h.others]

/-- `open` starts a frame without payload (rules R111, R181). -/
theorem buildsFrame_openFrame (c : Byte) (s : State) : BuildsFrame c [] s (openFrame c s) where
  cursor := rfl
  bytes k h := by
    have h4 : k < 4 := h
    rw [openFrame_byte]
    interval_cases k <;> rfl
  behind a ha := by
    rw [wireFrame_length, List.length_nil] at ha
    rw [openFrame_byte, if_neg (by omega), if_neg (by omega), if_neg (by omega), if_neg (by omega)]
  others := openFrame_frame c s

/-- An append that fits lengthens the payload by its bytes (rules R121, R122). -/
theorem BuildsFrame.append {c : Byte} {p : List Byte} {s t : State} (h : BuildsFrame c p s t) (bs : List Byte)
    (hfit : p.length + bs.length ≤ 251) : BuildsFrame c (p ++ bs) s (appendBytes bs t) := by
  have hpos : t.pos.toNat = 4 + p.length := by rw [h.cursor, wireFrame_length]
  have hroom : t.pos.toNat + bs.length ≤ 255 := by omega
  rw [appendBytes_fits (by simp [h.mode]) h.err hroom]
  have hlen : (wireFrame c (p ++ bs)).length = t.pos.toNat + bs.length := by
    rw [wireFrame_length, List.length_append]; omega
  refine ⟨?_, fun k hk => ?_, fun a ha => ?_, ?_⟩
  · rw [appended_pos_toNat hroom, hlen]
  · rw [hlen] at hk
    simp only [wireFrame_append]
    by_cases hnew : t.pos.toNat ≤ k
    · obtain ⟨j, rfl⟩ := Nat.exists_eq_add_of_le hnew
      rw [appended_byte_inside hroom (by omega) (by omega), List.getElem_append_right (by simp [← h.cursor])]
      simp [← h.cursor]
    · rw [List.getElem_append_left (by rw [List.length_set, ← h.cursor]; omega), List.getElem_set]
      split_ifs with h2
      · subst h2
        rw [appended_byte_two hroom (by omega), lengthByte, List.length_append]
        congr 1
        omega
      · rw [appended_byte_outside hroom (by omega) (by omega), h.bytes]
  · rw [hlen] at ha
    rw [appended_byte_outside hroom (by omega) (by omega), h.behind a (by rw [← h.cursor]; omega)]
  · rw [appended_frame, h.others]

theorem BuildsFrame.latchRequest {c : Byte} {p : List Byte} {s t : State} (h : BuildsFrame c p s t) (k : ReqKind)
    (a : Half) (n : Byte) : BuildsFrame c p s (latchRequest k a n t) :=
  ⟨h.cursor, h.bytes, h.behind, by rw [h.others]; rfl⟩

theorem BuildsFrame.returnOk {c : Byte} {p : List Byte} {s t : State} (h : BuildsFrame c p s t) (d : Half) :
    BuildsFrame c p s (returnOk d t) :=
  ⟨h.cursor, h.bytes, h.behind, by rw [h.others]; rfl⟩

/-! ## The five request builders (rules R93, R181 to R193) -/

/-- A builder opens its frame and appends the payload of its shape; the payload of a read request is its address and its
count. -/
theorem buildsFrame_builtRequest {i : Instr} {f : FrameShape} (s : State) (h : requestOf i = some f) :
    BuildsFrame (shapeCommand f) (shapePayload s.par.countBytes f) s (builtRequest i s) := by
  have hopen (c : Byte) := buildsFrame_openFrame c s
  have hcount (c : Byte) : (encCnt s.par.countBytes c).length ≤ 2 := by
    rw [encCnt_length]; cases s.par.countBytes <;> decide
  cases i <;> cases h
  case wregReq r => exact (hopen _).append [r] (by simp)
  case wramReq v => exact (hopen _).append (be16 v) (by simp)
  case wcurveReq m => exact (hopen _).append [m] (by simp)
  case rregReq r c =>
    have := hcount c
    exact (((hopen _).append [r] (by simp)).append _ (by simp; omega)).latchRequest ..
  case rramReq v c =>
    have := hcount c
    exact (((hopen _).append (be16 v) (by simp)).append _ (by simp; omega)).latchRequest ..

theorem exec_of_requestOf {i : Instr} {f : FrameShape} (s : State) (h : requestOf i = some f) :
    exec i s = .next (returnOk 0 (builtRequest i s)) := by
  cases i <;> cases h <;> rfl

theorem buildsFrame_request {i : Instr} {f : FrameShape} (s : State) (h : requestOf i = some f) :
    BuildsFrame (shapeCommand f) (shapePayload s.par.countBytes f) s (returnOk 0 (builtRequest i s)) :=
  (buildsFrame_builtRequest s h).returnOk 0

theorem BuildsFrame.eq_of_latch {c : Byte} {p : List Byte} {s t : State} {v : Bool} {k : ReqKind} {a : Half} {n : Byte}
    (h : BuildsFrame c p s t) (hl : latch t = (v, k, a, n)) :
    t = { s with
      buf := t.buf, pos := t.pos, fend := 0, mode := .tx, err := false, ecode := .ok, reqValid := v, reqKind := k,
      reqAddr := a, reqCnt := n, status := t.status, data := t.data } := by
  cases hl
  exact h.others

/-- Settles O42: the builder's frame is that of its shape, and the latch is what the instruction writes there. -/
theorem requestBuilders : Obligations.RequestBuilders := by
  intro i f s hf
  have hexec := exec_of_requestOf s hf
  have hb := buildsFrame_request s hf
  have hlatch : latch (returnOk 0 (builtRequest i s)) = latch (latched (latchOf i) s) := (streamsMove_exec hexec).latch_eq
  refine ⟨_, hexec, hb.cursor, hb.bytes, hb.behind, fun hnone => ?_, fun k a c hw => ?_⟩
  · rw [hnone] at hlatch
    exact hb.eq_of_latch hlatch
  · rw [hw] at hlatch
    exact hb.eq_of_latch hlatch

/-- A built frame is what a send pushes: its length byte is final already (rules R140, R180). -/
theorem BuildsFrame.sentBytes {c : Byte} {p : List Byte} {s t : State} (h : BuildsFrame c p s t) :
    sentBytes t = wireFrame c p := by
  refine List.ext_getElem ((sentBytes_length t).trans h.cursor) fun k hk hk' => ?_
  rw [sentBytes_getElem]
  split_ifs with h2
  · subst h2
    rw [h.cursor, wireFrame_length, lengthByte, show 4 + p.length - 3 = 1 + p.length by omega]
    rfl
  · exact h.bytes k hk'

theorem BuildsFrame.send {c : Byte} {p : List Byte} {s t : State} (h : BuildsFrame c p s t) (log : Bool) :
    exec (.send log) t = .next (sendFrame log t) := by
  have h4 : 4 ≤ t.pos.toNat := by rw [h.cursor, wireFrame_length]; omega
  rcases execSend_cases log t with ⟨hm, _⟩ | ⟨_, he, _⟩ | ⟨_, _, hlt, _⟩ | ⟨_, _, _, e⟩
  · exact absurd h.mode hm
  · simp [h.err] at he
  · omega
  · exact e

/-- Settles O43: the builder leaves a frame that may be sent, and the send pushes it. -/
theorem builtRequestOnTheWire : Obligations.BuiltRequestOnTheWire := by
  intro i f log s hf
  have hb := buildsFrame_request s hf
  refine ⟨_, _, exec_of_requestOf s hf, hb.send log, ?_, ?_⟩
  · rw [sendFrame_frame]
  · rw [sendFrame_frame, hb.sentBytes, shapeFrame]
    rw [hb.others]

/-! ## The mode table (rule R87) -/

/-- What the mode table says of an operation and its answer. -/
def FollowsModeTable (i : Instr) (s t : State) : Prop :=
  (t.status = .illegalOp ↔ illegalHere s i = true) ∧
  (illegalHere s i = true → t = { s with status := .illegalOp, data := 0 }) ∧
  (∀ bs, appendBytesOf i = some bs → s.mode = .idle → s.err = false → t.mode = .tx)

/-- An operation that is illegal here, and no append in mode IDLE. -/
theorem followsModeTable_illegal {i : Instr} {s : State} (hill : illegalHere s i = true)
    (happ : ∀ bs, appendBytesOf i = some bs → s.mode ≠ .idle) : FollowsModeTable i s (raise .illegalOp s) :=
  ⟨⟨fun _ => hill, fun _ => rfl⟩, fun _ => rfl, fun bs hb hm => absurd hm (happ bs hb)⟩

/-- An operation that is legal here and answers with another status. -/
theorem followsModeTable_legal {i : Instr} {s t : State} (hleg : illegalHere s i = false) (hst : t.status ≠ .illegalOp)
    (happ : ∀ bs, appendBytesOf i = some bs → s.mode = .idle → s.err = false → t.mode = .tx) : FollowsModeTable i s t :=
  ⟨⟨fun h => absurd h hst, fun h => absurd h (by simp [hleg])⟩, fun h => absurd h (by simp [hleg]), happ⟩

theorem illegalHere_of_append {i : Instr} {bs : List Byte} (s : State) (h : appendBytesOf i = some bs) :
    illegalHere s i = decide (s.mode = .rx) := by
  cases i <;> cases h <;> rfl

theorem illegalHere_of_extract {i : Instr} {w : Nat} (s : State) (h : extractWidthOf i = some w) :
    illegalHere s i = decide (s.mode ≠ .rx) := by
  cases i <;> cases h <;> rfl

theorem illegalHere_of_request {i : Instr} {f : FrameShape} (s : State) (h : requestOf i = some f) :
    illegalHere s i = false := by
  cases i <;> cases h <;> rfl

theorem appendBytesOf_of_extract {i : Instr} {w : Nat} (h : extractWidthOf i = some w) : appendBytesOf i = none := by
  cases i <;> cases h <;> rfl

theorem appendBytesOf_of_request {i : Instr} {f : FrameShape} (h : requestOf i = some f) : appendBytesOf i = none := by
  cases i <;> cases h <;> rfl

theorem appendBytesOf_of_receive {i : Instr} (h : isReceive i = true) : appendBytesOf i = none := by
  cases i <;> cases h <;> rfl

/-- What is no append asks nothing of the mode. -/
theorem noAppend {i : Instr} {P : Prop} (h : appendBytesOf i = none) (bs : List Byte) (hb : appendBytesOf i = some bs) : P :=
  nomatch h.symm.trans hb

theorem followsModeTable_append {i : Instr} {bs : List Byte} (s : State) (hb : appendBytesOf i = some bs) :
    FollowsModeTable i s (appendBytes bs s) := by
  have hill := illegalHere_of_append s hb
  rcases appendBytes_cases bs s with ⟨hm, e⟩ | ⟨hm, he, e⟩ | ⟨hm, _, _, e⟩ | ⟨hm, _, _, e⟩ <;> rw [e]
  · exact followsModeTable_illegal (by simp [hill, hm]) fun _ _ => by simp [hm]
  · exact followsModeTable_legal (by simp [hill, hm]) nofun fun _ _ _ he' => by simp [he] at he'
  · exact followsModeTable_legal (by simp [hill, hm]) nofun fun _ _ _ _ => rfl
  · exact followsModeTable_legal (by simp [hill, hm]) nofun fun _ _ _ _ => appended_mode bs s

theorem followsModeTable_extract {i : Instr} {w : Nat} (s : State) (hw : extractWidthOf i = some w) :
    FollowsModeTable i s (extract w s) := by
  have hill := illegalHere_of_extract s hw
  have happ := appendBytesOf_of_extract hw
  rcases extract_cases w s with ⟨hm, e⟩ | ⟨hm, _, e⟩ | ⟨hm, _, _, e⟩ | ⟨hm, _, _, e⟩ <;> rw [e]
  · exact followsModeTable_illegal (by simp [hill, hm]) (noAppend happ)
  · exact followsModeTable_legal (by simp [hill, hm]) nofun (noAppend happ)
  · exact followsModeTable_legal (by simp [hill, hm]) nofun (noAppend happ)
  · exact followsModeTable_legal (by simp [hill, hm]) nofun (noAppend happ)

theorem followsModeTable_send (log : Bool) (s : State) :
    ∃ t, execSend log s = .next t ∧ FollowsModeTable (.send log) s t := by
  rcases execSend_cases log s with ⟨hm, e⟩ | ⟨hm, _, e⟩ | ⟨hm, _, _, e⟩ | ⟨hm, _, _, e⟩ <;> refine ⟨_, e, ?_⟩
  · exact followsModeTable_illegal (by simp [illegalHere, hm]) nofun
  · exact followsModeTable_legal (by simp [illegalHere, hm]) nofun nofun
  · exact followsModeTable_legal (by simp [illegalHere, hm]) nofun nofun
  · exact followsModeTable_legal (by simp [illegalHere, hm]) (by rw [sendFrame_frame]; nofun) nofun

/-- Settles O54: the table holds group by group; a receive that starts keeps a status that is not ILLEGAL_OP. -/
theorem modeTable : Obligations.ModeTable := by
  intro i s hwf hwire hst
  have hs := exec_shape i s
  generalize exec i s = r at hs
  cases hs with
  | longText bs _ hlong => simp [hwf] at hlong
  | wire c hc => simp [hwire] at hc
  | append bs hb => exact ⟨_, rfl, followsModeTable_append s hb⟩
  | extract w hw => exact ⟨_, rfl, followsModeTable_extract s hw⟩
  | send log => exact followsModeTable_send log s
  | request f hf =>
    exact ⟨_, rfl, followsModeTable_legal (illegalHere_of_request s hf) nofun (noAppend (appendBytesOf_of_request hf))⟩
  | receive chk hr hl => exact ⟨_, rfl, followsModeTable_legal hl hst (noAppend (appendBytesOf_of_receive hr))⟩
  | noRequest hr hl => exact ⟨_, rfl, followsModeTable_illegal hl (noAppend (appendBytesOf_of_receive hr))⟩
  | reset => exact ⟨_, rfl, followsModeTable_legal rfl nofun nofun⟩
  | resetCmd c => exact ⟨_, rfl, followsModeTable_legal rfl nofun nofun⟩
  | available n => exact ⟨_, rfl, followsModeTable_legal rfl nofun nofun⟩

end Sys2Proof.Machine

/-! The statement of file 30_encoding.md on the assembler (rules R84, R96, R97). -/

namespace Sys2Proof.Machine

open Sys2Proof.Safety

/-! ## Literals (rules R84, R97) -/

theorem literal8_toNat (b : Byte) : literal8 b.toNat = some b := by
  have h : (0 : Int) ≤ b.toNat ∧ (b.toNat : Int) ≤ 255 := by omega
  rw [literal8, if_pos h, BitVec.ofInt_natCast, BitVec.ofNat_toNat, BitVec.setWidth_eq]

theorem literal16_toNat (v : Half) : literal16 v.toNat = some v := by
  have h : (0 : Int) ≤ v.toNat ∧ (v.toNat : Int) ≤ 65535 := by omega
  rw [literal16, if_pos h, BitVec.ofInt_natCast, BitVec.ofNat_toNat, BitVec.setWidth_eq]

theorem mapM_literal8_toNat (ds : List Byte) : (ds.map fun d => (d.toNat : Int)).mapM literal8 = some ds := by
  induction ds with
  | nil => rfl
  | cons d ds ih => simp [literal8_toNat, ih]

/-- A number that its field can hold. -/
def FitsField (p : Int × Int) : Prop := 0 ≤ p.1 ∧ p.1 ≤ p.2

theorem literal8_isSome (n : Int) : (literal8 n).isSome = true ↔ FitsField (n, 255) := by
  unfold literal8 FitsField
  split_ifs with h <;> simp [h]

theorem literal16_isSome (n : Int) : (literal16 n).isSome = true ↔ FitsField (n, 65535) := by
  unfold literal16 FitsField
  split_ifs with h <;> simp [h]

theorem mapM_literal8_isSome (ds : List Int) :
    (ds.mapM literal8).isSome = true ↔ ∀ d ∈ ds, FitsField (d, 255) := by
  induction ds with
  | nil => simp
  | cons d ds ih =>
    rw [List.forall_mem_cons, ← ih, ← literal8_isSome]
    cases h : literal8 d <;> cases h' : ds.mapM literal8 <;> simp [h, h']

/-- A line of two literals is an error exactly when one of them is. -/
theorem isSome_do_two {α β γ : Type} (x : Option α) (y : Option β) (f : α → β → γ) :
    (do let a ← x; let b ← y; return f a b : Option γ).isSome = (x.isSome && y.isSome) := by
  cases x <;> cases y <;> rfl

theorem do_two_eq_some {α β γ : Type} {x : Option α} {y : Option β} {f : α → β → γ} {z : γ} :
    (do let a ← x; let b ← y; return f a b : Option γ) = some z ↔ ∃ a b, x = some a ∧ y = some b ∧ f a b = z := by
  cases x <;> cases y <;> simp

/-! ## Lines (rules R96, R97) -/

/-- A line assembles exactly when every number of it fits its field and its text is at most 255 bytes. -/
theorem assemble_isSome (l : AsmLine) :
    (assemble l).isSome = true ↔ (∀ p ∈ literalsOf l, FitsField p) ∧ (asmText l).length ≤ 255 := by
  cases l
  case available n => cases n <;> simp [assemble, literalsOf, asmText, literal8_isSome]
  case appendText t =>
    rw [← textFits_iff]
    cases h : textFits t <;> simp [assemble, literalsOf, asmText, h]
  case appendTrunc b t =>
    rw [← textFits_iff]
    cases h : textFits t <;> simp [assemble, literalsOf, asmText, h, literal8_isSome]
  case wregWrite r ds =>
    rw [assemble, isSome_do_two]
    simp [literalsOf, asmText, literal8_isSome, mapM_literal8_isSome]
  case rregReq | rregResp | rregRead | rramReq | rramResp | rramRead =>
    rw [assemble, isSome_do_two]
    simp [literalsOf, asmText, literal8_isSome, literal16_isSome]
  all_goals simp [assemble, literalsOf, asmText, literal8_isSome, literal16_isSome]

theorem assemble_eq_none {l : AsmLine}
    (h : ¬((∀ p ∈ literalsOf l, FitsField p) ∧ (asmText l).length ≤ 255)) : assemble l = none := by
  rw [← assemble_isSome] at h
  simpa using h

/-- The line of an operation is that operation (rule R96). -/
theorem assemble_asmLineOf {i : Instr} {l : AsmLine} (h : asmLineOf i = some l) (hwf : i.wf = true) :
    assemble l = some [i] := by
  cases i <;> cases h
  case appendText t => exact if_pos hwf
  case appendTrunc b t =>
    have hfits : textFits t = true := hwf
    simp [assemble, hfits, literal8_toNat]
  all_goals simp [assemble, literal8_toNat, literal16_toNat]

/-- An operation of a program: one that the port can carry, so no wire command. -/
def Presentable (i : Instr) : Prop := i.wf = true ∧ wireCommandOf i = none

/-- What a line assembles to can be presented (rule R84). -/
theorem presentable_of_assemble {l : AsmLine} {is : List Instr} (h : assemble l = some is) :
    ∀ i ∈ is, Presentable i := by
  cases l
  case wregWrite r ds =>
    obtain ⟨_, _, _, _, rfl⟩ := do_two_eq_some.1 h
    simp only [List.forall_mem_append, List.forall_mem_map, List.forall_mem_singleton]
    exact ⟨⟨⟨rfl, rfl⟩, fun _ _ => ⟨rfl, rfl⟩⟩, ⟨rfl, rfl⟩⟩
  case rregRead | rramRead =>
    obtain ⟨_, _, _, _, rfl⟩ := do_two_eq_some.1 h
    simp only [List.forall_mem_cons]
    exact ⟨⟨rfl, rfl⟩, ⟨rfl, rfl⟩, ⟨rfl, rfl⟩, nofun⟩
  case rregReq | rregResp | rramReq | rramResp =>
    obtain ⟨_, _, _, _, rfl⟩ := do_two_eq_some.1 h
    exact List.forall_mem_singleton.2 ⟨rfl, rfl⟩
  case appendText t =>
    rw [assemble, Option.ite_none_right_eq_some] at h
    obtain ⟨hfits, hline⟩ := h
    cases hline
    exact List.forall_mem_singleton.2 ⟨hfits, rfl⟩
  case appendTrunc b t =>
    rw [assemble, Option.ite_none_right_eq_some] at h
    obtain ⟨hfits, hline⟩ := h
    obtain ⟨_, _, rfl⟩ := Option.map_eq_some_iff.1 hline
    exact List.forall_mem_singleton.2 ⟨hfits, rfl⟩
  case available n =>
    cases n with
    | none => cases h; exact List.forall_mem_singleton.2 ⟨rfl, rfl⟩
    | some n =>
      obtain ⟨_, _, rfl⟩ := Option.map_eq_some_iff.1 h
      exact List.forall_mem_singleton.2 ⟨rfl, rfl⟩
  case resetCmd | appendU8 | appendU16 | appendPage | appendReg | appendVar | wregReq | wramReq | wramReset | wcurveReq =>
    obtain ⟨_, _, rfl⟩ := Option.map_eq_some_iff.1 h
    exact List.forall_mem_singleton.2 ⟨rfl, rfl⟩
  all_goals
    cases h
    exact List.forall_mem_singleton.2 ⟨rfl, rfl⟩

/-- Settles O59: the lines assemble clause by clause, and which lines assemble at all `assemble_isSome` says. -/
theorem assemblerLines : Obligations.AssemblerLines := by
  refine ⟨fun i l => assemble_asmLineOf, by decide, rfl, fun _ => rfl, fun r ds => ?_, fun r c => ?_, fun v c => ?_,
    fun l hout => ?_, fun l hlong => ?_, fun l hin htext => ?_, fun l is => presentable_of_assemble⟩
  · rw [assemble, literal8_toNat, mapM_literal8_toNat]
    rfl
  · simp [assemble, literal8_toNat]
  · simp [assemble, literal8_toNat, literal16_toNat]
  · obtain ⟨p, hp, hbad⟩ := hout
    refine assemble_eq_none fun ⟨hfit, _⟩ => ?_
    obtain ⟨hlow, hhigh⟩ := hfit p hp
    omega
  · exact assemble_eq_none fun ⟨_, hshort⟩ => by omega
  · exact (assemble_isSome l).2 ⟨hin, htext⟩

end Sys2Proof.Machine

/-! The statements of file 40_frame_reset.md: the two resets (rules R110 to R112). -/

namespace Sys2Proof.Machine

/-! ## `RESET` (rule R110) -/

theorem exec_reset (s : State) : exec .reset s = .next (returnOk 0 (resetFrame s)) := rfl

/-- The recovery of the frame leaves the buffer, the latch and the streams alone. -/
theorem resetFrame_frame (s : State) :
    resetFrame s = { s with pos := 0, fend := 0, mode := .idle, err := false, ecode := .ok } := rfl

/-- Settles O15: `RESET` completes on the recovered frame. -/
theorem resetEffect : Obligations.ResetEffect := by
  intro s
  rw [exec_reset, resetFrame_frame]
  rfl

/-! ## `RESET_CMD` (rules R111, R112) -/

theorem exec_resetCmd (c : Byte) (s : State) : exec (.resetCmd c) s = .next (returnOk 0 (openFrame c s)) := rfl

/-- The opened frame is the wire frame of its command without payload: the placeholder of rule R112 is already
patched. -/
theorem buildsFrame_resetCmd (c : Byte) (s : State) : BuildsFrame c [] s (returnOk 0 (openFrame c s)) :=
  (buildsFrame_openFrame c s).returnOk 0

/-- What completing an opened frame writes besides its bytes: the latch, too, is as before. -/
theorem returnOk_openFrame_frame (d : Half) (c : Byte) (s : State) :
    returnOk d (openFrame c s) = { s with
      buf := (returnOk d (openFrame c s)).buf, pos := 4, fend := 0, mode := .tx, err := false, ecode := .ok,
      status := .ok, data := d } := by
  rw [openFrame_frame]
  rfl

/-- Settles O16: the four bytes are those of the frame that `RESET_CMD` opens, and what lies behind them is kept. -/
theorem resetCmdEffect : Obligations.ResetCmdEffect := by
  intro c s
  have hframe := buildsFrame_resetCmd c s
  have hlen : (wireFrame c []).length = 4 := wireFrame_length c []
  refine ⟨_, exec_resetCmd c s, ?_, ?_, ?_, ?_, fun a ha => hframe.behind a (hlen ▸ ha), returnOk_openFrame_frame 0 c s⟩
  · exact hframe.bytes 0 (by omega)
  · exact hframe.bytes 1 (by omega)
  · exact hframe.bytes 2 (by omega)
  · exact hframe.bytes 3 (by omega)

end Sys2Proof.Machine

/-! The statements of file 41_append.md: what an append writes (rules R121 to R128), how it fails (rules R213, R215), and that
a value appended on one side is the value extracted on the other (rule R129). -/

namespace Sys2Proof.Machine

open Sys2Proof.Safety

/-! ## The seven appends (rules R121 to R128, R200) -/

/-- With a text that the port can carry, every append is the primitive of rule R121 on its bytes. -/
theorem exec_of_appendBytesOf {i : Instr} {bs : List Byte} (s : State) (hb : appendBytesOf i = some bs)
    (hw : i.wf = true) : exec i s = .next (appendBytes bs s) := by
  cases i <;> cases hb
  case appendText => exact congrArg Host.Outcome.next (if_pos hw)
  case appendTrunc => exact congrArg Host.Outcome.next (if_pos hw)
  all_goals rfl

/-- An append that fits completes. -/
theorem exec_append_fits {i : Instr} {bs : List Byte} {s : State} (hb : appendBytesOf i = some bs) (hw : i.wf = true)
    (hm : s.mode ≠ .rx) (he : s.err = false) (hfit : s.pos.toNat + bs.length ≤ 255) :
    exec i s = .next (appended bs s) := by
  rw [exec_of_appendBytesOf s hb hw, appendBytes_fits hm he hfit]

/-- A frame in `BUF` has a length that its length byte can hold (rule R122). -/
theorem lengthByte_toNat {n : Nat} (h : n ≤ 255) : (lengthByte n).toNat = n - 3 := byte_ofNat_toNat (by omega)

/-- Settles O17: the append fits, and the laws of `appended` say each byte and the frame. -/
theorem appendWritesItsBytes : Obligations.AppendWritesItsBytes := by
  intro i bs s hb hw hm he hfit
  refine ⟨_, exec_append_fits hb hw hm he hfit, appended_pos_toNat hfit, fun k hk h2 => appended_byte_inside hfit hk h2,
    fun h3 => ?_, fun a ha h2 => appended_byte_outside hfit ha h2, ?_⟩
  · rw [appended_byte_two hfit h3, lengthByte_toNat hfit]
  · rw [appended_pos]
    exact appended_frame bs s

/-! ## The appends that fail (rules R121, R213, R215) -/

theorem appendBytes_of_rx (bs : List Byte) {s : State} (hm : s.mode = .rx) : appendBytes bs s = raise .illegalOp s :=
  if_pos hm

theorem appendBytes_of_err (bs : List Byte) {s : State} (hm : s.mode ≠ .rx) (he : s.err = true) :
    appendBytes bs s = raise .frameUnusable s :=
  (if_neg hm).trans (if_pos he)

theorem appendBytes_overflows {bs : List Byte} {s : State} (hm : s.mode ≠ .rx) (he : s.err = false)
    (hover : 255 < s.pos.toNat + bs.length) :
    appendBytes bs s = failFrame .bufferOverflow { s with mode := .tx } := by
  have hok : ¬s.err = true := by simp [he]
  exact (if_neg hm).trans ((if_neg hok).trans (if_pos hover))

/-- Settles O18: the three failures of the primitive, in the order of its checks. -/
theorem appendFailures : Obligations.AppendFailures := by
  intro i bs s hb hw
  rw [exec_of_appendBytesOf s hb hw]
  refine ⟨fun hm => ?_, fun hm he => ?_, fun hm he hover => ?_⟩
  · rw [appendBytes_of_rx bs hm]; rfl
  · rw [appendBytes_of_err bs hm he]; rfl
  · rw [appendBytes_overflows hm he hover]; rfl

/-! ## A frame on the wire and back (rules R140, R149, R153) -/

/-- A send of a frame with a command that is still usable completes (rule R140). -/
theorem exec_send_completes {s : State} (log : Bool) (hm : s.mode = .tx) (he : s.err = false) (h4 : 4 ≤ s.pos.toNat) :
    exec (.send log) s = .next (sendFrame log s) := by
  rcases execSend_cases log s with ⟨hn, _⟩ | ⟨_, he', _⟩ | ⟨_, _, hlt, _⟩ | ⟨_, _, _, e⟩
  · exact absurd hm hn
  · simp [he] at he'
  · omega
  · exact e

/-- What a send pushes, when the frame begins with the header: header, length and the body that the length counts. -/
theorem sentBytes_of_header {s : State} (hA : bufByte s 0 = 0x5A) (hB : bufByte s 1 = 0xA5) (h3 : 3 ≤ s.pos.toNat) :
    sentBytes s = [0x5A, 0xA5, lengthByte s.pos.toNat] ++ (sentBytes s).drop 3 := by
  have hlen := sentBytes_length s
  refine List.ext_getElem (by simp; omega) fun k hk _ => ?_
  match k, hk with
  | 0, hk => exact (sentBytes_getElem s 0 hk).trans hA
  | 1, hk => exact (sentBytes_getElem s 1 hk).trans hB
  | 2, hk => exact sentBytes_getElem s 2 hk
  | j + 3, hk => simp [Nat.add_comm]

/-- The value appended last stands at the end of what the send pushes (rules R121, R140). -/
theorem sentBytes_appended {bs : List Byte} {s : State} {k : Nat} (h4 : 4 ≤ s.pos.toNat)
    (hfit : s.pos.toNat + bs.length ≤ 255) (hk : k < bs.length)
    (h : s.pos.toNat + k < (sentBytes (appended bs s)).length) :
    (sentBytes (appended bs s))[s.pos.toNat + k] = bs[k] := by
  rw [sentBytes_getElem, if_neg (by omega), appended_byte_inside hfit hk (by omega)]

/-- A receive that has taken in a whole frame and completed with OK: the frame stands in `BUF` from offset 0 on, `END` is
after it, and extracts may read it. -/
structure Received (frame : List Byte) (t : State) : Prop where
  mode   : t.mode = .rx
  err    : t.err = false
  status : t.status = .ok
  fend   : t.fend.toNat = frame.length
  bytes  : ∀ (k : Nat) (h : k < frame.length), bufByte t k = frame[k]

/-- A receiver with exactly one frame queued takes it in in four steps (rules R147 to R149, R152, R153). -/
theorem receive_of_queued_frame {r : State} {l : Byte} {body : List Byte} (hs : r.script = []) (hl : l.toNat ≤ 252)
    (hbody : body.length = l.toNat) (hq : r.rxq = [0x5A, 0xA5, l] ++ body) :
    ∃ t, Host.Core.run core 4 (rxStart .none r) = .next t ∧ Received ([0x5A, 0xA5, l] ++ body) t := by
  have hstray : ¬[0x5A, 0xA5] <:+: ([] : List Byte) := by simp
  have hqueue : (rxStart .none r).rxq = [] ++ [0x5A, 0xA5, l] ++ body ++ [] := by simp [hq]
  obtain ⟨(t : State), hrun, hA, hB, hlen, hin, -, hframe⟩ :=
    receiveFindsTheFrame (rxStart .none r) [] body [] l hs rfl rfl hstray hl hbody hqueue
  refine ⟨t, hrun, by rw [hframe]; rfl, by rw [hframe]; rfl, by rw [hframe], ?_, fun k hk => ?_⟩
  · have hend : (BitVec.ofNat 8 (3 + l.toNat)).toNat = 3 + l.toNat := byte_ofNat_toNat (by omega)
    rw [hframe, hend, List.length_append, hbody]
    rfl
  · match k, hk with
    | 0, _ => exact hA
    | 1, _ => exact hB
    | 2, _ => exact hlen
    | j + 3, hk =>
      have hj : j < body.length := by simpa using hk
      exact (congrArg (bufByte t) (Nat.add_comm j 3)).trans (hin j hj)

/-- A sent frame that begins with the header is received whole, whatever its bytes (rules R62, R140, R149). -/
theorem receive_of_sent_frame {s r : State} (hA : bufByte s 0 = 0x5A) (hB : bufByte s 1 = 0xA5) (h3 : 3 ≤ s.pos.toNat)
    (hfit : s.pos.toNat ≤ 255) (hs : r.script = []) (hq : r.rxq = sentBytes s) :
    ∃ t, Host.Core.run core 4 (rxStart .none r) = .next t ∧ Received (sentBytes s) t := by
  have hlen := lengthByte_toNat hfit
  have hframe := sentBytes_of_header hA hB h3
  rw [hframe] at hq ⊢
  exact receive_of_queued_frame hs (by omega) (by rw [List.length_drop, sentBytes_length, hlen]) hq

/-! ## The value extracted (rules R129, R161) -/

/-- Every extract is the primitive of rule R161 at the width of its type. -/
theorem exec_of_extractWidthOf {j : Instr} {w : Nat} (s : State) (hw : extractWidthOf j = some w) :
    exec j s = .next (extract w s) := by
  cases j <;> cases hw <;> rfl

theorem extract_fits {w : Nat} {s : State} (hm : s.mode = .rx) (he : s.err = false)
    (hfit : s.pos.toNat + w ≤ s.fend.toNat) : extract w s = extracted w s := by
  rcases extract_cases w s with ⟨hn, _⟩ | ⟨_, he', _⟩ | ⟨_, _, hlt, _⟩ | ⟨_, _, _, e⟩
  · exact absurd hm hn
  · simp [he] at he'
  · omega
  · exact e

/-- Reading a run of bytes that is known byte by byte. -/
theorem memRead_eq {s : State} {a : Nat} {bs : List Byte}
    (h : ∀ (k : Nat) (hk : k < bs.length), bufByte s (a + k) = bs[k]) : memRead s a bs.length = bs :=
  List.ext_getElem (memRead_length s a bs.length) fun k hk hk' => (memRead_getElem s a bs.length k hk).trans (h k hk')

/-- An extract with the cursor at bytes of a received frame answers with their value (rule R161). -/
theorem Received.extract {frame bs : List Byte} {t : State} {j : Instr} {p : Byte} (h : Received frame t)
    (hw : extractWidthOf j = some bs.length) (hend : p.toNat + bs.length ≤ frame.length)
    (hbs : ∀ (k : Nat) (hk : k < bs.length), frame[p.toNat + k] = bs[k]) :
    ∃ e, exec j { t with pos := p } = .next e ∧ e.status = .ok ∧ e.data = extractValue bs := by
  have hfit : p.toNat + bs.length ≤ t.fend.toNat := h.fend.symm ▸ hend
  have hread : memRead { t with pos := p } p.toNat bs.length = bs :=
    memRead_eq fun k hk => (bufByte_congr rfl rfl (p.toNat + k)).trans ((h.bytes (p.toNat + k) (by omega)).trans (hbs k hk))
  refine ⟨extracted bs.length { t with pos := p }, ?_, rfl, congrArg extractValue hread⟩
  rw [exec_of_extractWidthOf _ hw, extract_fits (s := { t with pos := p }) h.mode h.err hfit]

/-- Settles O37: the append writes the value at the end of the frame, the send pushes the frame, the receiver takes it in
whole, and the extract reads the value at the same offset. -/
theorem appendedValueComesBack : Obligations.AppendedValueComesBack := by
  intro i j bs s r hb hw hj hm he h4 hfit hA hB hs _
  have hpos := appended_pos_toNat hfit
  have herr : (appended bs s).err = false := by rw [appended_err, he]
  have h4' : 4 ≤ (appended bs s).pos.toNat := by omega
  have hkept (a : Nat) (ha : a < 2) : bufByte (appended bs s) a = bufByte s a :=
    appended_byte_outside hfit (.inl (by omega)) (by omega)
  obtain ⟨t, hrun, hreceived⟩ := receive_of_sent_frame (s := appended bs s)
    (r := { r with rxq := sentBytes (appended bs s) }) ((hkept 0 (by decide)).trans hA) ((hkept 1 (by decide)).trans hB)
    (by omega) (by omega) hs rfl
  have hlen : (sentBytes (appended bs s)).length = s.pos.toNat + bs.length := (sentBytes_length _).trans hpos
  obtain ⟨e, hexec, hok, hvalue⟩ := hreceived.extract hj hlen.ge fun k hk => sentBytes_appended h4 hfit hk (by omega)
  refine ⟨_, _, _, _, t, exec_append_fits hb hw hm he hfit, exec_send_completes false (appended_mode bs s) herr h4', ?_,
    rfl, hrun, hreceived.status, e, hexec, hok, hvalue⟩
  rw [sendFrame_frame]

end Sys2Proof.Machine

/-! The statements of file 42_send_receive.md: what a send pushes and mirrors and how it is refused (rules R140 to R143, R213,
R215), what `AVAILABLE` answers (rules R144, R145), and how the receives start (rules R146, R153, R184, R185, R190,
R191). -/

namespace Sys2Proof.Machine

/-! ## The refused sends (rules R140, R213, R215) -/

theorem exec_send_of_mode {s : State} (log : Bool) (hm : s.mode ≠ .tx) :
    exec (.send log) s = .next (raise .illegalOp s) :=
  congrArg Host.Outcome.next (if_pos hm)

theorem exec_send_of_err {s : State} (log : Bool) (hm : s.mode = .tx) (he : s.err = true) :
    exec (.send log) s = .next (raise .frameUnusable s) :=
  congrArg Host.Outcome.next ((if_neg (not_not_intro hm)).trans (if_pos he))

theorem exec_send_of_short {s : State} (log : Bool) (hm : s.mode = .tx) (he : s.err = false) (h4 : s.pos.toNat < 4) :
    exec (.send log) s = .next (raise .incompleteFrame s) := by
  have hok : ¬s.err = true := by simp [he]
  exact congrArg Host.Outcome.next ((if_neg (not_not_intro hm)).trans ((if_neg hok).trans (if_pos h4)))

/-- Settles O22: the three refusals, in the order of the checks; a refusal writes the result alone. -/
theorem sendFailures : Obligations.SendFailures :=
  fun log _ => ⟨exec_send_of_mode log, exec_send_of_err log, exec_send_of_short log⟩

/-! ## The completed send (rules R140 to R143) -/

/-- A send finalises the length byte and writes no other byte of `BUF` (rules R140, R142). -/
theorem sendFrame_byte (log : Bool) (s : State) (a : Nat) :
    bufByte (sendFrame log s) a = if a = 2 then lengthByte s.pos.toNat else bufByte s a := by
  rw [sendFrame_frame]
  simp only [bufByte, Memory.insertAll, lookup_insert]
  split_ifs <;> rfl

/-- Settles O21: what is pushed is `sentBytes`, and the laws of `sendFrame` say each byte of `BUF` and the frame. -/
theorem sendPushesTheFrame : Obligations.SendPushesTheFrame := by
  intro log s hm he h4
  have hlen : (lengthByte s.pos.toNat).toNat = s.pos.toNat - 3 := lengthByte_toNat (Nat.le_of_lt_succ s.pos.isLt)
  refine ⟨_, sentBytes s, exec_send_completes log hm he h4, sentBytes_length s, fun k h hk => ?_, fun h => ?_, ?_,
    fun a ha => ?_, ?_⟩
  · rw [sentBytes_getElem, if_neg hk]
  · rw [sentBytes_getElem, if_pos rfl, hlen]
  · rw [sendFrame_byte, if_pos rfl, hlen]
  · rw [sendFrame_byte, if_neg ha]
  · rw [sendFrame_frame]

/-- Whether a send is refused, and with which status, does not depend on the logging bit (rules R140, R141). -/
theorem send_refused_or_completes (s : State) :
    (∃ c, ∀ log, exec (.send log) s = .next (raise c s)) ∨
    (∀ log, exec (.send log) s = .next (sendFrame log s)) := by
  by_cases hm : s.mode = .tx
  · cases he : s.err with
    | true => exact .inl ⟨.frameUnusable, fun log => exec_send_of_err log hm he⟩
    | false =>
      rcases Nat.lt_or_ge s.pos.toNat 4 with h4 | h4
      · exact .inl ⟨.incompleteFrame, fun log => exec_send_of_short log hm he h4⟩
      · exact .inr fun log => exec_send_completes log hm he h4
  · exact .inl ⟨.illegalOp, fun log => exec_send_of_mode log hm⟩

/-- Settles O23: a refused send pushes nothing, whatever the logging bit; a completed one pushes `sentBytes`, and only to
`LOGS` does the bit matter. -/
theorem loggingMirrorsTheSend : Obligations.LoggingMirrorsTheSend := by
  intro log s t h
  rcases send_refused_or_completes s with ⟨c, e⟩ | e <;> cases (e log).symm.trans h
  · refine ⟨[], by simp, by simp, fun _ => rfl, fun u hu => ?_⟩
    cases (e !log).symm.trans hu
    rfl
  · refine ⟨sentBytes s, ?_, ?_, fun hst => absurd ?_ hst, fun u hu => ?_⟩
    · rw [sendFrame_frame]
    · rw [sendFrame_frame]
      split_ifs <;> simp
    · rw [sendFrame_frame]
    · cases (e !log).symm.trans hu
      rw [sendFrame_frame, sendFrame_frame]

/-! ## `AVAILABLE` (rules R144, R145) -/

theorem exec_available (n : Byte) (s : State) :
    exec (.available n) s = .next (returnOk (if rxHas n.toNat s then 1 else 0) s) := rfl

theorem rxHas_iff (n : Nat) (s : State) : rxHas n s = true ↔ n ≤ s.rxq.length := decide_eq_true_iff

/-- Settles O24: the answer is that of counting the queue, and completing adds the result alone. -/
theorem availableAnswers : Obligations.AvailableAnswers := by
  intro n s
  rw [exec_available]
  simp only [rxHas_iff]
  rfl

/-! ## The start of a receive (rules R146, R153, R184, R185, R190, R191) -/

/-- What the start of a receive writes, and nothing else (rule R146). -/
theorem rxStart_frame (chk : RxCheck) (s : State) :
    rxStart chk s = { s with
      mode := .rx, err := false, ecode := .ok, pos := 0, fend := 0, rchk := chk, rxst := .huntA } := rfl

theorem exec_receive (s : State) : exec .receive s = .next (rxStart .none s) := rfl

theorem exec_rregResp (r c : Byte) (s : State) : exec (.rregResp r c) s = .next (rxStart (.reg r c) s) := rfl

theorem exec_rramResp (v : Half) (c : Byte) (s : State) : exec (.rramResp v c) s = .next (rxStart (.ram v c) s) := rfl

/-- Settles O25: the three receives are the start of rule R146, each with its check. -/
theorem receivesStart : Obligations.ReceivesStart := by
  intro s
  simp only [exec_receive, exec_rregResp, exec_rramResp, rxStart_frame, implies_true, and_self]

theorem latchHolds_iff (k : ReqKind) (s : State) : latchHolds k s = true ↔ s.reqValid = true ∧ s.reqKind = k := by
  simp [latchHolds]

theorem exec_rregRespMatch (s : State) :
    exec .rregRespMatch s =
      .next (if s.reqValid = true ∧ s.reqKind = .reg then rxStart (.reg (low8 s.reqAddr) s.reqCnt) s
        else raise .illegalOp s) := by
  simp only [← latchHolds_iff]
  rfl

theorem exec_rramRespMatch (s : State) :
    exec .rramRespMatch s =
      .next (if s.reqValid = true ∧ s.reqKind = .ram then rxStart (.ram s.reqAddr s.reqCnt) s
        else raise .illegalOp s) := by
  simp only [← latchHolds_iff]
  rfl

/-- A latch that is not valid, or holds a request of the other kind, holds none of this kind. -/
theorem no_request_held {s : State} {k : ReqKind} (h : s.reqValid = false ∨ s.reqKind ≠ k) :
    ¬(s.reqValid = true ∧ s.reqKind = k) := by
  rintro ⟨hv, hk⟩
  rcases h with hn | hn
  · exact nomatch hv.symm.trans hn
  · exact hn hk

/-- Settles O26: with a request of their kind latched the two receives start with it, and without one they are refused. -/
theorem matchingReceives : Obligations.MatchingReceives := by
  intro s
  rw [exec_rregRespMatch, exec_rramRespMatch]
  refine ⟨fun hv hk => ?_, fun hv hk => ?_, fun hno => ?_, fun hno => ?_⟩
  · rw [if_pos ⟨hv, hk⟩]; rfl
  · rw [if_pos ⟨hv, hk⟩]; rfl
  · rw [if_neg (no_request_held hno)]; rfl
  · rw [if_neg (no_request_held hno)]; rfl

end Sys2Proof.Machine

/-! The statements of file 42_send_receive.md on the receive steps: the header hunt (rules R147, R148), the length (rule
R149), the timeout (rules R150, R151), and that HEADER_MISMATCH is never reported (rules R154, R211). -/

namespace Sys2Proof.Machine

open Sys2Proof.Safety

/-! ## The timeout (rules R150, R151) -/

theorem step_of_timeout {s : State} {ts : List Turn} (h : s.script = .timeout :: ts) :
    step s = .next (timeoutStep { s with script := ts }) := by
  simp only [step, nextMove, h, agentTurn]

theorem timeoutStep_of_enabled {s : State} (h : timeoutEnabled s = true) : timeoutStep s = rxFail .timeout s := if_pos h

theorem timeoutStep_of_disabled {s : State} (h : timeoutEnabled s = false) : timeoutStep s = s := if_neg (by simp [h])

/-- What a failed receive leaves, and nothing else differs (rule R150). -/
theorem rxFail_frame (c : Status) (s : State) :
    rxFail c s = { s with
      err := true, ecode := c, pos := 0, fend := 0, rxst := .idle, rchk := .none, status := c, data := 0 } := rfl

/-- In a wait that the timeout may end, FE itself has no step (rules R149, R151). -/
theorem feTurn_of_timeoutEnabled {s : State} (h : timeoutEnabled s = true) : feTurn s = .next s := by
  rcases (timeoutEnabled_iff s).1 h with ⟨hr, hq⟩ | ⟨hr, hq⟩
  · simp only [feTurn, hr, lenStep, hq]
  · have hwait : ¬bodyQueued s = true := by rw [bodyQueued_iff]; omega
    simp only [feTurn, hr, bodyTurn, if_neg hwait]

/-- Settles O32: the waits are those of `timeoutEnabled`; the timeout fails the receive there and does nothing elsewhere.
(`timeoutStep` is the model's function.) -/
theorem timeoutStepEndsTheWaits : Obligations.TimeoutStep := by
  intro s ts
  rw [← timeoutEnabled_iff s]
  refine ⟨fun hwait => ⟨fun hs => ?_, fun hs => ?_⟩, fun hno hs => ?_⟩
  · rw [step_of_timeout hs, timeoutStep_of_enabled (s := { s with script := ts }) hwait]; rfl
  · rw [step_of_fe hs, feTurn_of_timeoutEnabled (s := { s with script := ts }) hwait]
  · rw [step_of_timeout hs, timeoutStep_of_disabled (s := { s with script := ts }) (Bool.eq_false_of_not_eq_true hno)]

/-- Settles O33: with nothing scheduled such a wait ends with the timeout (log 8). -/
theorem unsatisfiedWaitTimesOut : Obligations.UnsatisfiedWaitTimesOut := by
  intro s hs hwait
  have hen := (timeoutEnabled_iff s).2 hwait
  simp only [step, nextMove, hs, hen, if_true, timeoutStep_of_enabled hen, rxFail_frame]

/-! ## The header hunt (rules R147, R148) -/

theorem feTurn_of_huntA {s : State} (hr : s.rxst = .huntA) : feTurn s = .next (huntAStep s) := by simp only [feTurn, hr]

theorem feTurn_of_huntB {s : State} (hr : s.rxst = .huntB) : feTurn s = .next (huntBStep s) := by simp only [feTurn, hr]

theorem huntAStep_cons {s : State} {b : Byte} {q : List Byte} (hx : s.rxq = b :: q) :
    huntAStep s = { s with rxq := q, rxst := if b = 0x5A then .huntB else .huntA } := by
  simp only [huntAStep, hx]; rfl

/-- Header byte B behind header byte A is the header (rule R148). -/
theorem huntBStep_headerB {s : State} {q : List Byte} (hx : s.rxq = 0xA5 :: q) : huntBStep s = headerFound q s := by
  simp only [huntBStep, hx]; rfl

/-- Header byte A again is a new candidate (rule R148). -/
theorem huntBStep_headerA {s : State} {q : List Byte} (hx : s.rxq = 0x5A :: q) :
    huntBStep s = { s with rxq := q, rxst := .huntB } := by
  simp only [huntBStep, hx]; rfl

/-- Any other byte is discarded together with the candidate (rule R148). -/
theorem huntBStep_other {s : State} {b : Byte} {q : List Byte} (hx : s.rxq = b :: q) (hB : b ≠ 0xA5) (hA : b ≠ 0x5A) :
    huntBStep s = { s with rxq := q, rxst := .huntA } := by
  have hB' : b ≠ Config.hdrB := hB
  have hA' : b ≠ Config.hdrA := hA
  simp only [huntBStep, hx, if_neg hB', if_neg hA']

/-- A hunting FE without a queued byte has no step (rules R147, R148). -/
theorem Hunting.feTurn_waits {s : State} {seen : List Byte} (h : Hunting s.rxst seen) (hq : s.rxq = []) :
    feTurn s = .next s := by
  generalize hr : s.rxst = x at h
  cases h with
  | forA => simp only [feTurn, hr, huntAStep, hq]
  | forB => simp only [feTurn, hr, huntBStep, hq]

/-- The waits of the hunt: FE's turn without a queued byte, the timeout's turn, and no turn at all change nothing but the
schedule (rules R147, R148). -/
theorem Hunting.step_waits {s : State} {seen : List Byte} (h : Hunting s.rxst seen) (ts : List Turn) :
    (s.script = .fe :: ts → s.rxq = [] → step s = .next { s with script := ts }) ∧
    (s.script = .timeout :: ts → step s = .next { s with script := ts }) ∧
    (s.script = [] → s.rxq = [] → step s = .next s) := by
  refine ⟨fun hs hq => ?_, fun hs => ?_, fun hs hq => ?_⟩
  · rw [step_of_fe hs, feTurn_waits (s := { s with script := ts }) h hq]
  · rw [step_of_timeout hs, timeoutStep_of_disabled (s := { s with script := ts }) h.no_timeout]
  · rw [step_of_unscheduled hs h.no_timeout, h.feTurn_waits hq]

/-- Settles O27: with a byte queued FE examines it, and every other turn is a wait of the hunt. -/
theorem huntForHeaderA : Obligations.HuntForHeaderA := by
  intro s ts hr
  have hhunting : Hunting s.rxst [] := hr ▸ .forA
  obtain ⟨hwaits, htimeout, hunscheduled⟩ := hhunting.step_waits ts
  refine ⟨fun hs => ⟨fun b q hx => ?_, hwaits hs⟩, htimeout, hunscheduled⟩
  rw [step_of_fe hs, feTurn_of_huntA (s := { s with script := ts }) hr, huntAStep_cons (s := { s with script := ts }) hx]

/-- Settles O28: the byte examined is header byte B, header byte A or another, and every other turn is a wait of the
hunt. -/
theorem huntForHeaderB : Obligations.HuntForHeaderB := by
  intro s ts hr
  have hhunting : Hunting s.rxst [0x5A] := hr ▸ .forB
  obtain ⟨hwaits, htimeout, hunscheduled⟩ := hhunting.step_waits ts
  refine ⟨fun hs => ⟨fun b q hx => ?_, hwaits hs⟩, htimeout, hunscheduled⟩
  rw [step_of_fe hs, feTurn_of_huntB (s := { s with script := ts }) hr]
  refine ⟨fun hb => ?_, fun hb => ?_, fun hB hA => ?_⟩
  · subst hb
    have hbyte := headerFound_byte q { s with script := ts }
    refine ⟨_, congrArg Host.Outcome.next (huntBStep_headerB hx), hbyte 0, hbyte 1, fun a ha => ?_, rfl⟩
    rw [hbyte, if_neg (by omega), if_neg (by omega)]
    exact bufByte_congr rfl rfl a
  · subst hb
    rw [huntBStep_headerA (s := { s with script := ts }) hx]
  · rw [huntBStep_other (s := { s with script := ts }) hx hB hA]

/-! ## The length byte (rules R149, R150) -/

theorem feTurn_of_len {s : State} (hr : s.rxst = .len) : feTurn s = .next (lenStep s) := by simp only [feTurn, hr]

/-- A legal length is stored, and its body awaited (rule R149). -/
theorem lenStep_of_le {s : State} {l : Byte} {q : List Byte} (hx : s.rxq = l :: q) (hl : l.toNat ≤ 252) :
    lenStep s = lengthStored l q s := by
  have hlegal : ¬l.toNat > Config.maxLen := Nat.not_lt.2 hl
  simp only [lenStep, hx, if_neg hlegal]
  rfl

/-- A length above 252 is stored, and the receive fails (rules R149, R150). -/
theorem lenStep_of_gt {s : State} {l : Byte} {q : List Byte} (hx : s.rxq = l :: q) (hl : 252 < l.toNat) :
    lenStep s = rxFail .lengthExceeded (memWrite 2 [l] { s with rxq := q }) := by
  have hlong : l.toNat > Config.maxLen := hl
  simp only [lenStep, hx, if_pos hlong]
  rfl

/-- The length step writes the length byte to offset 2, legal or not, and no other byte of `BUF` (rule R149). -/
theorem lenStep_byte {s : State} {l : Byte} {q : List Byte} (hx : s.rxq = l :: q) (a : Nat) :
    bufByte (lenStep s) a = if a = 2 then l else bufByte s a := by
  rcases Nat.lt_or_ge 252 l.toNat with hl | hl
  · rw [lenStep_of_gt hx hl, ← lengthStored_byte l q s a]
    exact bufByte_congr rfl rfl a
  · rw [lenStep_of_le hx hl, lengthStored_byte]

/-- Settles O29: the length byte is stored in both cases, and the legal one awaits its body. -/
theorem lengthStep : Obligations.LengthStep := by
  intro s ts l q hs hr hx
  have hbyte := lenStep_byte (s := { s with script := ts }) hx
  refine ⟨_, (step_of_fe hs).trans (feTurn_of_len (s := { s with script := ts }) hr), hbyte 2, fun a ha => ?_,
    fun hl => ?_, fun hl => ?_⟩
  · rw [hbyte, if_neg ha]
    exact bufByte_congr rfl rfl a
  · rw [lenStep_of_le (s := { s with script := ts }) hx hl]; rfl
  · rw [lenStep_of_gt (s := { s with script := ts }) hx hl]; rfl

/-! ## HEADER_MISMATCH is never reported (rules R154, R211) -/

/-- `t` shows HEADER_MISMATCH in `STATUS` or in `ECODE` only where `s` did. -/
structure ReportsNoMismatch (s t : State) : Prop where
  status : s.status ≠ .headerMismatch → t.status ≠ .headerMismatch
  ecode  : s.ecode ≠ .headerMismatch → t.ecode ≠ .headerMismatch

theorem reportsNoMismatch_of_kept {s t : State} (hs : t.status = s.status) (he : t.ecode = s.ecode) :
    ReportsNoMismatch s t :=
  ⟨hs ▸ id, he ▸ id⟩

/-- A completion with another status that leaves `ECODE` alone. -/
theorem reportsNoMismatch_of_status {s t : State} (hs : t.status ≠ .headerMismatch) (he : t.ecode = s.ecode) :
    ReportsNoMismatch s t :=
  ⟨fun _ => hs, he ▸ id⟩

/-- A start of a frame without an error that leaves `STATUS` alone. -/
theorem reportsNoMismatch_of_ecode {s t : State} (hs : t.status = s.status) (he : t.ecode ≠ .headerMismatch) :
    ReportsNoMismatch s t :=
  ⟨hs ▸ id, fun _ => he⟩

theorem reportsNoMismatch_of_codes {s t : State} (hs : t.status ≠ .headerMismatch) (he : t.ecode ≠ .headerMismatch) :
    ReportsNoMismatch s t :=
  ⟨fun _ => hs, fun _ => he⟩

theorem reportsNoMismatch_appendBytes (bs : List Byte) (s : State) : ReportsNoMismatch s (appendBytes bs s) := by
  rcases appendBytes_cases bs s with ⟨_, e⟩ | ⟨_, _, e⟩ | ⟨_, _, _, e⟩ | ⟨_, _, _, e⟩ <;> rw [e]
  · exact reportsNoMismatch_of_status nofun rfl
  · exact reportsNoMismatch_of_status nofun rfl
  · exact reportsNoMismatch_of_codes nofun nofun
  · rw [appended_frame]; exact reportsNoMismatch_of_status nofun rfl

theorem reportsNoMismatch_extract (w : Nat) (s : State) : ReportsNoMismatch s (extract w s) := by
  rcases extract_cases w s with ⟨_, e⟩ | ⟨_, _, e⟩ | ⟨_, _, _, e⟩ | ⟨_, _, _, e⟩ <;> rw [e]
  · exact reportsNoMismatch_of_status nofun rfl
  · exact reportsNoMismatch_of_status nofun rfl
  · exact reportsNoMismatch_of_codes nofun nofun
  · exact reportsNoMismatch_of_status nofun rfl

theorem reportsNoMismatch_execSend {log : Bool} {s t : State} (h : execSend log s = .next t) :
    ReportsNoMismatch s t := by
  rcases execSend_cases log s with ⟨_, e⟩ | ⟨_, _, e⟩ | ⟨_, _, _, e⟩ | ⟨_, _, _, e⟩ <;> cases e.symm.trans h
  · exact reportsNoMismatch_of_status nofun rfl
  · exact reportsNoMismatch_of_status nofun rfl
  · exact reportsNoMismatch_of_status nofun rfl
  · rw [sendFrame_frame]; exact reportsNoMismatch_of_status nofun rfl

theorem reportsNoMismatch_request {i : Instr} {f : FrameShape} (s : State) (h : requestOf i = some f) :
    ReportsNoMismatch s (returnOk 0 (builtRequest i s)) := by
  have hcode : (returnOk 0 (builtRequest i s)).ecode = .ok := (congrArg State.ecode (buildsFrame_request s h).others :)
  exact reportsNoMismatch_of_codes nofun (by rw [hcode]; nofun)

theorem reportsNoMismatch_rxBody {s t : State} (h : rxBody s = .next t) : ReportsNoMismatch s t := by
  obtain ⟨_, rfl⟩ := rxBody_next h
  rcases rxComplete_cases (bodyTaken s) with ⟨_, e⟩ | ⟨_, p, _, _, e⟩ | ⟨_, e⟩ <;> rw [e]
  · exact reportsNoMismatch_of_status nofun rfl
  · exact reportsNoMismatch_of_status nofun rfl
  · exact reportsNoMismatch_of_codes nofun nofun

theorem reportsNoMismatch_takeFrame {c : Byte} {s t : State} (h : takeFrame c s = .next t) : ReportsNoMismatch s t := by
  rcases takeFrame_cases c s with ⟨_, e⟩ | ⟨_, _, e⟩ | ⟨_, _, e⟩ <;> have ht := e.symm.trans h
  · exact reportsNoMismatch_rxBody ht
  · cases ht; exact reportsNoMismatch_of_kept rfl rfl
  · cases ht; exact reportsNoMismatch_of_status nofun rfl

/-- No instruction completes with HEADER_MISMATCH, group by group. -/
theorem reportsNoMismatch_exec {i : Instr} {s t : State} (h : exec i s = .next t) : ReportsNoMismatch s t := by
  have hs := exec_shape i s
  rw [h] at hs
  generalize hr : Host.Outcome.next t = r at hs
  cases hs with
  | send log => exact reportsNoMismatch_execSend hr.symm
  | wire c hc => exact reportsNoMismatch_takeFrame hr.symm
  | append bs => cases hr; exact reportsNoMismatch_appendBytes bs s
  | extract w => cases hr; exact reportsNoMismatch_extract w s
  | request f hf => cases hr; exact reportsNoMismatch_request s hf
  | reset => cases hr; exact reportsNoMismatch_of_codes nofun nofun
  | resetCmd c => cases hr; exact reportsNoMismatch_of_codes nofun nofun
  | receive chk => cases hr; exact reportsNoMismatch_of_ecode rfl nofun
  | longText bs => cases hr; exact reportsNoMismatch_of_status nofun rfl
  | available n => cases hr; exact reportsNoMismatch_of_status nofun rfl
  | noRequest => cases hr; exact reportsNoMismatch_of_status nofun rfl

/-- A byte discarded in the hunt is the HeaderMismatch event of rule R154, which reports nothing. -/
theorem reportsNoMismatch_huntAStep (s : State) : ReportsNoMismatch s (huntAStep s) := by
  unfold huntAStep
  split <;> exact reportsNoMismatch_of_kept rfl rfl

theorem reportsNoMismatch_huntBStep (s : State) : ReportsNoMismatch s (huntBStep s) := by
  unfold huntBStep
  split
  · exact reportsNoMismatch_of_kept rfl rfl
  · split_ifs <;> exact reportsNoMismatch_of_kept rfl rfl

theorem reportsNoMismatch_lenStep (s : State) : ReportsNoMismatch s (lenStep s) := by
  unfold lenStep
  split
  · exact reportsNoMismatch_of_kept rfl rfl
  · dsimp only
    split_ifs
    · exact reportsNoMismatch_of_codes nofun nofun
    · exact reportsNoMismatch_of_kept rfl rfl

theorem reportsNoMismatch_timeoutStep (s : State) : ReportsNoMismatch s (timeoutStep s) := by
  unfold timeoutStep
  split_ifs
  · exact reportsNoMismatch_of_codes nofun nofun
  · exact reportsNoMismatch_of_kept rfl rfl

theorem reportsNoMismatch_feTurn {s t : State} (h : feTurn s = .next t) : ReportsNoMismatch s t := by
  rcases feTurn_cases s with ⟨_, e⟩ | ⟨_, op, rest, i, _, _, _, e⟩ | ⟨_, _, op, rest, _, e⟩ | ⟨_, _, e⟩ | ⟨_, _, e⟩ |
    ⟨_, _, e⟩ | ⟨_, _, _, e⟩ <;> have ht := e.symm.trans h
  · cases ht; exact reportsNoMismatch_of_kept rfl rfl
  · obtain ⟨hstatus, hecode⟩ := reportsNoMismatch_exec ht
    exact ⟨hstatus, hecode⟩
  · cases ht; exact reportsNoMismatch_of_status nofun rfl
  · cases ht; exact reportsNoMismatch_huntAStep s
  · cases ht; exact reportsNoMismatch_huntBStep s
  · cases ht; exact reportsNoMismatch_lenStep s
  · exact reportsNoMismatch_rxBody ht

theorem reportsNoMismatch_step {s t : State} (h : step s = .next t) : ReportsNoMismatch s t := by
  rcases step_cases s with ⟨_, e⟩ | ⟨_, _, _, e⟩ | ⟨ts, _, _, e⟩ | ⟨op, ts, _, _, e⟩ | ⟨bs, ts, _, _, e⟩ | ⟨ts, _, _, e⟩ <;>
    have ht := e.symm.trans h
  · obtain ⟨hstatus, hecode⟩ := reportsNoMismatch_feTurn ht
    exact ⟨hstatus, hecode⟩
  · cases ht; exact reportsNoMismatch_of_codes nofun nofun
  · cases ht
    obtain ⟨hstatus, hecode⟩ := reportsNoMismatch_timeoutStep { s with script := ts }
    exact ⟨hstatus, hecode⟩
  · cases ht; exact reportsNoMismatch_of_kept rfl rfl
  · cases ht; exact reportsNoMismatch_of_kept rfl rfl
  · cases ht; exact reportsNoMismatch_of_codes nofun nofun

/-- Settles O48: every shared operation keeps the two codes or writes another one, so each step does. -/
theorem headerMismatchNeverReported : Obligations.HeaderMismatchNeverReported := by
  intro s t h
  obtain ⟨hstatus, hecode⟩ := reportsNoMismatch_step h
  exact ⟨hstatus, hecode⟩

end Sys2Proof.Machine

/-! The statements of file 43_extract.md: what an extract answers (rules R160 to R167) and how it fails (rules R161, R213,
R215). -/

namespace Sys2Proof.Machine

open Sys2Proof.Safety

/-! ## The six extracts (rules R160 to R167) -/

/-- A typed field is one byte or two (rules R162 to R167). -/
theorem extractWidthOf_cases {i : Instr} {w : Nat} (h : extractWidthOf i = some w) : w = 1 ∨ w = 2 := by
  cases i <;> cases h
  case extractU8 | extractCmd | extractReg => exact .inl rfl
  case extractU16 | extractAction | extractVar => exact .inr rfl

/-- The value of a field in the buffer: its byte zero-extended, or its two bytes, the high one first (rule R161). -/
theorem extractValue_memRead {w : Nat} (s : State) (a : Nat) (h : w = 1 ∨ w = 2) :
    extractValue (memRead s a w) =
      if w = 1 then (bufByte s a).setWidth 16 else bufByte s a ++ bufByte s (a + 1) := by
  rcases h with rfl | rfl <;> rfl

/-- An extract inside the frame moves the cursor and writes the result, and nothing else (rule R161). -/
theorem extracted_frame (w : Nat) (s : State) :
    extracted w s = { s with
      pos := BitVec.ofNat 8 (s.pos.toNat + w), status := .ok, data := extractValue (memRead s s.pos.toNat w) } := rfl

/-- Settles O40: the field fits, so the extract is `extracted`, and its value is that of one byte or of two. -/
theorem extractReadsTheField : Obligations.ExtractReadsTheField := by
  intro i w s hw hm he hfit
  rw [exec_of_extractWidthOf s hw, extract_fits hm he hfit, extracted_frame,
    extractValue_memRead s s.pos.toNat (extractWidthOf_cases hw)]

/-! ## The extracts that fail (rules R161, R213, R215) -/

theorem extract_of_mode (w : Nat) {s : State} (hm : s.mode ≠ .rx) : extract w s = raise .illegalOp s := if_pos hm

theorem extract_of_err (w : Nat) {s : State} (hm : s.mode = .rx) (he : s.err = true) :
    extract w s = raise .frameUnusable s :=
  (if_neg (not_not_intro hm)).trans (if_pos he)

theorem extract_underruns {w : Nat} {s : State} (hm : s.mode = .rx) (he : s.err = false)
    (hpast : s.fend.toNat < s.pos.toNat + w) : extract w s = failFrame .extractUnderrun s := by
  have hok : ¬s.err = true := by simp [he]
  exact (if_neg (not_not_intro hm)).trans ((if_neg hok).trans (if_pos hpast))

/-- Settles O41: the three failures of the primitive, in the order of its checks. -/
theorem extractFailures : Obligations.ExtractFailures := by
  intro i w s hw
  rw [exec_of_extractWidthOf s hw]
  refine ⟨fun hm => ?_, fun hm he => ?_, fun hm he hpast => ?_⟩
  · rw [extract_of_mode w hm]; rfl
  · rw [extract_of_err w hm he]; rfl
  · rw [extract_underruns hm he hpast]; rfl

end Sys2Proof.Machine

/-! The statements of file 44_typed_variants.md on the response checks (rules R186, R192): a response of rule R93 is the body of
the read request it answers with the data items behind it, so a check compares the start of the body with that request and
the rest with the space the items need. -/

namespace Sys2Proof.Machine

/-! ## The multi-byte fields are determined by their bytes (rule R12) -/

theorem be16_fromBe16 (hi lo : Byte) : be16 (fromBe16 hi lo) = [hi, lo] := by
  rw [be16, fromBe16, BitVec.extractLsb'_append_eq_left, BitVec.extractLsb'_append_eq_right]

theorem fromBe16_eq_iff {hi lo : Byte} {v : Half} :
    fromBe16 hi lo = v ↔ hi = v.extractLsb' 8 8 ∧ lo = v.extractLsb' 0 8 := by
  constructor
  · rintro rfl
    have hbytes : [hi, lo] = be16 (fromBe16 hi lo) := (be16_fromBe16 hi lo).symm
    simpa [be16] using hbytes
  · rintro ⟨rfl, rfl⟩
    exact fromBe16_be16 v

/-- At either count width a count is read only from its own encoding. -/
theorem decCnt_eq_iff {cb : Config.CountBytes} {bs : List Byte} {c : Byte} (hlen : bs.length = countWidth cb) :
    decCnt bs = c.toNat ↔ bs = encCnt cb c := by
  refine ⟨fun h => ?_, fun h => h ▸ decCnt_encCnt cb c⟩
  cases cb with
  | one =>
    obtain ⟨b, rfl⟩ := List.length_eq_one_iff.mp hlen
    rw [decCnt_one] at h
    rw [BitVec.eq_of_toNat_eq h, encCnt]
  | two =>
    obtain ⟨hi, lo, rfl⟩ := List.length_eq_two.mp hlen
    rw [decCnt_two] at h
    have hc := c.isLt
    have hhi : hi = 0 := BitVec.eq_of_toNat_eq (show hi.toNat = 0 by omega)
    have hlo : lo = c := BitVec.eq_of_toNat_eq (by omega)
    rw [hhi, hlo, encCnt]

/-- Every run of `2 n` bytes is `n` words. -/
theorem exists_words {n : Nat} {bs : List Byte} (h : bs.length = 2 * n) :
    ∃ words : List Half, words.length = n ∧ words.flatMap be16 = bs := by
  induction n generalizing bs with
  | zero => exact ⟨[], rfl, (List.eq_nil_of_length_eq_zero h).symm⟩
  | succ n ih =>
    match bs, h with
    | hi :: lo :: rest, h =>
      obtain ⟨words, hn, hrest⟩ := ih (bs := rest) (by simp at h; omega)
      refine ⟨fromBe16 hi lo :: words, congrArg (· + 1) hn, ?_⟩
      rw [List.flatMap_cons, be16_fromBe16, hrest]
      rfl

theorem flatMap_be16_length (words : List Half) : (words.flatMap be16).length = 2 * words.length := by
  simp [List.length_flatMap, Nat.mul_comm]

/-! ## The body of a frame (rules R62, R93) -/

/-- What a frame's length byte counts: the command and the payload. -/
def shapeBody (cb : Config.CountBytes) (f : FrameShape) : List Byte := shapeCommand f :: shapePayload cb f

theorem shapeFrame_eq_shapeBody (cb : Config.CountBytes) (f : FrameShape) :
    shapeFrame cb f = [0x5A, 0xA5, BitVec.ofNat 8 (shapeBody cb f).length] ++ shapeBody cb f := by
  rw [shapeBody, List.length_cons, Nat.add_comm]
  rfl

theorem shapeBody_readRegisterRequest (cb : Config.CountBytes) (r c : Byte) :
    shapeBody cb (.readRegisterRequest r c) = 0x81 :: r :: encCnt cb c := rfl

theorem shapeBody_readRegisterResponse (cb : Config.CountBytes) (r c : Byte) (data : List Byte) :
    shapeBody cb (.readRegisterResponse r c data) = shapeBody cb (.readRegisterRequest r c) ++ data := rfl

theorem shapeBody_readRamRequest (cb : Config.CountBytes) (v : Half) (c : Byte) :
    shapeBody cb (.readRamRequest v c) = 0x83 :: v.extractLsb' 8 8 :: v.extractLsb' 0 8 :: encCnt cb c := rfl

theorem shapeBody_readRamResponse (cb : Config.CountBytes) (v : Half) (c : Byte) (words : List Half) :
    shapeBody cb (.readRamResponse v c words) = shapeBody cb (.readRamRequest v c) ++ words.flatMap be16 := rfl

/-! ## A body that begins with given bytes and has room for more -/

theorem exists_items_iff {head body : List Byte} {n : Nat} :
    (∃ data extra : List Byte, data.length = n ∧ body = head ++ data ++ extra) ↔
      head <+: body ∧ head.length + n ≤ body.length := by
  constructor
  · rintro ⟨data, extra, rfl, rfl⟩
    exact ⟨⟨data ++ extra, (List.append_assoc ..).symm⟩, by simp⟩
  · rintro ⟨⟨rest, rfl⟩, hroom⟩
    refine ⟨rest.take n, rest.drop n, ?_, by rw [List.append_assoc, List.take_append_drop]⟩
    simp only [List.length_append] at hroom
    simp only [List.length_take]
    omega

theorem exists_words_iff {head body : List Byte} {n : Nat} :
    (∃ (words : List Half) (extra : List Byte), words.length = n ∧ body = head ++ words.flatMap be16 ++ extra) ↔
      head <+: body ∧ head.length + 2 * n ≤ body.length := by
  rw [← exists_items_iff]
  constructor
  · rintro ⟨words, extra, rfl, hbody⟩
    exact ⟨words.flatMap be16, extra, flatMap_be16_length words, hbody⟩
  · rintro ⟨data, extra, hlen, hbody⟩
    obtain ⟨words, hn, rfl⟩ := exists_words hlen
    exact ⟨words, extra, hn, hbody⟩

/-! ## The bytes a check reads (rules R186, R192) -/

theorem take_memRead (s : State) (a k n : Nat) (h : k ≤ n) : (memRead s a n).take k = memRead s a k :=
  List.ext_getElem (by simp [h]) fun i _ _ => by
    rw [List.getElem_take, memRead_getElem, memRead_getElem]

theorem isPrefix_memRead_iff {s : State} {a n : Nat} {bs : List Byte} :
    bs <+: memRead s a n ↔ bs.length ≤ n ∧ memRead s a bs.length = bs := by
  constructor
  · intro h
    have hle : bs.length ≤ n := memRead_length s a n ▸ h.length_le
    exact ⟨hle, (take_memRead s a bs.length n hle).symm.trans (List.prefix_iff_eq_take.mp h).symm⟩
  · rintro ⟨hle, h⟩
    rw [List.prefix_iff_eq_take, take_memRead s a bs.length n hle, h]

/-- A frame with the body `body` has been taken in: `END` is after it and its bytes stand from offset 3 on (rule R149). -/
structure HoldsBody (body : List Byte) (s : State) : Prop where
  fend : s.fend.toNat = 3 + body.length
  bytes : ∀ (k : Nat) (h : k < body.length), bufByte s (3 + k) = body[k]

/-- The frame just taken in, with the receive over, holds the popped body (rules R149, R152). -/
theorem holdsBody_bodyTaken {s : State} (hl : s.rxlen.toNat ≤ 252) (hq : s.rxlen.toNat ≤ s.rxq.length) :
    HoldsBody (s.rxq.take s.rxlen.toNat) { bodyTaken s with rxst := .idle, rchk := .none } := by
  have hlen : (s.rxq.take s.rxlen.toNat).length = s.rxlen.toNat := by simpa using hq
  refine ⟨hlen.symm ▸ byte_ofNat_toNat (by omega), fun k hk => ?_⟩
  rw [List.getElem_take]
  exact bodyTaken_byte_inside (by omega) (by omega)

/-- A body begins with the bytes read at offset 3, as far as it reaches. -/
theorem HoldsBody.isPrefix_iff {body head : List Byte} {s : State} (h : HoldsBody body s) :
    head <+: body ↔ head.length ≤ body.length ∧ memRead s 3 head.length = head := by
  rw [← isPrefix_memRead_iff, memRead_eq h.bytes]

/-- `check_reg(r, c)` accepts the body of the request for `r` and `c` with `c` bytes behind it (rules R93, R186). -/
theorem regResponseOk_iff {r c : Byte} {body : List Byte} {s : State} (h : HoldsBody body s) :
    regResponseOk r c s = true ↔
      ∃ data extra, data.length = c.toNat ∧
        body = shapeBody s.par.countBytes (.readRegisterResponse r c data) ++ extra := by
  have hlen : (shapeBody s.par.countBytes (.readRegisterRequest r c)).length = 2 + countWidth s.par.countBytes := by
    rw [shapeBody_readRegisterRequest, List.length_cons, List.length_cons, encCnt_length, Nat.add_comm 2]
  have hread : memRead s 3 (2 + countWidth s.par.countBytes) =
      bufByte s 3 :: bufByte s 4 :: memRead s 5 (countWidth s.par.countBytes) := by rw [Nat.add_comm]; rfl
  have hcnt := decCnt_eq_iff (c := c) (memRead_length s 5 (countWidth s.par.countBytes))
  calc regResponseOk r c s = true
    _ ↔ 2 + countWidth s.par.countBytes ≤ body.length ∧ bufByte s 3 = 0x81 ∧ bufByte s 4 = r ∧
          memRead s 5 (countWidth s.par.countBytes) = encCnt s.par.countBytes c ∧
          2 + countWidth s.par.countBytes + c.toNat ≤ body.length := by
        simp only [regResponseOk, Bool.and_eq_true, decide_eq_true_eq, hcnt, h.fend, Nat.add_sub_cancel_left, and_assoc]
        rfl
    _ ↔ shapeBody s.par.countBytes (.readRegisterRequest r c) <+: body ∧
          (shapeBody s.par.countBytes (.readRegisterRequest r c)).length + c.toNat ≤ body.length := by
        rw [h.isPrefix_iff, hlen, hread, shapeBody_readRegisterRequest]
        simp only [List.cons.injEq, and_assoc]
    _ ↔ _ := by simp only [← exists_items_iff, shapeBody_readRegisterResponse]

/-- `check_ram(v, c)` accepts the body of the request for `v` and `c` with `c` words behind it (rules R93, R192). -/
theorem ramResponseOk_iff {v : Half} {c : Byte} {body : List Byte} {s : State} (h : HoldsBody body s) :
    ramResponseOk v c s = true ↔
      ∃ words extra, words.length = c.toNat ∧
        body = shapeBody s.par.countBytes (.readRamResponse v c words) ++ extra := by
  have hlen : (shapeBody s.par.countBytes (.readRamRequest v c)).length = 3 + countWidth s.par.countBytes := by
    rw [shapeBody_readRamRequest, List.length_cons, List.length_cons, List.length_cons, encCnt_length, Nat.add_comm 3]
  have hread : memRead s 3 (3 + countWidth s.par.countBytes) =
      bufByte s 3 :: bufByte s 4 :: bufByte s 5 :: memRead s 6 (countWidth s.par.countBytes) := by rw [Nat.add_comm]; rfl
  have hcnt := decCnt_eq_iff (c := c) (memRead_length s 6 (countWidth s.par.countBytes))
  calc ramResponseOk v c s = true
    _ ↔ 3 + countWidth s.par.countBytes ≤ body.length ∧ bufByte s 3 = 0x83 ∧ bufByte s 4 = v.extractLsb' 8 8 ∧
          bufByte s 5 = v.extractLsb' 0 8 ∧ memRead s 6 (countWidth s.par.countBytes) = encCnt s.par.countBytes c ∧
          3 + countWidth s.par.countBytes + 2 * c.toNat ≤ body.length := by
        simp only [ramResponseOk, Bool.and_eq_true, decide_eq_true_eq, hcnt, fromBe16_eq_iff, h.fend,
          Nat.add_sub_cancel_left, and_assoc]
        rfl
    _ ↔ shapeBody s.par.countBytes (.readRamRequest v c) <+: body ∧
          (shapeBody s.par.countBytes (.readRamRequest v c)).length + 2 * c.toNat ≤ body.length := by
        rw [h.isPrefix_iff, hlen, hread, shapeBody_readRamRequest]
        simp only [List.cons.injEq, and_assoc]
    _ ↔ _ := by simp only [← exists_words_iff, shapeBody_readRamResponse]

/-! ## The end of a receive with a check pending (rule R152) -/

/-- How a check leaves the frame taken in: OK with the cursor at the first data item, or RESPONSE_MISMATCH. -/
def checkConcluded (ok : Bool) (p : Byte) (s : State) : State :=
  if ok then { s with rxst := .idle, rchk := .none, pos := p, status := .ok, data := 0 }
  else { s with rxst := .idle, rchk := .none, err := true, ecode := .responseMismatch,
                status := .responseMismatch, data := 0 }

theorem rxComplete_of_reg {s : State} {r c : Byte} (hk : s.rchk = .reg r c) :
    rxComplete s =
      checkConcluded (regResponseOk r c { s with rxst := .idle, rchk := .none })
        (BitVec.ofNat 8 (5 + countWidth s.par.countBytes)) s := by
  simp only [rxComplete, hk]
  rfl

theorem rxComplete_of_ram {s : State} {v : Half} {c : Byte} (hk : s.rchk = .ram v c) :
    rxComplete s =
      checkConcluded (ramResponseOk v c { s with rxst := .idle, rchk := .none })
        (BitVec.ofNat 8 (6 + countWidth s.par.countBytes)) s := by
  simp only [rxComplete, hk]
  rfl

/-- FE's turn on a queued body with a check pending: the two ends of the check, told apart by what it accepts, and the bytes
of the body, which are stored either way (rules R149, R152). -/
theorem step_of_checked_body {s : State} {ts : List Turn} {ok : Bool} {p : Byte} {accepts : Prop}
    (hs : s.script = .fe :: ts) (hr : s.rxst = .body) (hl : s.rxlen.toNat ≤ 252) (hq : s.rxlen.toNat ≤ s.rxq.length)
    (hcheck : rxComplete (bodyTaken { s with script := ts }) = checkConcluded ok p (bodyTaken { s with script := ts }))
    (hok : ok = true ↔ accepts) :
    ∃ t, step s = .next t ∧
      (accepts → t = { s with
          buf := t.buf, script := ts, rxq := s.rxq.drop s.rxlen.toNat, fend := BitVec.ofNat 8 (3 + s.rxlen.toNat),
          pos := p, rxst := .idle, rchk := .none, status := .ok, data := 0 }) ∧
      (¬accepts → t = { s with
          buf := t.buf, script := ts, rxq := s.rxq.drop s.rxlen.toNat, fend := BitVec.ofNat 8 (3 + s.rxlen.toNat),
          pos := 3, rxst := .idle, rchk := .none, err := true, ecode := .responseMismatch,
          status := .responseMismatch, data := 0 }) ∧
      (∀ (k : Nat) (h : k < s.rxq.length), k < s.rxlen.toNat → bufByte t (3 + k) = s.rxq[k]) ∧
      (∀ a, (a < 3 ∨ 3 + s.rxlen.toNat ≤ a) → bufByte t a = bufByte s a) := by
  refine ⟨_, step_of_queued_body hs hr hl hq, fun hacc => ?_, fun hrej => ?_, fun k h hlt => ?_, fun a ha => ?_⟩
  · rw [hcheck, hok.mpr hacc]
    rfl
  · rw [hcheck, Bool.eq_false_iff.mpr (mt hok.mp hrej)]
    rfl
  · rw [rxComplete_byte]
    exact bodyTaken_byte_inside (s := { s with script := ts }) h hlt
  · rw [rxComplete_byte, bodyTaken_byte_outside (s := { s with script := ts }) ha]
    exact bufByte_congr rfl rfl a

/-- Settles O34: the step takes the body in and ends as the check says, which accepts the response of rule R93. -/
theorem registerResponseCheck : Obligations.RegisterResponseCheck := fun _ _ s ts hs hr hk hl hq =>
  step_of_checked_body hs hr hl hq (rxComplete_of_reg (s := bodyTaken { s with script := ts }) hk)
    (regResponseOk_iff (holdsBody_bodyTaken (s := { s with script := ts }) hl hq))

/-- Settles O35: as O34, with the response of rule R93 that carries words. -/
theorem ramResponseCheck : Obligations.RamResponseCheck := fun _ _ s ts hs hr hk hl hq =>
  step_of_checked_body hs hr hl hq (rxComplete_of_ram (s := bodyTaken { s with script := ts }) hk)
    (ramResponseOk_iff (holdsBody_bodyTaken (s := { s with script := ts }) hl hq))

end Sys2Proof.Machine

/-! The statement of file 45_truncated_text.md: how far a truncated append moves the cursor, and the bytes it writes
(rule R204). -/

namespace Sys2Proof.Machine

@[simp] theorem appended_status (bs : List Byte) (s : State) : (appended bs s).status = .ok := by
  rw [appended_frame]

/-- A truncated append whose cut text fits completes, and what it appends is the cut text (rules R200, R203). -/
theorem exec_appendTrunc_fits {b : Byte} {t : List Byte} {s : State} (hlen : t.length ≤ 255) (hm : s.mode ≠ .rx)
    (he : s.err = false) (hfit : s.pos.toNat + (t.take b.toNat).length ≤ 255) :
    exec (.appendTrunc b t) s = .next (appended (t.take b.toNat) s) :=
  exec_append_fits rfl ((textFits_iff t).2 hlen) hm he hfit

/-- Settles O20: what is appended is the text cut to the budget, so the cursor moves by the smaller of the two lengths. -/
theorem truncationLength : Obligations.TruncationLength := by
  intro b t s hlen hm he hroom
  have hcut : (t.take b.toNat).length = min b.toNat t.length := List.length_take
  have hfit : s.pos.toNat + (t.take b.toNat).length ≤ 255 := hcut ▸ hroom
  have hpos : (appended (t.take b.toNat) s).pos.toNat = s.pos.toNat + min b.toNat t.length :=
    (appended_pos_toNat hfit).trans (congrArg (s.pos.toNat + ·) hcut)
  refine ⟨_, exec_appendTrunc_fits hlen hm he hfit, appended_status _ s, fun hlonger => ?_, fun hwhole => ?_,
    fun k hk hbudget h2 => ?_⟩
  · rw [hpos, min_eq_left hlonger.le]
  · rw [hpos, min_eq_right hwhole]
  · have hk' : k < (t.take b.toNat).length := hcut ▸ lt_min hbudget hk
    rw [appended_byte_inside hfit hk' h2, List.getElem_take]

end Sys2Proof.Machine

/-! The statements of file 60_exceptions.md: FE has no trap (rule R210), and what ILLEGAL_OP (rule R214), FRAME_UNUSABLE (rule
R213) and the failed operations (rule R217) leave as it was. -/

namespace Sys2Proof.Machine

open Sys2Proof.Safety

/-! ## No trap (rule R210) -/

/-- An FE that is not busy answers every instruction: only a receive in progress runs the body step, which can fault. -/
theorem exec_answers_of_idle (i : Instr) {s : State} (hr : s.rxst = .idle) : ∃ t, exec i s = .next t := by
  have hs := exec_shape i s
  generalize exec i s = r at hs
  cases hs with
  | wire c => exact ⟨_, takeFrame_of_idle c hr⟩
  | reset | resetCmd | append | longText | send | available | receive | noRequest | extract | request => exact ⟨_, rfl⟩

/-- FE's move answers when the length of an awaited body is legal (rule R149). -/
theorem feTurn_answers {s : State} (hlen : s.rxst = .body → s.rxlen.toNat ≤ 252) : ∃ t, feTurn s = .next t := by
  rcases feTurn_cases s with ⟨_, e⟩ | ⟨hr, op, rest, i, _, _, _, e⟩ | ⟨_, _, op, rest, _, e⟩ | ⟨_, _, e⟩ | ⟨_, _, e⟩ |
    ⟨_, _, e⟩ | ⟨hr, _, _, e⟩ <;> rw [e]
  · exact ⟨_, rfl⟩
  · exact exec_answers_of_idle i (s := { s with caller := rest }) hr
  · exact ⟨_, rfl⟩
  · exact ⟨_, rfl⟩
  · exact ⟨_, rfl⟩
  · exact ⟨_, rfl⟩
  · exact ⟨_, rxBody_of_le (hlen hr)⟩

/-- Settles O14: only FE's move can stop, and the invariant bounds the length that would stop it. -/
theorem invariantStatesNeverStop : Obligations.InvariantStatesNeverStop := by
  intro s h
  have hlen (hr : s.rxst = .body) : s.rxlen.toNat ≤ 252 := by
    obtain ⟨_, _, _, hle⟩ := h.bodyWritten hr
    exact hle
  rcases step_cases s with ⟨_, e⟩ | ⟨_, _, _, e⟩ | ⟨ts, _, _, e⟩ | ⟨op, ts, _, _, e⟩ | ⟨bs, ts, _, _, e⟩ | ⟨ts, _, _, e⟩
  · rw [e]; exact feTurn_answers (s := { s with script := s.script.tail }) hlen
  · exact ⟨_, e⟩
  · exact ⟨_, e⟩
  · exact ⟨_, e⟩
  · exact ⟨_, e⟩
  · exact ⟨_, e⟩

/-! ## ILLEGAL_OP (rule R214) -/

/-- If `t` shows ILLEGAL_OP, it is `s` with the result alone written. -/
def IllegalOnlyByRaise (s t : State) : Prop := t.status = .illegalOp → t = raise .illegalOp s

theorem illegalOnlyByRaise_raise (c : Status) (s : State) : IllegalOnlyByRaise s (raise c s) := fun h => h ▸ rfl

theorem illegalOnlyByRaise_of_status {s t : State} (h : t.status ≠ .illegalOp) : IllegalOnlyByRaise s t :=
  fun h' => absurd h' h

theorem illegalOnlyByRaise_appendBytes (bs : List Byte) (s : State) : IllegalOnlyByRaise s (appendBytes bs s) := by
  rcases appendBytes_cases bs s with ⟨_, e⟩ | ⟨_, _, e⟩ | ⟨_, _, _, e⟩ | ⟨_, _, _, e⟩ <;> rw [e]
  · exact illegalOnlyByRaise_raise _ s
  · exact illegalOnlyByRaise_raise _ s
  · exact illegalOnlyByRaise_of_status nofun
  · exact illegalOnlyByRaise_of_status (by simp)

theorem illegalOnlyByRaise_extract (w : Nat) (s : State) : IllegalOnlyByRaise s (extract w s) := by
  rcases extract_cases w s with ⟨_, e⟩ | ⟨_, _, e⟩ | ⟨_, _, _, e⟩ | ⟨_, _, _, e⟩ <;> rw [e]
  · exact illegalOnlyByRaise_raise _ s
  · exact illegalOnlyByRaise_raise _ s
  · exact illegalOnlyByRaise_of_status nofun
  · exact illegalOnlyByRaise_of_status nofun

theorem illegalOnlyByRaise_execSend {log : Bool} {s t : State} (h : execSend log s = .next t) :
    IllegalOnlyByRaise s t := by
  rcases execSend_cases log s with ⟨_, e⟩ | ⟨_, _, e⟩ | ⟨_, _, _, e⟩ | ⟨_, _, _, e⟩ <;> cases e.symm.trans h
  · exact illegalOnlyByRaise_raise _ s
  · exact illegalOnlyByRaise_raise _ s
  · exact illegalOnlyByRaise_raise _ s
  · exact illegalOnlyByRaise_of_status (by rw [sendFrame_frame]; nofun)

/-- A frame taken in completes with OK or RESPONSE_MISMATCH (rule R152). -/
theorem rxBody_status {s t : State} (h : rxBody s = .next t) : t.status = .ok ∨ t.status = .responseMismatch := by
  obtain ⟨_, rfl⟩ := rxBody_next h
  rcases rxComplete_cases (bodyTaken s) with ⟨_, e⟩ | ⟨_, p, _, _, e⟩ | ⟨_, e⟩ <;> rw [e]
  · exact .inl rfl
  · exact .inl rfl
  · exact .inr rfl

theorem illegalOnlyByRaise_takeFrame {c : Byte} {s t : State} (hst : s.status ≠ .illegalOp)
    (h : takeFrame c s = .next t) : IllegalOnlyByRaise s t := by
  rcases takeFrame_cases c s with ⟨_, e⟩ | ⟨_, _, e⟩ | ⟨_, _, e⟩ <;> have ht := e.symm.trans h
  · rcases rxBody_status ht with hs | hs <;> exact illegalOnlyByRaise_of_status (by simp [hs])
  · cases ht; exact illegalOnlyByRaise_of_status hst
  · cases ht; exact illegalOnlyByRaise_raise _ s

/-- No instruction shows a new ILLEGAL_OP but by raising it, group by group. -/
theorem illegalOnlyByRaise_exec {i : Instr} {s t : State} (hst : s.status ≠ .illegalOp) (h : exec i s = .next t) :
    IllegalOnlyByRaise s t := by
  have hs := exec_shape i s
  rw [h] at hs
  generalize hr : Host.Outcome.next t = r at hs
  cases hs with
  | append bs => cases hr; exact illegalOnlyByRaise_appendBytes bs s
  | extract w => cases hr; exact illegalOnlyByRaise_extract w s
  | send log => exact illegalOnlyByRaise_execSend hr.symm
  | wire c => exact illegalOnlyByRaise_takeFrame hst hr.symm
  | longText bs => cases hr; exact illegalOnlyByRaise_raise _ s
  | noRequest => cases hr; exact illegalOnlyByRaise_raise _ s
  | receive chk => cases hr; exact illegalOnlyByRaise_of_status hst
  | reset => cases hr; exact illegalOnlyByRaise_of_status nofun
  | resetCmd c => cases hr; exact illegalOnlyByRaise_of_status nofun
  | available n => cases hr; exact illegalOnlyByRaise_of_status nofun
  | request f => cases hr; exact illegalOnlyByRaise_of_status nofun

/-- A word that decodes to no operation raises ILLEGAL_OP (rules R85, R215). -/
theorem runCode_of_undecoded {c : Code} {e : DecodeError} (s : State) (h : decode c = .error e) :
    runCode c s = .next (raise .illegalOp s) := by
  simp only [runCode, h]

/-- Settles O52: an instruction shows ILLEGAL_OP only by raising it, an undecoded word raises it, and a raise writes the
result alone. -/
theorem illegalOpChangesNothingElse : Obligations.IllegalOpChangesNothingElse := by
  refine ⟨fun i s t hst h hill => ?_, fun w x e s hd => runCode_of_undecoded s hd⟩
  rw [illegalOnlyByRaise_exec hst h hill]
  exact ⟨rfl, rfl⟩

/-! ## FRAME_UNUSABLE and the way out of it (rules R213, R218) -/

/-- The operations that start a new frame, by group (rule R218). -/
theorem startsFrame_cases {i : Instr} (h : startsFrame i = true) :
    i = .reset ∨ (∃ c, i = .resetCmd c) ∨ (∃ f, requestOf i = some f) ∨ isReceive i = true := by
  cases i <;> cases h
  case reset => exact .inl rfl
  case resetCmd c => exact .inr (.inl ⟨c, rfl⟩)
  case wregReq | rregReq | wramReq | rramReq | wcurveReq => exact .inr (.inr (.inl ⟨_, rfl⟩))
  case receive | rregResp | rregRespMatch | rramResp | rramRespMatch => exact .inr (.inr (.inr rfl))

/-- An operation that starts a new frame clears the error; it completes with OK, or is a receive that has begun. -/
theorem exec_of_startsFrame {i : Instr} (s : State) (h : startsFrame i = true) (hl : illegalHere s i = false) :
    ∃ t, exec i s = .next t ∧ t.err = false ∧ t.ecode = .ok ∧ (t.status = .ok ∨ busy t = true) := by
  rcases startsFrame_cases h with rfl | ⟨c, rfl⟩ | ⟨f, hf⟩ | hr
  · exact ⟨_, exec_reset s, rfl, rfl, .inl rfl⟩
  · exact ⟨_, exec_resetCmd c s, rfl, rfl, .inl rfl⟩
  · have hb := buildsFrame_request s hf
    exact ⟨_, exec_of_requestOf s hf, hb.err, (congrArg State.ecode hb.others :), .inl rfl⟩
  · rcases exec_receive_cases s hr with ⟨_, chk, e⟩ | ⟨hill, _⟩
    · exact ⟨_, e, rfl, rfl, .inr rfl⟩
    · exact absurd hill (by simp [hl])

/-- Settles O53: the error is the second check of each of the three primitives, after the mode; a new frame clears it. -/
theorem unusableFrameIsRefused : Obligations.UnusableFrameIsRefused := by
  refine fun i s he => ⟨?_, exec_of_startsFrame s⟩
  rintro (⟨⟨bs, hb, hw⟩, hm⟩ | ⟨⟨log, rfl⟩, hm⟩ | ⟨⟨w, hw⟩, hm⟩)
  · rw [exec_of_appendBytesOf s hb hw, appendBytes_of_err bs hm he]; rfl
  · exact exec_send_of_err log hm he
  · rw [exec_of_extractWidthOf s hw, extract_of_err w hm he]; rfl

/-! ## Failures are precise (rule R217) -/

/-- If `t` shows another status than OK, it is `s` but for the error, the result, and `MODE` where an append entered TX. -/
def FailsPrecisely (s t : State) : Prop :=
  t.status ≠ .ok →
    t = { s with mode := t.mode, err := t.err, ecode := t.ecode, status := t.status, data := 0 } ∧
    (t.mode = s.mode ∨ s.mode = .idle ∧ t.mode = .tx)

theorem failsPrecisely_raise (c : Status) (s : State) : FailsPrecisely s (raise c s) := fun _ => ⟨rfl, .inl rfl⟩

theorem failsPrecisely_of_ok {s t : State} (h : t.status = .ok) : FailsPrecisely s t := fun hn => absurd h hn

/-- An append past the capacity enters TX from IDLE, or is in TX already (rule R121). -/
theorem failsPrecisely_appendBytes (bs : List Byte) (s : State) : FailsPrecisely s (appendBytes bs s) := by
  rcases appendBytes_cases bs s with ⟨_, e⟩ | ⟨_, _, e⟩ | ⟨hm, _, _, e⟩ | ⟨_, _, _, e⟩ <;> rw [e]
  · exact failsPrecisely_raise _ s
  · exact failsPrecisely_raise _ s
  · refine fun _ => ⟨rfl, ?_⟩
    cases h : s.mode with
    | idle => exact .inr ⟨rfl, rfl⟩
    | tx => exact .inl rfl
    | rx => exact absurd h hm
  · exact failsPrecisely_of_ok (appended_status bs s)

theorem failsPrecisely_extract (w : Nat) (s : State) : FailsPrecisely s (extract w s) := by
  rcases extract_cases w s with ⟨_, e⟩ | ⟨_, _, e⟩ | ⟨_, _, _, e⟩ | ⟨_, _, _, e⟩ <;> rw [e]
  · exact failsPrecisely_raise _ s
  · exact failsPrecisely_raise _ s
  · exact fun _ => ⟨rfl, .inl rfl⟩
  · exact failsPrecisely_of_ok rfl

theorem failsPrecisely_execSend {log : Bool} {s t : State} (h : execSend log s = .next t) : FailsPrecisely s t := by
  rcases execSend_cases log s with ⟨_, e⟩ | ⟨_, _, e⟩ | ⟨_, _, _, e⟩ | ⟨_, _, _, e⟩ <;> cases e.symm.trans h
  · exact failsPrecisely_raise _ s
  · exact failsPrecisely_raise _ s
  · exact failsPrecisely_raise _ s
  · exact failsPrecisely_of_ok (by rw [sendFrame_frame])

/-- An append of a text that the port cannot carry is refused (rules R84, R125, R215). -/
theorem exec_append_of_not_wf {i : Instr} {bs : List Byte} (s : State) (hb : appendBytesOf i = some bs)
    (hw : i.wf = false) : exec i s = .next (raise .illegalOp s) := by
  cases i <;> cases hb
  case appendText | appendTrunc => exact congrArg Host.Outcome.next (if_neg (Bool.eq_false_iff.1 hw))
  all_goals cases hw

/-- Settles O55: each of the three primitives fails precisely, and so does the refusal of a long text. -/
theorem failuresArePrecise : Obligations.FailuresArePrecise := by
  rintro i s t (⟨bs, hb⟩ | ⟨log, rfl⟩ | ⟨w, hw⟩) h
  · cases hw : i.wf with
    | true => cases (exec_of_appendBytesOf s hb hw).symm.trans h; exact failsPrecisely_appendBytes bs s
    | false => cases (exec_append_of_not_wf s hb hw).symm.trans h; exact failsPrecisely_raise _ s
  · exact failsPrecisely_execSend h
  · cases (exec_of_extractWidthOf s hw).symm.trans h
    exact failsPrecisely_extract w s

end Sys2Proof.Machine

/-! The statements of file 70_reset_and_hazards.md: a block reset in any state (rule R240) and the state after power-on, which
is that of a block reset (rule R241). -/

namespace Sys2Proof.Machine

/-! ## What rule R240 gives -/

/-- The elements to which rule R240 gives a value; `BUF`, of which it gives none, holds no byte written since. -/
structure AfterBlockReset (t : State) : Prop where
  buf      : t.buf = []
  pos      : t.pos = 0
  fend     : t.fend = 0
  mode     : t.mode = .idle
  err      : t.err = false
  ecode    : t.ecode = .ok
  reqValid : t.reqValid = false
  rxst     : t.rxst = .idle
  rchk     : t.rchk = .none
  status   : t.status = .ok
  data     : t.data = 0

theorem afterBlockReset_blockReset (s : State) : AfterBlockReset (blockReset s) := by constructor <;> rfl

/-- Power-on is a block reset (rule R241). -/
theorem afterBlockReset_reset : AfterBlockReset State.reset := by constructor <;> rfl

/-- A byte the reset left unwritten has an unspecified value (rule R240, log 1). -/
theorem AfterBlockReset.not_isWritten {t : State} (h : AfterBlockReset t) (a : Nat) : isWritten t a = false := by
  rw [isWritten, h.buf, lookup_nil, Option.isSome_none]

theorem AfterBlockReset.not_busy {t : State} (h : AfterBlockReset t) : busy t = false := (not_busy_iff t).2 h.rxst

/-- The port shows no value of the latch, which is unspecified: it is not valid (rules R41, R240). -/
theorem AfterBlockReset.reqKindBit {t : State} (h : AfterBlockReset t) : reqKindBit t = false := by
  rw [Machine.reqKindBit, h.reqValid, Bool.false_and]

/-- Every part of `FLAGS` is determined by rule R240, and is zero. -/
theorem AfterBlockReset.flags {t : State} (h : AfterBlockReset t) : flags t = 0 := by
  rw [Machine.flags, h.not_busy, h.reqKindBit, h.reqValid, h.ecode, h.err, h.mode]
  rfl

/-- A block reset does not touch the environment's streams (rule R240). -/
theorem blockReset_streams (s : State) :
    (blockReset s).rxq = s.rxq ∧ (blockReset s).txs = s.txs ∧ (blockReset s).logs = s.logs := ⟨rfl, rfl, rfl⟩

/-! ## The reset as a step, and at power-on -/

/-- A block reset on its turn takes precedence over FE, whatever FE is doing (rules R216, R240). -/
theorem step_of_blockReset {s : State} {ts : List Turn} (h : s.script = .blockReset :: ts) :
    step s = .next (blockReset { s with script := ts }) := by
  simp only [step, nextMove, h, agentTurn]

/-- Settles O9: the step is the block reset itself, and that does not look at the state it ends. -/
theorem blockResetEffect : Obligations.BlockResetEffect := by
  intro s ts hs
  have h := afterBlockReset_blockReset { s with script := ts }
  exact ⟨_, step_of_blockReset hs, h.not_isWritten, h.pos, h.fend, h.mode, h.err, h.ecode, h.reqValid, h.rxst, h.not_busy,
    h.rchk, h.status, h.data, blockReset_streams _⟩

/-- Settles O10: power-on gives what a block reset gives, and the streams of a fresh system are empty. -/
theorem powerOnState : Obligations.PowerOnState :=
  have h := afterBlockReset_reset
  ⟨h.not_isWritten, h.pos, h.fend, h.mode, h.err, h.ecode, h.reqValid, h.rxst, h.rchk, h.status, h.data, h.flags, rfl, rfl⟩

end Sys2Proof.Machine
